-- ==== Sys2Proof/Word.lean ====
section
/-! DEFINITION. The widths the ArqCompUFS CORE works in (spec/00_scope.md R12, R15). -/

namespace Sys2Proof

/-- A register, the pc, an address or an instruction word: 32 bits (R12). -/
abbrev Word := BitVec 32

/-- A byte of memory. -/
abbrev Byte := BitVec 8

/-- The 64-bit timer registers mtime and mtimecmp (spec/10_state.md R65). -/
abbrev DWord := BitVec 64

/-- A general register's number, 0 to 31 (spec/10_state.md R40). -/
abbrev Reg := BitVec 5

/-- A CSR number, 0x000 to 0xFFF (spec/10_state.md R50). -/
abbrev CsrNum := BitVec 12

end Sys2Proof
end

