-- ==== Sys2Proof/WellFormed.lean ====
section
/-! DEFINITION. Which terms of Instr stand for an instruction word: every field fits its width by type, and a branch or jump offset has bit 0 zero (spec/30_encoding.md R156, R158). -/

namespace Sys2Proof

/-- A B-type or J-type offset is a multiple of 2: bit 0 is not encoded (R156, R158). -/
def evenOffset {n : Nat} (imm : BitVec n) : Bool := !imm.getLsbD 0

/-- The instruction has an encoding. -/
def Instr.wellFormed : Instr → Bool
  | .beq _ _ imm | .bne _ _ imm | .blt _ _ imm | .bge _ _ imm | .bltu _ _ imm | .bgeu _ _ imm => evenOffset imm
  | .jal _ imm => evenOffset imm
  | .addi .. | .slti .. | .sltiu .. | .xori .. | .ori .. | .andi .. | .slli .. | .srli .. | .srai ..
  | .add .. | .sub .. | .sll .. | .slt .. | .sltu .. | .xor .. | .srl .. | .sra .. | .or .. | .and ..
  | .mul .. | .mulh .. | .mulhsu .. | .mulhu .. | .div .. | .divu .. | .rem .. | .remu ..
  | .lb .. | .lh .. | .lw .. | .lbu .. | .lhu .. | .sb .. | .sh .. | .sw ..
  | .jalr .. | .lui .. | .auipc .. | .ecall | .ebreak | .mret
  | .csrrw .. | .csrrs .. | .csrrc .. | .csrrwi .. | .csrrsi .. | .csrrci .. => true

end Sys2Proof
end

