-- ==== Sys2Proof/Decode.lean ====
section
/-! DEFINITION. Fields, the decoder and the encoder of the 32-bit instruction word (spec/30_encoding.md R150 to R164; spec/opcode_table.json). The decoder is total: a word is one instruction or is rejected by name. -/

namespace Sys2Proof

/-- Why a word is no instruction: the first field, in R162's order opcode, funct3, funct7, that no row of the table has
(R163, R164). `truncated`: fewer than the four bytes of an instruction word (R150). -/
inductive Illegal where
  | opcode
  | funct3
  | funct7
  | systemWord
  | truncated
deriving DecidableEq, Repr

/-! ### Fields (R151, R152) -/

def Field.opcode (w : Word) : BitVec 7 := w.extractLsb' 0 7
def Field.rd (w : Word) : Reg := w.extractLsb' 7 5
def Field.funct3 (w : Word) : BitVec 3 := w.extractLsb' 12 3
def Field.rs1 (w : Word) : Reg := w.extractLsb' 15 5
def Field.rs2 (w : Word) : Reg := w.extractLsb' 20 5
def Field.funct7 (w : Word) : BitVec 7 := w.extractLsb' 25 7
def Field.csr (w : Word) : CsrNum := w.extractLsb' 20 12

/-- `shamt`, in the rs2 position (R152). -/
def Field.shamt (w : Word) : BitVec 5 := w.extractLsb' 20 5

/-- `uimm`, in the rs1 position (R152). -/
def Field.uimm (w : Word) : BitVec 5 := w.extractLsb' 15 5

/-- The 12 bits w[31:20] of an I-type immediate, before extension (R154, R159). -/
def Field.immI (w : Word) : BitVec 12 := w.extractLsb' 20 12

/-- The 12 bits {w[31:25], w[11:7]} of an S-type immediate, before extension (R155). -/
def Field.immS (w : Word) : BitVec 12 := w.extractLsb' 25 7 ++ w.extractLsb' 7 5

/-- The 13 bits {w[31], w[7], w[30:25], w[11:8], 0} of a B-type offset, before extension (R156). -/
def Field.immB (w : Word) : BitVec 13 :=
  w.extractLsb' 31 1 ++ w.extractLsb' 7 1 ++ w.extractLsb' 25 6 ++ w.extractLsb' 8 4 ++ 0#1

/-- The 20 bits w[31:12] of a U-type immediate (R157). -/
def Field.immU (w : Word) : BitVec 20 := w.extractLsb' 12 20

/-- The 21 bits {w[31], w[19:12], w[20], w[30:21], 0} of a J-type offset, before extension (R158). -/
def Field.immJ (w : Word) : BitVec 21 :=
  w.extractLsb' 31 1 ++ w.extractLsb' 12 8 ++ w.extractLsb' 20 1 ++ w.extractLsb' 21 10 ++ 0#1

/-! ### The decoder: opcode, then funct3, then funct7 (R160 to R164) -/

def decodeLoad (w : Word) : Except Illegal Instr :=
  match Field.funct3 w with
  | 0b000#3 => .ok (.lb (Field.rd w) (Field.rs1 w) (Field.immI w))
  | 0b001#3 => .ok (.lh (Field.rd w) (Field.rs1 w) (Field.immI w))
  | 0b010#3 => .ok (.lw (Field.rd w) (Field.rs1 w) (Field.immI w))
  | 0b100#3 => .ok (.lbu (Field.rd w) (Field.rs1 w) (Field.immI w))
  | 0b101#3 => .ok (.lhu (Field.rd w) (Field.rs1 w) (Field.immI w))
  | _ => .error .funct3

def decodeOpImm (w : Word) : Except Illegal Instr :=
  match Field.funct3 w with
  | 0b000#3 => .ok (.addi (Field.rd w) (Field.rs1 w) (Field.immI w))
  | 0b010#3 => .ok (.slti (Field.rd w) (Field.rs1 w) (Field.immI w))
  | 0b011#3 => .ok (.sltiu (Field.rd w) (Field.rs1 w) (Field.immI w))
  | 0b100#3 => .ok (.xori (Field.rd w) (Field.rs1 w) (Field.immI w))
  | 0b110#3 => .ok (.ori (Field.rd w) (Field.rs1 w) (Field.immI w))
  | 0b111#3 => .ok (.andi (Field.rd w) (Field.rs1 w) (Field.immI w))
  | 0b001#3 =>
    match Field.funct7 w with
    | 0b0000000#7 => .ok (.slli (Field.rd w) (Field.rs1 w) (Field.shamt w))
    | _ => .error .funct7
  | _ =>
    match Field.funct7 w with
    | 0b0000000#7 => .ok (.srli (Field.rd w) (Field.rs1 w) (Field.shamt w))
    | 0b0100000#7 => .ok (.srai (Field.rd w) (Field.rs1 w) (Field.shamt w))
    | _ => .error .funct7

def decodeStore (w : Word) : Except Illegal Instr :=
  match Field.funct3 w with
  | 0b000#3 => .ok (.sb (Field.rs1 w) (Field.rs2 w) (Field.immS w))
  | 0b001#3 => .ok (.sh (Field.rs1 w) (Field.rs2 w) (Field.immS w))
  | 0b010#3 => .ok (.sw (Field.rs1 w) (Field.rs2 w) (Field.immS w))
  | _ => .error .funct3

/-- OP with funct7 0000000. -/
def decodeOpBase (w : Word) : Instr :=
  match Field.funct3 w with
  | 0b000#3 => .add (Field.rd w) (Field.rs1 w) (Field.rs2 w)
  | 0b001#3 => .sll (Field.rd w) (Field.rs1 w) (Field.rs2 w)
  | 0b010#3 => .slt (Field.rd w) (Field.rs1 w) (Field.rs2 w)
  | 0b011#3 => .sltu (Field.rd w) (Field.rs1 w) (Field.rs2 w)
  | 0b100#3 => .xor (Field.rd w) (Field.rs1 w) (Field.rs2 w)
  | 0b101#3 => .srl (Field.rd w) (Field.rs1 w) (Field.rs2 w)
  | 0b110#3 => .or (Field.rd w) (Field.rs1 w) (Field.rs2 w)
  | _ => .and (Field.rd w) (Field.rs1 w) (Field.rs2 w)

/-- OP with funct7 0000001: the M instructions. -/
def decodeOpM (w : Word) : Instr :=
  match Field.funct3 w with
  | 0b000#3 => .mul (Field.rd w) (Field.rs1 w) (Field.rs2 w)
  | 0b001#3 => .mulh (Field.rd w) (Field.rs1 w) (Field.rs2 w)
  | 0b010#3 => .mulhsu (Field.rd w) (Field.rs1 w) (Field.rs2 w)
  | 0b011#3 => .mulhu (Field.rd w) (Field.rs1 w) (Field.rs2 w)
  | 0b100#3 => .div (Field.rd w) (Field.rs1 w) (Field.rs2 w)
  | 0b101#3 => .divu (Field.rd w) (Field.rs1 w) (Field.rs2 w)
  | 0b110#3 => .rem (Field.rd w) (Field.rs1 w) (Field.rs2 w)
  | _ => .remu (Field.rd w) (Field.rs1 w) (Field.rs2 w)

/-- OP with funct7 0100000: SUB and SRA. -/
def decodeOpAlt (w : Word) : Except Illegal Instr :=
  match Field.funct3 w with
  | 0b000#3 => .ok (.sub (Field.rd w) (Field.rs1 w) (Field.rs2 w))
  | 0b101#3 => .ok (.sra (Field.rd w) (Field.rs1 w) (Field.rs2 w))
  | _ => .error .funct7

def decodeOp (w : Word) : Except Illegal Instr :=
  match Field.funct7 w with
  | 0b0000000#7 => .ok (decodeOpBase w)
  | 0b0000001#7 => .ok (decodeOpM w)
  | 0b0100000#7 => decodeOpAlt w
  | _ => .error .funct7

def decodeBranch (w : Word) : Except Illegal Instr :=
  match Field.funct3 w with
  | 0b000#3 => .ok (.beq (Field.rs1 w) (Field.rs2 w) (Field.immB w))
  | 0b001#3 => .ok (.bne (Field.rs1 w) (Field.rs2 w) (Field.immB w))
  | 0b100#3 => .ok (.blt (Field.rs1 w) (Field.rs2 w) (Field.immB w))
  | 0b101#3 => .ok (.bge (Field.rs1 w) (Field.rs2 w) (Field.immB w))
  | 0b110#3 => .ok (.bltu (Field.rs1 w) (Field.rs2 w) (Field.immB w))
  | 0b111#3 => .ok (.bgeu (Field.rs1 w) (Field.rs2 w) (Field.immB w))
  | _ => .error .funct3

def decodeJalr (w : Word) : Except Illegal Instr :=
  match Field.funct3 w with
  | 0b000#3 => .ok (.jalr (Field.rd w) (Field.rs1 w) (Field.immI w))
  | _ => .error .funct3

/-- SYSTEM with funct3 000: three whole words (R161, R341). -/
def decodeSystemWord (w : Word) : Except Illegal Instr :=
  match w with
  | 0x00000073#32 => .ok .ecall
  | 0x00100073#32 => .ok .ebreak
  | 0x30200073#32 => .ok .mret
  | _ => .error .systemWord

def decodeSystem (w : Word) : Except Illegal Instr :=
  match Field.funct3 w with
  | 0b000#3 => decodeSystemWord w
  | 0b001#3 => .ok (.csrrw (Field.rd w) (Field.rs1 w) (Field.csr w))
  | 0b010#3 => .ok (.csrrs (Field.rd w) (Field.rs1 w) (Field.csr w))
  | 0b011#3 => .ok (.csrrc (Field.rd w) (Field.rs1 w) (Field.csr w))
  | 0b101#3 => .ok (.csrrwi (Field.rd w) (Field.uimm w) (Field.csr w))
  | 0b110#3 => .ok (.csrrsi (Field.rd w) (Field.uimm w) (Field.csr w))
  | 0b111#3 => .ok (.csrrci (Field.rd w) (Field.uimm w) (Field.csr w))
  | _ => .error .funct3

/-- `Decode(w)` (R162): an instruction, or why the word is illegal (R163, R164). -/
def decodeWord (w : Word) : Except Illegal Instr :=
  match Field.opcode w with
  | 0b0000011#7 => decodeLoad w
  | 0b0010011#7 => decodeOpImm w
  | 0b0010111#7 => .ok (.auipc (Field.rd w) (Field.immU w))
  | 0b0100011#7 => decodeStore w
  | 0b0110011#7 => decodeOp w
  | 0b0110111#7 => .ok (.lui (Field.rd w) (Field.immU w))
  | 0b1100011#7 => decodeBranch w
  | 0b1100111#7 => decodeJalr w
  | 0b1101111#7 => .ok (.jal (Field.rd w) (Field.immJ w))
  | 0b1110011#7 => decodeSystem w
  | _ => .error .opcode

/-! ### Bytes: little-endian (R96, R150) -/

/-- {b3, b2, b1, b0}: the word whose byte at the lowest address is `b0` (spec/20_memory.md R95, R96). -/
def wordOfBytes (b0 b1 b2 b3 : Byte) : Word := b3 ++ b2 ++ b1 ++ b0

/-- Byte `k` of a word, byte 0 the least significant. -/
def byteOfWord (w : Word) (k : Nat) : Byte := w.extractLsb' (8 * k) 8

/-- The four bytes of a word in the order memory holds them. -/
def bytesOfWord (w : Word) : List Byte := [byteOfWord w 0, byteOfWord w 1, byteOfWord w 2, byteOfWord w 3]

/-- The instruction at the head of a byte sequence, and the rest of it; every word is one instruction (R150). -/
def decodeBytes : List Byte → Except Illegal (Instr × List Byte)
  | b0 :: b1 :: b2 :: b3 :: rest =>
    match decodeWord (wordOfBytes b0 b1 b2 b3) with
    | .ok i => .ok (i, rest)
    | .error e => .error e
  | _ => .error .truncated

/-- The instruction word of the table's numbering: the low `nbits` bits of `w`, every bit above them 0. -/
def tableWord (nbits w : Nat) : Word := BitVec.ofNat 32 (w % 2 ^ nbits)

/-- What the decoder reads from an instruction whose table bits are `w`, laid out little-endian. -/
def decodeTableWord (nbits w : Nat) : Option Instr :=
  match decodeBytes (bytesOfWord (tableWord nbits w)) with
  | .ok (i, _) => some i
  | .error _ => none

/-! ### The encoder, by format (R153) -/

def encodeR (f7 : BitVec 7) (rs2 rs1 : Reg) (f3 : BitVec 3) (rd : Reg) (op : BitVec 7) : Word :=
  f7 ++ rs2 ++ rs1 ++ f3 ++ rd ++ op

def encodeI (imm : BitVec 12) (rs1 : Reg) (f3 : BitVec 3) (rd : Reg) (op : BitVec 7) : Word :=
  imm ++ rs1 ++ f3 ++ rd ++ op

def encodeS (imm : BitVec 12) (rs2 rs1 : Reg) (f3 : BitVec 3) (op : BitVec 7) : Word :=
  imm.extractLsb' 5 7 ++ rs2 ++ rs1 ++ f3 ++ imm.extractLsb' 0 5 ++ op

def encodeB (imm : BitVec 13) (rs2 rs1 : Reg) (f3 : BitVec 3) (op : BitVec 7) : Word :=
  imm.extractLsb' 12 1 ++ imm.extractLsb' 5 6 ++ rs2 ++ rs1 ++ f3 ++ imm.extractLsb' 1 4 ++ imm.extractLsb' 11 1 ++ op

def encodeU (imm : BitVec 20) (rd : Reg) (op : BitVec 7) : Word :=
  imm ++ rd ++ op

def encodeJ (imm : BitVec 21) (rd : Reg) (op : BitVec 7) : Word :=
  imm.extractLsb' 20 1 ++ imm.extractLsb' 1 10 ++ imm.extractLsb' 11 1 ++ imm.extractLsb' 12 8 ++ rd ++ op

/-- The word of a well-formed instruction (R153, R160, R161). -/
def encode : Instr → Word
  | .addi rd rs1 imm => encodeI imm rs1 0b000#3 rd 0b0010011#7
  | .slti rd rs1 imm => encodeI imm rs1 0b010#3 rd 0b0010011#7
  | .sltiu rd rs1 imm => encodeI imm rs1 0b011#3 rd 0b0010011#7
  | .xori rd rs1 imm => encodeI imm rs1 0b100#3 rd 0b0010011#7
  | .ori rd rs1 imm => encodeI imm rs1 0b110#3 rd 0b0010011#7
  | .andi rd rs1 imm => encodeI imm rs1 0b111#3 rd 0b0010011#7
  | .slli rd rs1 shamt => encodeR 0b0000000#7 shamt rs1 0b001#3 rd 0b0010011#7
  | .srli rd rs1 shamt => encodeR 0b0000000#7 shamt rs1 0b101#3 rd 0b0010011#7
  | .srai rd rs1 shamt => encodeR 0b0100000#7 shamt rs1 0b101#3 rd 0b0010011#7
  | .add rd rs1 rs2 => encodeR 0b0000000#7 rs2 rs1 0b000#3 rd 0b0110011#7
  | .sub rd rs1 rs2 => encodeR 0b0100000#7 rs2 rs1 0b000#3 rd 0b0110011#7
  | .sll rd rs1 rs2 => encodeR 0b0000000#7 rs2 rs1 0b001#3 rd 0b0110011#7
  | .slt rd rs1 rs2 => encodeR 0b0000000#7 rs2 rs1 0b010#3 rd 0b0110011#7
  | .sltu rd rs1 rs2 => encodeR 0b0000000#7 rs2 rs1 0b011#3 rd 0b0110011#7
  | .xor rd rs1 rs2 => encodeR 0b0000000#7 rs2 rs1 0b100#3 rd 0b0110011#7
  | .srl rd rs1 rs2 => encodeR 0b0000000#7 rs2 rs1 0b101#3 rd 0b0110011#7
  | .sra rd rs1 rs2 => encodeR 0b0100000#7 rs2 rs1 0b101#3 rd 0b0110011#7
  | .or rd rs1 rs2 => encodeR 0b0000000#7 rs2 rs1 0b110#3 rd 0b0110011#7
  | .and rd rs1 rs2 => encodeR 0b0000000#7 rs2 rs1 0b111#3 rd 0b0110011#7
  | .mul rd rs1 rs2 => encodeR 0b0000001#7 rs2 rs1 0b000#3 rd 0b0110011#7
  | .mulh rd rs1 rs2 => encodeR 0b0000001#7 rs2 rs1 0b001#3 rd 0b0110011#7
  | .mulhsu rd rs1 rs2 => encodeR 0b0000001#7 rs2 rs1 0b010#3 rd 0b0110011#7
  | .mulhu rd rs1 rs2 => encodeR 0b0000001#7 rs2 rs1 0b011#3 rd 0b0110011#7
  | .div rd rs1 rs2 => encodeR 0b0000001#7 rs2 rs1 0b100#3 rd 0b0110011#7
  | .divu rd rs1 rs2 => encodeR 0b0000001#7 rs2 rs1 0b101#3 rd 0b0110011#7
  | .rem rd rs1 rs2 => encodeR 0b0000001#7 rs2 rs1 0b110#3 rd 0b0110011#7
  | .remu rd rs1 rs2 => encodeR 0b0000001#7 rs2 rs1 0b111#3 rd 0b0110011#7
  | .lb rd rs1 imm => encodeI imm rs1 0b000#3 rd 0b0000011#7
  | .lh rd rs1 imm => encodeI imm rs1 0b001#3 rd 0b0000011#7
  | .lw rd rs1 imm => encodeI imm rs1 0b010#3 rd 0b0000011#7
  | .lbu rd rs1 imm => encodeI imm rs1 0b100#3 rd 0b0000011#7
  | .lhu rd rs1 imm => encodeI imm rs1 0b101#3 rd 0b0000011#7
  | .sb rs1 rs2 imm => encodeS imm rs2 rs1 0b000#3 0b0100011#7
  | .sh rs1 rs2 imm => encodeS imm rs2 rs1 0b001#3 0b0100011#7
  | .sw rs1 rs2 imm => encodeS imm rs2 rs1 0b010#3 0b0100011#7
  | .beq rs1 rs2 imm => encodeB imm rs2 rs1 0b000#3 0b1100011#7
  | .bne rs1 rs2 imm => encodeB imm rs2 rs1 0b001#3 0b1100011#7
  | .blt rs1 rs2 imm => encodeB imm rs2 rs1 0b100#3 0b1100011#7
  | .bge rs1 rs2 imm => encodeB imm rs2 rs1 0b101#3 0b1100011#7
  | .bltu rs1 rs2 imm => encodeB imm rs2 rs1 0b110#3 0b1100011#7
  | .bgeu rs1 rs2 imm => encodeB imm rs2 rs1 0b111#3 0b1100011#7
  | .jal rd imm => encodeJ imm rd 0b1101111#7
  | .jalr rd rs1 imm => encodeI imm rs1 0b000#3 rd 0b1100111#7
  | .lui rd imm => encodeU imm rd 0b0110111#7
  | .auipc rd imm => encodeU imm rd 0b0010111#7
  | .ecall => 0x00000073#32
  | .ebreak => 0x00100073#32
  | .mret => 0x30200073#32
  | .csrrw rd rs1 csr => encodeI csr rs1 0b001#3 rd 0b1110011#7
  | .csrrs rd rs1 csr => encodeI csr rs1 0b010#3 rd 0b1110011#7
  | .csrrc rd rs1 csr => encodeI csr rs1 0b011#3 rd 0b1110011#7
  | .csrrwi rd uimm csr => encodeI csr uimm 0b101#3 rd 0b1110011#7
  | .csrrsi rd uimm csr => encodeI csr uimm 0b110#3 rd 0b1110011#7
  | .csrrci rd uimm csr => encodeI csr uimm 0b111#3 rd 0b1110011#7

/-! ### The opcode table's rows (spec/opcode_table.json) -/

/-- The mask and the match of the instruction's row: a word is of that row when its masked bits are the match. -/
def Instr.row : Instr → Word × Word
  | .addi .. => (0x0000707F#32, 0x00000013#32)
  | .slti .. => (0x0000707F#32, 0x00002013#32)
  | .sltiu .. => (0x0000707F#32, 0x00003013#32)
  | .xori .. => (0x0000707F#32, 0x00004013#32)
  | .ori .. => (0x0000707F#32, 0x00006013#32)
  | .andi .. => (0x0000707F#32, 0x00007013#32)
  | .slli .. => (0xFE00707F#32, 0x00001013#32)
  | .srli .. => (0xFE00707F#32, 0x00005013#32)
  | .srai .. => (0xFE00707F#32, 0x40005013#32)
  | .add .. => (0xFE00707F#32, 0x00000033#32)
  | .sub .. => (0xFE00707F#32, 0x40000033#32)
  | .sll .. => (0xFE00707F#32, 0x00001033#32)
  | .slt .. => (0xFE00707F#32, 0x00002033#32)
  | .sltu .. => (0xFE00707F#32, 0x00003033#32)
  | .xor .. => (0xFE00707F#32, 0x00004033#32)
  | .srl .. => (0xFE00707F#32, 0x00005033#32)
  | .sra .. => (0xFE00707F#32, 0x40005033#32)
  | .or .. => (0xFE00707F#32, 0x00006033#32)
  | .and .. => (0xFE00707F#32, 0x00007033#32)
  | .mul .. => (0xFE00707F#32, 0x02000033#32)
  | .mulh .. => (0xFE00707F#32, 0x02001033#32)
  | .mulhsu .. => (0xFE00707F#32, 0x02002033#32)
  | .mulhu .. => (0xFE00707F#32, 0x02003033#32)
  | .div .. => (0xFE00707F#32, 0x02004033#32)
  | .divu .. => (0xFE00707F#32, 0x02005033#32)
  | .rem .. => (0xFE00707F#32, 0x02006033#32)
  | .remu .. => (0xFE00707F#32, 0x02007033#32)
  | .lb .. => (0x0000707F#32, 0x00000003#32)
  | .lh .. => (0x0000707F#32, 0x00001003#32)
  | .lw .. => (0x0000707F#32, 0x00002003#32)
  | .lbu .. => (0x0000707F#32, 0x00004003#32)
  | .lhu .. => (0x0000707F#32, 0x00005003#32)
  | .sb .. => (0x0000707F#32, 0x00000023#32)
  | .sh .. => (0x0000707F#32, 0x00001023#32)
  | .sw .. => (0x0000707F#32, 0x00002023#32)
  | .beq .. => (0x0000707F#32, 0x00000063#32)
  | .bne .. => (0x0000707F#32, 0x00001063#32)
  | .blt .. => (0x0000707F#32, 0x00004063#32)
  | .bge .. => (0x0000707F#32, 0x00005063#32)
  | .bltu .. => (0x0000707F#32, 0x00006063#32)
  | .bgeu .. => (0x0000707F#32, 0x00007063#32)
  | .jal .. => (0x0000007F#32, 0x0000006F#32)
  | .jalr .. => (0x0000707F#32, 0x00000067#32)
  | .lui .. => (0x0000007F#32, 0x00000037#32)
  | .auipc .. => (0x0000007F#32, 0x00000017#32)
  | .ecall => (0xFFFFFFFF#32, 0x00000073#32)
  | .ebreak => (0xFFFFFFFF#32, 0x00100073#32)
  | .mret => (0xFFFFFFFF#32, 0x30200073#32)
  | .csrrw .. => (0x0000707F#32, 0x00001073#32)
  | .csrrs .. => (0x0000707F#32, 0x00002073#32)
  | .csrrc .. => (0x0000707F#32, 0x00003073#32)
  | .csrrwi .. => (0x0000707F#32, 0x00005073#32)
  | .csrrsi .. => (0x0000707F#32, 0x00006073#32)
  | .csrrci .. => (0x0000707F#32, 0x00007073#32)

/-- The mask and the match of every row, in the table's order. -/
def opcodeRows : List (Word × Word) :=
  [(0x0000707F#32, 0x00000013#32),
   (0x0000707F#32, 0x00002013#32),
   (0x0000707F#32, 0x00003013#32),
   (0x0000707F#32, 0x00004013#32),
   (0x0000707F#32, 0x00006013#32),
   (0x0000707F#32, 0x00007013#32),
   (0xFE00707F#32, 0x00001013#32),
   (0xFE00707F#32, 0x00005013#32),
   (0xFE00707F#32, 0x40005013#32),
   (0xFE00707F#32, 0x00000033#32),
   (0xFE00707F#32, 0x40000033#32),
   (0xFE00707F#32, 0x00001033#32),
   (0xFE00707F#32, 0x00002033#32),
   (0xFE00707F#32, 0x00003033#32),
   (0xFE00707F#32, 0x00004033#32),
   (0xFE00707F#32, 0x00005033#32),
   (0xFE00707F#32, 0x40005033#32),
   (0xFE00707F#32, 0x00006033#32),
   (0xFE00707F#32, 0x00007033#32),
   (0xFE00707F#32, 0x02000033#32),
   (0xFE00707F#32, 0x02001033#32),
   (0xFE00707F#32, 0x02002033#32),
   (0xFE00707F#32, 0x02003033#32),
   (0xFE00707F#32, 0x02004033#32),
   (0xFE00707F#32, 0x02005033#32),
   (0xFE00707F#32, 0x02006033#32),
   (0xFE00707F#32, 0x02007033#32),
   (0x0000707F#32, 0x00000003#32),
   (0x0000707F#32, 0x00001003#32),
   (0x0000707F#32, 0x00002003#32),
   (0x0000707F#32, 0x00004003#32),
   (0x0000707F#32, 0x00005003#32),
   (0x0000707F#32, 0x00000023#32),
   (0x0000707F#32, 0x00001023#32),
   (0x0000707F#32, 0x00002023#32),
   (0x0000707F#32, 0x00000063#32),
   (0x0000707F#32, 0x00001063#32),
   (0x0000707F#32, 0x00004063#32),
   (0x0000707F#32, 0x00005063#32),
   (0x0000707F#32, 0x00006063#32),
   (0x0000707F#32, 0x00007063#32),
   (0x0000007F#32, 0x0000006F#32),
   (0x0000707F#32, 0x00000067#32),
   (0x0000007F#32, 0x00000037#32),
   (0x0000007F#32, 0x00000017#32),
   (0xFFFFFFFF#32, 0x00000073#32),
   (0xFFFFFFFF#32, 0x00100073#32),
   (0xFFFFFFFF#32, 0x30200073#32),
   (0x0000707F#32, 0x00001073#32),
   (0x0000707F#32, 0x00002073#32),
   (0x0000707F#32, 0x00003073#32),
   (0x0000707F#32, 0x00005073#32),
   (0x0000707F#32, 0x00006073#32),
   (0x0000707F#32, 0x00007073#32)]

end Sys2Proof
end

