-- ==== Sys2Proof/Config.lean ====
section
/-! DEFINITION. What an implementation of the core fixes: the OPEN parameters of spec/00_scope.md R12 as plain data, the parameters that R12 gives a value, and the one free value, the timer draw. -/

namespace Sys2Proof

/-- The OPEN parameters of R12. They are plain data (log 1): a statement over every state is a statement over every
configuration. `uartIrq` is a source id 0..31 (spec/60_exceptions.md R426; log 7). -/
structure Config where
  ramBase   : Word
  ramSize   : Nat
  clintBase : Word
  plicBase  : Word
  uartBase  : Word
  uartIrq   : BitVec 5
deriving DecidableEq, Repr

/-- The test configuration of R12 and spec/92_eei_decisions.md D19 and D20. -/
def Config.test : Config where
  ramBase   := 0x80000000#32
  ramSize   := 0x00010000
  clintBase := 0x02000000#32
  plicBase  := 0x0C000000#32
  uartBase  := 0x10000000#32
  uartIrq   := 10#5

/-- RESET_PC = RAM_BASE (R12, spec/70_reset_and_hazards.md R451). -/
def Config.resetPc (c : Config) : Word := c.ramBase

/-- VECTOR_EXCEPTIONS, which R12 fixes at true (spec/92_eei_decisions.md D15). -/
def Config.vectorExceptions : Bool := true

/-- FREE VALUE (log 3): how far mtime advances in the cycle that reads draw number `n`
(spec/60_exceptions.md R380, D18: any natural number). It has no body, so nothing can be proved of its value. -/
opaque Config.timerDraw (n : Nat) : Nat

end Sys2Proof
end

