-- ==== Sys2Proof/Machine/State.lean ====
section
/-! DEFINITION. The machine's whole state as plain data (spec/10_state.md), the reasons a step can stop, and the state after reset (spec/70_reset_and_hazards.md R450). -/

namespace Sys2Proof.Machine

/-! ### Why a step stops -/

/-- A step that the spec says does not exist. -/
inductive Fault where
  /-- Raised by `step` alone, in a state with run = false: EBREAK has halted the core and "a state with run = false has no
  further step" (spec/10_state.md R66, spec/30_encoding.md R170). Safe: the spec's machine takes no step there (log 5). -/
  | halted
deriving DecidableEq, Repr

/-- The spec's own refusal reasons (spec/00_scope.md R19). -/
inductive RefuseReason where
  | misalignedData
  | badConfiguration
deriving DecidableEq, Repr

/-- The model has no meaning from here on (spec/00_scope.md R19). -/
inductive Refusal where
  /-- Raised by the five loads and three stores at an address that is not a multiple of the access width, RAM or device
  (spec/20_memory.md R99), and by `step` in a state already refused for it. Safe: nothing can be proved past it (log 6). -/
  | misalignedData
  /-- Raised by `step` when the configuration breaks spec/00_scope.md R13, and in a state that power-on refused. Safe (log 8). -/
  | badConfiguration
  /-- Raised by `exec`'s arm of an instruction that has no meaning yet; no arm does. Safe. -/
  | notModelled (mnemonic : String)
deriving DecidableEq, Repr

/-! ### Caches (R62) -/

/-- A cache line: valid bit, 25-bit tag, four words, recency counter (R62). -/
structure CacheLine where
  valid   : Bool
  tag     : BitVec 25
  block   : Vector Word 4
  recency : Nat
deriving DecidableEq, Repr

/-- A line's number in its set: CACHE_WAYS = 2 (spec/00_scope.md R12). -/
inductive Way where
  | way0
  | way1
deriving DecidableEq, Repr

/-- A set: "an ordered pair" of lines (spec/90_conflicts.md C10). -/
structure CacheSet where
  line0 : CacheLine
  line1 : CacheLine
deriving DecidableEq, Repr

/-- A cache instance: 8 sets and its cumulative counters (R62, spec/20_memory.md R127). -/
structure Cache where
  sets   : Vector CacheSet 8
  hits   : Nat
  misses : Nat
deriving DecidableEq, Repr

/-- "valid = false, tag = 0, block = [0, 0, 0, 0], recency = 0" (R62). -/
def CacheLine.reset : CacheLine where
  valid := false
  tag := 0#25
  block := Vector.replicate 4 0#32
  recency := 0

def Cache.reset : Cache where
  sets := Vector.replicate 8 ⟨CacheLine.reset, CacheLine.reset⟩
  hits := 0
  misses := 0

/-! ### Memory (R64) -/

/-- The backing memory: bytes by absolute address, in canonical form (Machine/Ops.lean `Memory.wf`). -/
abbrev Memory := List Host.Cell

/-! ### CSRs (R51) -/

/-- The seven CSRs (R51). -/
structure CsrFile where
  mstatus : Word
  mie     : Word
  mtvec   : Word
  mepc    : Word
  mcause  : Word
  mtval   : Word
  mip     : Word
deriving DecidableEq, Repr

/-- Every CSR 0 (R51). -/
def CsrFile.reset : CsrFile where
  mstatus := 0#32
  mie     := 0#32
  mtvec   := 0#32
  mepc    := 0#32
  mcause  := 0#32
  mtval   := 0#32
  mip     := 0#32

/-! ### Devices (R65) -/

/-- The device registers: CLINT, PLIC and UART (R65). -/
structure DevState where
  msip          : Word
  mtime         : DWord
  mtimecmp      : DWord
  plicPending   : Word
  plicEnable    : Word
  plicThreshold : Word
  uartOut       : List Byte
deriving DecidableEq, Repr

/-- Every device register 0, the terminal output empty (R65). -/
def DevState.reset : DevState where
  msip          := 0#32
  mtime         := 0#64
  mtimecmp      := 0#64
  plicPending   := 0#32
  plicEnable    := 0#32
  plicThreshold := 0#32
  uartOut       := []

/-! ### Traps (spec/60_exceptions.md R370, R397) -/

/-- The nine causes of R370: six exceptions and three interrupts. -/
inductive Cause where
  | instructionMisaligned
  | instructionFault
  | illegalInstruction
  | loadFault
  | storeFault
  | environmentCall
  | softwareInterrupt
  | timerInterrupt
  | externalInterrupt
deriving DecidableEq, Repr

/-- The class of a trap event record (R397). -/
inductive TrapClass where
  | exception
  | interrupt
deriving DecidableEq, Repr

/-- A trap event record: (class, kind, cause, epc, tval) (R397); `kind` is the row of R370's table, whose printed name is
`Cause.kindName` (Machine/Ops.lean). -/
structure TrapRecord where
  cls   : TrapClass
  kind  : Cause
  cause : Word
  epc   : Word
  tval  : Word
deriving DecidableEq, Repr

/-! ### The state -/

/-- The state of R40 to R71. `cfg` holds the OPEN parameters (log 1) and `draws` numbers the timer draws (log 3); both are
the model's own. -/
structure State where
  regs    : Vector Word 32
  pc      : Word
  csr     : CsrFile
  icache  : Cache
  dcache  : Cache
  mem     : Memory
  dev     : DevState
  run     : Bool
  refused : Option RefuseReason
  instret : Nat
  traps   : List TrapRecord
  cfg     : Config
  draws   : Nat
deriving DecidableEq, Repr

/-- The reset state of R450 for a configuration and the contents RAM then holds (the image over the draw, R452). -/
def State.resetWith (cfg : Config) (mem : Memory) : State where
  regs    := Vector.replicate 32 0#32
  pc      := cfg.resetPc
  csr     := CsrFile.reset
  icache  := Cache.reset
  dcache  := Cache.reset
  mem     := mem
  dev     := DevState.reset
  run     := true
  refused := none
  instret := 0
  traps   := []
  cfg     := cfg
  draws   := 0

/-- The machine right after reset: the test configuration (log 1), no image and nothing listed in memory (log 2). -/
def State.reset : State := State.resetWith Config.test []

end Sys2Proof.Machine
end

