-- ==== Sys2Proof/Machine/Flags.lean ====
section
/-! DEFINITION. The core has no flags (spec/10_state.md R49). What this file holds instead: a comparison's result as a register value, and the bits of mstatus and mip that rules name (R54, R55, R60). -/

namespace Sys2Proof.Machine

/-- "? 1 : 0" (spec/40_alu.md R201). -/
def boolWord (b : Bool) : Word := if b then 1#32 else 0#32

/-- `w` with bit `i` set to `b` and every other bit kept. -/
def setBit (w : Word) (i : Nat) (b : Bool) : Word :=
  if b then w ||| (1#32 <<< i) else w &&& ~~~(1#32 <<< i)

/-- mstatus.MIE, bit 3 (R54). -/
def statusMie (m : Word) : Bool := m.getLsbD 3

/-- mstatus.MPIE, bit 7 (R54). -/
def statusMpie (m : Word) : Bool := m.getLsbD 7

/-- mstatus after trap entry: MPIE takes MIE, MIE is cleared, no other bit changes (spec/60_exceptions.md R390). -/
def trapStatus (m : Word) : Word := setBit (setBit m 7 (statusMie m)) 3 false

/-- mstatus after MRET: MIE takes MPIE, MPIE is set, no other bit changes (spec/46_system.md R332). -/
def returnStatus (m : Word) : Word := setBit (setBit m 3 (statusMpie m)) 7 true

/-- mip from its three pending bits, every other bit 0 (R60, spec/60_exceptions.md R381). -/
def mipWord (meip mtip msip : Bool) : Word :=
  (boolWord meip <<< 11) ||| (boolWord mtip <<< 7) ||| (boolWord msip <<< 3)

end Sys2Proof.Machine
end

