-- ==== Sys2Proof/Machine/Ops.lean ====
section
/-! DEFINITION. The named operations over registers, CSRs and memory, the end of a completed instruction, and the one trap entry with the trap return beside it. -/

namespace Sys2Proof.Machine

/-- What `exec` and `step` answer. -/
abbrev Result := Host.Outcome State Fault Refusal

/-! ### General registers (spec/10_state.md R41, spec/00_scope.md R16) -/

/-- `x[r]`: 0 for r = 0. -/
def State.reg (s : State) (r : Reg) : Word :=
  if r = 0#5 then 0#32 else s.regs[r.toNat]'(r.isLt)

/-- `x[r] <- v`: nothing for r = 0. -/
def State.setReg (s : State) (r : Reg) (v : Word) : State :=
  { s with regs := if r = 0#5 then s.regs else s.regs.set r.toNat v r.isLt }

/-! ### Completing an instruction (spec/30_encoding.md R170) -/

/-- The instruction completes and redirects the pc: `pc <- target`, no pc + 4, one more in instret. -/
def State.completeAt (s : State) (target : Word) : State :=
  { s with pc := target, instret := s.instret + 1 }

/-- The instruction completes: pc advances by 4 modulo 2^32 (spec/10_state.md R44) and instret counts it. -/
def State.complete (s : State) : State := s.completeAt (s.pc + 4#32)

/-! ### CSR file (spec/10_state.md R51 to R53) -/

/-- `CsrRead(n)`: unknown numbers read 0 (R52). -/
def CsrFile.read (c : CsrFile) (n : CsrNum) : Word :=
  match n with
  | 0x300#12 => c.mstatus
  | 0x304#12 => c.mie
  | 0x305#12 => c.mtvec
  | 0x341#12 => c.mepc
  | 0x342#12 => c.mcause
  | 0x343#12 => c.mtval
  | 0x344#12 => c.mip
  | _ => 0#32

/-- `CsrWrite(n, v)`: all 32 bits of the six storage CSRs; mip and unknown numbers ignore it (R53). -/
def CsrFile.write (c : CsrFile) (n : CsrNum) (v : Word) : CsrFile :=
  match n with
  | 0x300#12 => { c with mstatus := v }
  | 0x304#12 => { c with mie := v }
  | 0x305#12 => { c with mtvec := v }
  | 0x341#12 => { c with mepc := v }
  | 0x342#12 => { c with mcause := v }
  | 0x343#12 => { c with mtval := v }
  | _ => c

def State.setCsr (s : State) (n : CsrNum) (v : Word) : State := { s with csr := s.csr.write n v }

/-! ### Bytes of a word (spec/20_memory.md R95, R100, R125; spec/60_exceptions.md R421, R422) -/

/-- The access widths: 1, 2 and 4 bytes (spec/20_memory.md R103). -/
inductive Width where
  | byte
  | half
  | word
deriving DecidableEq, Repr

def Width.bytes : Width → Nat
  | .byte => 1
  | .half => 2
  | .word => 4

/-- `2^(8n) - 1`. -/
def byteMask (n : Nat) : Word := BitVec.ofNat 32 (2 ^ (8 * n) - 1)

/-- The `n` bytes of `w` from byte `k` up, zero-extended: `(w >> 8k) & (2^(8n) - 1)`. -/
def takeBytes (w : Word) (k n : Nat) : Word := (w >>> (8 * k)) &&& byteMask n

/-- `w` with its `n` bytes from byte `k` up replaced by the low `n` bytes of `v`:
`(w & ~(M << 8k)) | ((v & M) << 8k)` with `M = 2^(8n) - 1`. -/
def mergeBytes (w : Word) (k n : Nat) (v : Word) : Word :=
  (w &&& ~~~(byteMask n <<< (8 * k))) ||| ((v &&& byteMask n) <<< (8 * k))

/-! ### Backing memory (spec/10_state.md R64, spec/20_memory.md R91) -/

/-- What an address that memory does not list reads as: 0x00, a DESIGN CHOICE (unsafe, log 2) for the draw of
spec/70_reset_and_hazards.md R452. -/
def Memory.unlisted (_a : Nat) : Byte := 0#8

/-- The canonical form: addresses strictly rising, no entry equal to what an unlisted address reads as. -/
abbrev Memory.wf (m : Memory) : Prop :=
  m.Pairwise (fun c d => c.1 < d.1) ∧ ∀ c ∈ m, c.2 ≠ Memory.unlisted c.1

/-- `PhysRead8(a)` (R91). -/
def Memory.read : Memory → Nat → Byte
  | [], a => Memory.unlisted a
  | (k, v) :: m, a => if k = a then v else Memory.read m a

/-- Memory without an entry for `a`. -/
def Memory.remove (m : Memory) (a : Nat) : Memory := m.filter (fun c => c.1 != a)

/-- Memory with an entry put before the first larger address. -/
def Memory.insert : Memory → Nat → Byte → Memory
  | [], a, b => [(a, b)]
  | (k, v) :: m, a, b => if a < k then (a, b) :: (k, v) :: m else (k, v) :: Memory.insert m a b

/-- `PhysWrite8(a, b)` (R91), keeping the canonical form. -/
def Memory.write (m : Memory) (a : Nat) (b : Byte) : Memory :=
  if b = Memory.unlisted a then Memory.remove m a else Memory.insert (Memory.remove m a) a b

/-- `PhysWord(q)`: the little-endian word at `q` (spec/20_memory.md R124). -/
def Memory.word (m : Memory) (q : Nat) : Word :=
  wordOfBytes (Memory.read m q) (Memory.read m (q + 1)) (Memory.read m (q + 2)) (Memory.read m (q + 3))

/-- `PhysWrite8(a + k, v[8k+7:8k])` for k in 0..n-1 (spec/20_memory.md R125). -/
def Memory.writeBytes (m : Memory) (a : Nat) (v : Word) : Nat → Memory
  | 0 => m
  | n + 1 => Memory.write (Memory.writeBytes m a v n) (a + n) (byteOfWord v n)

/-- `InRAM(a, n)`, on unbounded integers (R91). -/
def inRam (cfg : Config) (a n : Nat) : Bool :=
  decide (cfg.ramBase.toNat ≤ a) && decide (a + n ≤ cfg.ramBase.toNat + cfg.ramSize)

/-! ### Trap entry and return (spec/60_exceptions.md R370, R390 to R392) -/

/-- The interrupt bit of R370's table. -/
def Cause.isInterrupt : Cause → Bool
  | .softwareInterrupt | .timerInterrupt | .externalInterrupt => true
  | .instructionMisaligned | .instructionFault | .illegalInstruction | .loadFault | .storeFault | .environmentCall => false

/-- The cause code, bits 30:0 of mcause (R370). -/
def Cause.code : Cause → Word
  | .instructionMisaligned => 0#32
  | .instructionFault => 1#32
  | .illegalInstruction => 2#32
  | .loadFault => 5#32
  | .storeFault => 7#32
  | .environmentCall => 11#32
  | .softwareInterrupt => 3#32
  | .timerInterrupt => 7#32
  | .externalInterrupt => 11#32

/-- `(isInt << 31) | code` (R390). -/
def Cause.mcause (c : Cause) : Word := (boolWord c.isInterrupt <<< 31) ||| c.code

def Cause.trapClass (c : Cause) : TrapClass := if c.isInterrupt then .interrupt else .exception

/-- The kind names of R370's table (R397; spec/92_eei_decisions.md D31). -/
def Cause.kindName : Cause → String
  | .instructionMisaligned => "instruction_misaligned"
  | .instructionFault => "instruction_fault"
  | .illegalInstruction => "illegal_instruction"
  | .loadFault => "load_fault"
  | .storeFault => "store_fault"
  | .environmentCall => "ecall"
  | .softwareInterrupt => "software"
  | .timerInterrupt => "timer"
  | .externalInterrupt => "external"

/-- `TrapTarget(isInt, code)` (R391): base, or base + 4 x code in vectored mode. -/
def trapTarget (mtvec : Word) (c : Cause) : Word :=
  let base := mtvec &&& 0xFFFFFFFC#32
  if mtvec.getLsbD 0 && (c.isInterrupt || Config.vectorExceptions) then base + 4#32 * c.code else base

/-- `TakeTrap(isInt, code, tval)` (R390): the one entry for every exception and interrupt. It ends the cycle. -/
def takeTrap (c : Cause) (tval : Word) (s : State) : State :=
  { s with
    csr := { s.csr with
      mepc := s.pc
      mcause := c.mcause
      mtval := tval
      mstatus := trapStatus s.csr.mstatus }
    pc := trapTarget s.csr.mtvec c
    traps := s.traps ++ [⟨c.trapClass, c, c.mcause, s.pc, tval⟩] }

/-- Trap-Return (R392): the enable bit restored and `pc = mepc`. -/
def trapReturn (s : State) : State :=
  { s with csr := { s.csr with mstatus := returnStatus s.csr.mstatus }, pc := s.csr.mepc }

end Sys2Proof.Machine
end

