-- ==== Sys2Proof/Machine/Caches.lean ====
section
/-! DEFINITION. The instruction and data caches: lookup, recency, victim, read and write (spec/20_memory.md R120 to R127). -/

namespace Sys2Proof.Machine

/-! ### Address decomposition (R120) -/

def wordIndex (a : Word) : BitVec 2 := a.extractLsb' 2 2
def setIndex (a : Word) : BitVec 3 := a.extractLsb' 4 3
def tagOf (a : Word) : BitVec 25 := a.extractLsb' 7 25
def blockBase (a : Word) : Word := a &&& 0xFFFFFFF0#32

/-- The base address of the block that a line with tag `t` in set `i` holds (R120, read backwards). -/
def lineBase (t : BitVec 25) (i : BitVec 3) : Word := t ++ i ++ 0#4

/-! ### Lines and sets -/

/-- The word of the line that `a` selects. -/
def CacheLine.word (l : CacheLine) (a : Word) : Word := l.block[(wordIndex a).toNat]'((wordIndex a).isLt)

/-- "a match is valid and tag equal" (spec/10_state.md R63). -/
def CacheLine.matches (l : CacheLine) (t : BitVec 25) : Bool := l.valid && l.tag == t

def CacheSet.line (set : CacheSet) : Way → CacheLine
  | .way0 => set.line0
  | .way1 => set.line1

def CacheSet.setLine (set : CacheSet) (w : Way) (l : CacheLine) : CacheSet :=
  match w with
  | .way0 => { set with line0 := l }
  | .way1 => { set with line1 := l }

/-- The way that hits, if one does (R121). -/
def CacheSet.hitWay (set : CacheSet) (t : BitVec 25) : Option Way :=
  if set.line0.matches t then some .way0
  else if set.line1.matches t then some .way1
  else none

/-- `Touch(s, w)`: way w youngest, every other way one older (R122). -/
def CacheSet.touch (set : CacheSet) (w : Way) : CacheSet :=
  match w with
  | .way0 => ⟨{ set.line0 with recency := 0 }, { set.line1 with recency := set.line1.recency + 1 }⟩
  | .way1 => ⟨{ set.line0 with recency := set.line0.recency + 1 }, { set.line1 with recency := 0 }⟩

/-- `Victim(s)`: the lowest-numbered invalid way, else the larger recency, the lowest-numbered on a tie (R123). -/
def CacheSet.victim (set : CacheSet) : Way :=
  if !set.line0.valid then .way0
  else if !set.line1.valid then .way1
  else if set.line0.recency < set.line1.recency then .way1
  else .way0

/-! ### A cache -/

/-- The set that `a` selects. -/
def Cache.setOf (c : Cache) (a : Word) : CacheSet := c.sets[(setIndex a).toNat]'((setIndex a).isLt)

/-- The cache with the set that `a` selects replaced. -/
def Cache.putSet (c : Cache) (a : Word) (set : CacheSet) : Cache :=
  { c with sets := c.sets.set (setIndex a).toNat set (setIndex a).isLt }

/-- One more hit (spec/20_memory.md R127). -/
def Cache.countHit (c : Cache) : Cache := { c with hits := c.hits + 1 }

/-- One more miss (spec/20_memory.md R127). -/
def Cache.countMiss (c : Cache) : Cache := { c with misses := c.misses + 1 }

/-- The line that a read miss of `a` fills from memory (R124). -/
def filledLine (mem : Memory) (a : Word) : CacheLine where
  valid := true
  tag := tagOf a
  block := #v[Memory.word mem (blockBase a).toNat, Memory.word mem ((blockBase a).toNat + 4),
    Memory.word mem ((blockBase a).toNat + 8), Memory.word mem ((blockBase a).toNat + 12)]
  recency := 0

/-- `Cache.read(a)` (R124): the word containing `a`, and the cache after. -/
def Cache.read (c : Cache) (mem : Memory) (a : Word) : Word × Cache :=
  match (c.setOf a).hitWay (tagOf a) with
  | some w =>
    (((c.setOf a).line w).word a, (c.putSet a ((c.setOf a).touch w)).countHit)
  | none =>
    ((filledLine mem a).word a,
      (c.putSet a
        (((c.setOf a).setLine (c.setOf a).victim (filledLine mem a)).touch (c.setOf a).victim)).countMiss)

/-- A line with the `n` bytes from `a` up, inside the word that `a` selects, replaced by those of `v` (R125). -/
def CacheLine.storeBytes (l : CacheLine) (a : Word) (n : Nat) (v : Word) : CacheLine :=
  let merged := mergeBytes (l.word a) (a.extractLsb' 0 2).toNat n v
  { l with block := l.block.set (wordIndex a).toNat merged (wordIndex a).isLt }

/-- The cache side of `Cache.write(a, v, n)` (R125): a hit updates and touches the line, a miss only counts. -/
def Cache.write (c : Cache) (a : Word) (n : Nat) (v : Word) : Cache :=
  match (c.setOf a).hitWay (tagOf a) with
  | some w =>
    (c.putSet a (((c.setOf a).setLine w (((c.setOf a).line w).storeBytes a n v)).touch w)).countHit
  | none => c.countMiss

/-- A cache whose line for `a`, if it holds one, has the word at `a` replaced: no counter and no recency changes. For
placing a word from outside the machine (log 10). -/
def Cache.patchWord (c : Cache) (a : Word) (v : Word) : Cache :=
  match (c.setOf a).hitWay (tagOf a) with
  | some w => c.putSet a ((c.setOf a).setLine w (((c.setOf a).line w).storeBytes a 4 v))
  | none => c

end Sys2Proof.Machine
end

