-- ==== Sys2Proof/Machine/Devices.lean ====
section
/-! DEFINITION. The memory-mapped devices: CLINT, PLIC and UART registers, their reads and writes, mip from their latches (spec/60_exceptions.md R380, R381, R420 to R433), and the configuration constraints (spec/00_scope.md R13). -/

namespace Sys2Proof.Machine

/-- The device registers of R420. -/
inductive DevReg where
  | msip
  | mtimecmpLo
  | mtimecmpHi
  | mtimeLo
  | mtimeHi
  | pending
  | enable
  | threshold
  | claim
  | uartThr
deriving DecidableEq, Repr

def DevReg.all : List DevReg :=
  [.msip, .mtimecmpLo, .mtimecmpHi, .mtimeLo, .mtimeHi, .pending, .enable, .threshold, .claim, .uartThr]

/-- A register's address, base + offset modulo 2^32 (R420; log 7). -/
def DevReg.address (cfg : Config) : DevReg → Word
  | .msip => cfg.clintBase
  | .mtimecmpLo => cfg.clintBase + 0x4000#32
  | .mtimecmpHi => cfg.clintBase + 0x4004#32
  | .mtimeLo => cfg.clintBase + 0xBFF8#32
  | .mtimeHi => cfg.clintBase + 0xBFFC#32
  | .pending => cfg.plicBase + 0x1000#32
  | .enable => cfg.plicBase + 0x2000#32
  | .threshold => cfg.plicBase + 0x200000#32
  | .claim => cfg.plicBase + 0x200004#32
  | .uartThr => cfg.uartBase

/-- How many bytes a register covers (R420). -/
def DevReg.size : DevReg → Nat
  | .uartThr => 1
  | .msip | .mtimecmpLo | .mtimecmpHi | .mtimeLo | .mtimeHi | .pending | .enable | .threshold | .claim => 4

/-- The byte offset of `addr` from the register, modulo 2^32. -/
def DevReg.offset (cfg : Config) (addr : Word) (r : DevReg) : Nat := (addr - r.address cfg).toNat

/-- The register whose bytes `addr` lies in; `IsDevice(addr)` is that there is one (R421). -/
def devAt (cfg : Config) (addr : Word) : Option DevReg :=
  DevReg.all.find? (fun r => decide (r.offset cfg addr < r.size))

/-! ### Configuration constraints (spec/00_scope.md R13) -/

/-- The ranges [a, a + m) and [b, b + n) of the 32-bit address circle share no address. -/
def disjointRanges (a : Word) (m : Nat) (b : Word) (n : Nat) : Bool :=
  decide (m ≤ (b - a).toNat) && decide (n ≤ (a - b).toNat)

/-- The constraints of R13. -/
def configValid (cfg : Config) : Bool :=
  decide (cfg.ramBase.toNat % 16 = 0) && decide (cfg.ramSize % 16 = 0) && decide (0 < cfg.ramSize)
    && decide (cfg.ramBase.toNat + cfg.ramSize ≤ 2 ^ 32)
    && DevReg.all.all (fun r => disjointRanges cfg.ramBase cfg.ramSize (r.address cfg) r.size)
    && decide (DevReg.all.Pairwise (fun r q => disjointRanges (r.address cfg) r.size (q.address cfg) q.size = true))

/-! ### Register values -/

/-- The source id a CLAIM load returns: the lowest i in 1..31 pending and enabled (R428). -/
def claimSource (pending enable : Word) : Option Nat :=
  (List.range' 1 31).find? (fun i => pending.getLsbD i && enable.getLsbD i)

/-- A register's 32-bit read value (R421, R423 to R429, R433). -/
def DevState.value (d : DevState) : DevReg → Word
  | .msip => d.msip
  | .mtimecmpLo => d.mtimecmp.extractLsb' 0 32
  | .mtimecmpHi => d.mtimecmp.extractLsb' 32 32
  | .mtimeLo => d.mtime.extractLsb' 0 32
  | .mtimeHi => d.mtime.extractLsb' 32 32
  | .pending => d.plicPending
  | .enable => d.plicEnable
  | .threshold => d.plicThreshold
  | .claim => BitVec.ofNat 32 ((claimSource d.plicPending d.plicEnable).getD 0)
  | .uartThr => 0#32

/-- `DevWrite(addr, n, v)` at byte offset k of a register (R422): the bytes are merged into the register's value. CLAIM
ignores the write (R430); the UART appends v[7:0] and sets PENDING[UART_IRQ] whatever the width (R433). -/
def DevState.write (d : DevState) (cfg : Config) (r : DevReg) (k n : Nat) (v : Word) : DevState :=
  match r with
  | .msip => { d with msip := mergeBytes d.msip k n v }
  | .mtimecmpLo =>
    { d with mtimecmp := d.mtimecmp.extractLsb' 32 32 ++ mergeBytes (d.mtimecmp.extractLsb' 0 32) k n v }
  | .mtimecmpHi =>
    { d with mtimecmp := mergeBytes (d.mtimecmp.extractLsb' 32 32) k n v ++ d.mtimecmp.extractLsb' 0 32 }
  | .mtimeLo => { d with mtime := d.mtime.extractLsb' 32 32 ++ mergeBytes (d.mtime.extractLsb' 0 32) k n v }
  | .mtimeHi => { d with mtime := mergeBytes (d.mtime.extractLsb' 32 32) k n v ++ d.mtime.extractLsb' 0 32 }
  | .pending => { d with plicPending := mergeBytes d.plicPending k n v }
  | .enable => { d with plicEnable := mergeBytes d.plicEnable k n v }
  | .threshold => { d with plicThreshold := mergeBytes d.plicThreshold k n v }
  | .claim => d
  | .uartThr =>
    { d with
      uartOut := d.uartOut ++ [byteOfWord v 0]
      plicPending := setBit d.plicPending cfg.uartIrq.toNat true }

/-- The side effect of a load: CLAIM clears the claimed pending bit, every other register keeps its state (R421, R428). -/
def DevState.afterRead (d : DevState) (r : DevReg) : DevState :=
  match r with
  | .claim =>
    match claimSource d.plicPending d.plicEnable with
    | some i => { d with plicPending := setBit d.plicPending i false }
    | none => d
  | .msip | .mtimecmpLo | .mtimecmpHi | .mtimeLo | .mtimeHi | .pending | .enable | .threshold | .uartThr => d

/-! ### The cycle's device steps -/

/-- `dev.mtime <- (dev.mtime + delta) mod 2^64` (R380). -/
def DevState.advanceTimer (d : DevState) (delta : Nat) : DevState :=
  { d with mtime := d.mtime + BitVec.ofNat 64 delta }

/-- `ComputeMip()` (R381). -/
def computeMip (d : DevState) : Word :=
  mipWord (d.plicPending &&& d.plicEnable &&& 0xFFFFFFFE#32 != 0#32) (decide (d.mtimecmp.toNat ≤ d.mtime.toNat))
    (d.msip != 0#32)

end Sys2Proof.Machine
end

