-- ==== Sys2Proof/Machine/Access.lean ====
section
/-! DEFINITION. The three access paths: load, store and fetch (spec/20_memory.md R98 to R102). -/

namespace Sys2Proof.Machine

/-- How a load or store ends: refused as misaligned (R99), faulted (R93), or done with a value and the state after. -/
inductive Access (α : Type) where
  | misaligned
  | fault
  | done (value : α) (s : State)

/-- An access at the byte offset of `addr` inside its word. -/
def byteLane (addr : Word) : Nat := (addr.extractLsb' 0 2).toNat

/-- `MemRead(addr, n)` (R100): misaligned, then device, then RAM through the D-cache, then fault. -/
def memRead (addr : Word) (n : Width) (s : State) : Access Word :=
  if addr.toNat % n.bytes ≠ 0 then .misaligned
  else
    match devAt s.cfg addr with
    | some r =>
      .done (takeBytes (s.dev.value r) (r.offset s.cfg addr) n.bytes) { s with dev := s.dev.afterRead r }
    | none =>
      if inRam s.cfg addr.toNat n.bytes then
        .done (takeBytes (s.dcache.read s.mem addr).1 (byteLane addr) n.bytes)
          { s with dcache := (s.dcache.read s.mem addr).2 }
      else .fault

/-- `MemWrite(addr, n, v)` (R101): misaligned, then device, then RAM through the D-cache (write-through), then fault. -/
def memWrite (addr : Word) (n : Width) (v : Word) (s : State) : Access Unit :=
  if addr.toNat % n.bytes ≠ 0 then .misaligned
  else
    match devAt s.cfg addr with
    | some r => .done () { s with dev := s.dev.write s.cfg r (r.offset s.cfg addr) n.bytes v }
    | none =>
      if inRam s.cfg addr.toNat n.bytes then
        .done () { s with
          dcache := s.dcache.write addr n.bytes v
          mem := Memory.writeBytes s.mem addr.toNat v n.bytes }
      else .fault

/-- `Fetch(pc)` (R102): the misaligned check, then the range check, then the I-cache. An error is the exception raised. -/
def fetch (s : State) : Except Cause (Word × State) :=
  if s.pc.extractLsb' 0 2 ≠ 0#2 then .error .instructionMisaligned
  else if inRam s.cfg s.pc.toNat 4 then
    .ok ((s.icache.read s.mem s.pc).1, { s with icache := (s.icache.read s.mem s.pc).2 })
  else .error .instructionFault

end Sys2Proof.Machine
end

