-- ==== Sys2Proof/Machine/Cycle.lean ====
section
/-! DEFINITION. The cycle around the execute stage (spec/30_encoding.md R170 to R174): timer, mip, interrupt check, fetch, decode; and how memory is loaded from outside (spec/70_reset_and_hazards.md R450, R452). -/

namespace Sys2Proof.Machine

/-- The cycle up to the interrupt check: mtime advances by the cycle's draw (spec/60_exceptions.md R380; log 3) and mip is
recomputed (R381). -/
def beginCycle (s : State) : State :=
  let dev := s.dev.advanceTimer (Config.timerDraw s.draws)
  { s with dev := dev, csr := { s.csr with mip := computeMip dev }, draws := s.draws + 1 }

/-- `mstatus[3] = 1 and (mip & mie) != 0` (spec/60_exceptions.md R383). -/
def interruptPending (c : CsrFile) : Bool := statusMie c.mstatus && (c.mip &&& c.mie) != 0#32

/-- The interrupt of highest priority in `p = mip & mie`: external, timer, software (spec/60_exceptions.md R384). -/
def selectInterrupt (p : Word) : Cause :=
  if p.getLsbD 11 then .externalInterrupt
  else if p.getLsbD 7 then .timerInterrupt
  else .softwareInterrupt

/-- `TakeInterrupt()` (spec/60_exceptions.md R384). -/
def takeInterrupt (s : State) : State := takeTrap (selectInterrupt (s.csr.mip &&& s.csr.mie)) 0#32 s

/-- What the cycle does before the execute stage: no step (halted), a refusal, a trap that ends the cycle, or an instruction
to execute in the state that fetching it left. -/
inductive FrontOutcome where
  | halted
  | refused (r : RefuseReason)
  | trapped (s : State)
  | execute (i : Instr) (s : State)

/-- Fetch and decode (R171, R172): the exceptions of both stages are taken here, with mepc = pc. -/
def fetchDecode (s : State) : FrontOutcome :=
  match fetch s with
  | .error c => .trapped (takeTrap c s.pc s)
  | .ok (w, t) =>
    match decodeWord w with
    | .error _ => .trapped (takeTrap .illegalInstruction w t)
    | .ok i => .execute i t

/-- The cycle from the interrupt check on (R170, R174). -/
def checkAndFetch (s : State) : FrontOutcome :=
  if interruptPending s.csr then .trapped (takeInterrupt s) else fetchDecode s

/-- The cycle before the execute stage (R170). A halted or refused state takes no step, and neither does a configuration
that breaks spec/00_scope.md R13 (log 8). -/
def frontEnd (s : State) : FrontOutcome :=
  if s.run = false then .halted
  else
    match s.refused with
    | some r => .refused r
    | none => if configValid s.cfg then checkAndFetch (beginCycle s) else .refused .badConfiguration

/-- The Refusal that stands for a refusal reason. -/
def RefuseReason.toRefusal : RefuseReason → Refusal
  | .misalignedData => .misalignedData
  | .badConfiguration => .badConfiguration

/-! ### Loading memory from outside (spec/70_reset_and_hazards.md R450, R452; log 10) -/

/-- Bytes written into memory from outside, past both caches; a later one for the same address wins. -/
def loadBytes (cells : List Host.Cell) (mem : Memory) : Memory :=
  cells.foldl (fun m c => Memory.write m c.1 c.2) mem

/-- RAM before the first cycle (R452): the image over `draw`, which is what RAM holds where the image says nothing. -/
def initialMemory (cfg : Config) (draw image : List Host.Cell) : Memory :=
  loadBytes image (loadBytes (draw.filter (fun c => inRam cfg c.1 1)) [])

/-- The state a run starts from (R450): the configuration (spec/00_scope.md R13) and the image are checked, a violation
refuses the run, and every element takes its reset value. -/
def powerOn (cfg : Config) (draw image : List Host.Cell) : State :=
  if configValid cfg && image.all (fun c => inRam cfg c.1 1) then
    State.resetWith cfg (initialMemory cfg draw image)
  else { State.resetWith cfg [] with refused := some .badConfiguration }

/-- `w` placed at the pc: in memory, and in the I-cache's line for it if there is one, so that the next fetch reads it. -/
def placeAtPc (s : State) (w : Word) : State :=
  { s with mem := Memory.writeBytes s.mem s.pc.toNat w 4, icache := s.icache.patchWord s.pc w }

end Sys2Proof.Machine
end

