-- ==== Sys2Proof/Machine/Operands.lean ====
section
/-! DEFINITION. Every operand form: the immediates extended to 32 bits (spec/30_encoding.md R154 to R159), effective addresses and targets, and the instruction shapes that the families share. -/

namespace Sys2Proof.Machine

/-! ### Immediates -/

/-- immI and immS: `sext_12` (R154, R155). -/
def sext12 (imm : BitVec 12) : Word := imm.signExtend 32

/-- immIu, SLTIU's compare immediate: `zext_12` (R159). -/
def zext12 (imm : BitVec 12) : Word := imm.zeroExtend 32

/-- immB: `sext_13` (R156). -/
def sext13 (imm : BitVec 13) : Word := imm.signExtend 32

/-- immJ: `sext_21` (R158). -/
def sext21 (imm : BitVec 21) : Word := imm.signExtend 32

/-- immU: {w[31:12], 0x000} (R157). -/
def upperImm (imm : BitVec 20) : Word := imm ++ 0#12

/-- uimm: `zext_5` (R159). -/
def zext5 (u : BitVec 5) : Word := u.zeroExtend 32

/-- LB's extension: `sext_8` of bits 7:0 (spec/42_loadstore.md R264). -/
def sext8 (w : Word) : Word := (w.extractLsb' 0 8).signExtend 32

/-- LH's extension: `sext_16` of bits 15:0 (spec/42_loadstore.md R264). -/
def sext16 (w : Word) : Word := (w.extractLsb' 0 16).signExtend 32

/-- The shift amount of a register shift: x[rs2][4:0] (spec/40_alu.md R221). -/
def shiftAmount (v : Word) : BitVec 5 := v.extractLsb' 0 5

/-! ### Addresses and targets -/

/-- `ea = x[rs1] + imm`, modulo 2^32 (spec/42_loadstore.md R260). -/
def effectiveAddress (s : State) (rs1 : Reg) (imm : BitVec 12) : Word := s.reg rs1 + sext12 imm

/-- `pc + immB`, modulo 2^32 (spec/43_branch.md R290). -/
def branchTarget (s : State) (imm : BitVec 13) : Word := s.pc + sext13 imm

/-- `pc + immJ` (spec/44_jump.md R311). -/
def jalTarget (s : State) (imm : BitVec 21) : Word := s.pc + sext21 imm

/-- `(x[rs1] + immI) & 0xFFFFFFFE` (spec/44_jump.md R312). -/
def jalrTarget (s : State) (rs1 : Reg) (imm : BitVec 12) : Word := (s.reg rs1 + sext12 imm) &&& 0xFFFFFFFE#32

/-- The link address, pc + 4 modulo 2^32 (spec/44_jump.md R310). -/
def linkAddress (s : State) : Word := s.pc + 4#32

/-! ### Instruction shapes -/

/-- `x[rd] <- v` and completion; `v` was computed from the state before (spec/30_encoding.md R173). -/
def writeResult (rd : Reg) (v : Word) (s : State) : Result := .next (s.setReg rd v).complete

/-- A register-register operation. -/
def regOp (f : Word → Word → Word) (rd rs1 rs2 : Reg) (s : State) : Result :=
  writeResult rd (f (s.reg rs1) (s.reg rs2)) s

/-- A register-immediate operation on an immediate already extended. -/
def immOp (f : Word → Word → Word) (rd rs1 : Reg) (imm : Word) (s : State) : Result :=
  writeResult rd (f (s.reg rs1) imm) s

/-- A load: refused, LoadFault(ea), or `x[rd] <- ext(value)` (spec/42_loadstore.md R261, R262). -/
def loadOp (n : Width) (ext : Word → Word) (rd rs1 : Reg) (imm : BitVec 12) (s : State) : Result :=
  match memRead (effectiveAddress s rs1 imm) n s with
  | .misaligned => .refused .misalignedData
  | .fault => .next (takeTrap .loadFault (effectiveAddress s rs1 imm) s)
  | .done v t => writeResult rd (ext v) t

/-- A store: refused, StoreFault(ea), or done (spec/42_loadstore.md R263). -/
def storeOp (n : Width) (rs1 rs2 : Reg) (imm : BitVec 12) (s : State) : Result :=
  match memWrite (effectiveAddress s rs1 imm) n (s.reg rs2) s with
  | .misaligned => .refused .misalignedData
  | .fault => .next (takeTrap .storeFault (effectiveAddress s rs1 imm) s)
  | .done _ t => .next t.complete

/-- A branch: taken goes to the target, not taken goes on (spec/43_branch.md R290). -/
def branchOp (cond : Word → Word → Bool) (rs1 rs2 : Reg) (imm : BitVec 13) (s : State) : Result :=
  if cond (s.reg rs1) (s.reg rs2) then .next (s.completeAt (branchTarget s imm)) else .next s.complete

/-- A jump: the link written, then the pc redirected (spec/44_jump.md R310). -/
def jumpOp (rd : Reg) (target : Word) (s : State) : Result :=
  .next ((s.setReg rd (linkAddress s)).completeAt target)

/-- A CSR read-modify-write: `old <- CsrRead(csr); CsrWrite(csr, f old src); x[rd] <- old` (spec/46_system.md R334). -/
def csrOp (f : Word → Word → Word) (rd : Reg) (src : Word) (csr : CsrNum) (s : State) : Result :=
  writeResult rd (s.csr.read csr) (s.setCsr csr (f (s.csr.read csr) src))

end Sys2Proof.Machine
end

