-- ==== Sys2Proof/Machine/Alu.lean ====
section
/-! DEFINITION. The integer ALU and shift unit (spec/40_alu.md R200 to R221). -/

namespace Sys2Proof.Machine

/-! ### The operations (R220, R221) -/

/-- Signed less-than as a register value (R201, R213). -/
def lessSigned (a b : Word) : Word := boolWord (decide (a.toInt < b.toInt))

/-- Unsigned less-than as a register value (R202, R214). -/
def lessUnsigned (a b : Word) : Word := boolWord (decide (a.toNat < b.toNat))

/-- `(a << n) mod 2^32` (R206, R212). -/
def shiftLeft (a : Word) (n : BitVec 5) : Word := a <<< n.toNat

/-- `a >>u n`, filling with 0 (R207, R216). -/
def shiftRightLogical (a : Word) (n : BitVec 5) : Word := a >>> n.toNat

/-- `a >>s n`, filling with bit 31 (R208, R217). -/
def shiftRightArith (a : Word) (n : BitVec 5) : Word := a.sshiftRight n.toNat

/-! ### Register-immediate -/

/-- ADDI (R200). -/
def execAddi (rd rs1 : Reg) (imm : BitVec 12) (s : State) : Result :=
  immOp (fun a b => a + b) rd rs1 (sext12 imm) s

/-- SLTI (R201). -/
def execSlti (rd rs1 : Reg) (imm : BitVec 12) (s : State) : Result :=
  immOp lessSigned rd rs1 (sext12 imm) s

/-- SLTIU (R202): the immediate is zero-extended (R159, spec/90_conflicts.md C4). -/
def execSltiu (rd rs1 : Reg) (imm : BitVec 12) (s : State) : Result :=
  immOp lessUnsigned rd rs1 (zext12 imm) s

/-- XORI (R203). -/
def execXori (rd rs1 : Reg) (imm : BitVec 12) (s : State) : Result :=
  immOp (fun a b => a ^^^ b) rd rs1 (sext12 imm) s

/-- ORI (R204). -/
def execOri (rd rs1 : Reg) (imm : BitVec 12) (s : State) : Result :=
  immOp (fun a b => a ||| b) rd rs1 (sext12 imm) s

/-- ANDI (R205). -/
def execAndi (rd rs1 : Reg) (imm : BitVec 12) (s : State) : Result :=
  immOp (fun a b => a &&& b) rd rs1 (sext12 imm) s

/-- SLLI (R206). -/
def execSlli (rd rs1 : Reg) (shamt : BitVec 5) (s : State) : Result :=
  writeResult rd (shiftLeft (s.reg rs1) shamt) s

/-- SRLI (R207). -/
def execSrli (rd rs1 : Reg) (shamt : BitVec 5) (s : State) : Result :=
  writeResult rd (shiftRightLogical (s.reg rs1) shamt) s

/-- SRAI (R208). -/
def execSrai (rd rs1 : Reg) (shamt : BitVec 5) (s : State) : Result :=
  writeResult rd (shiftRightArith (s.reg rs1) shamt) s

/-! ### Register-register -/

/-- ADD (R210). -/
def execAdd (rd rs1 rs2 : Reg) (s : State) : Result := regOp (fun a b => a + b) rd rs1 rs2 s

/-- SUB (R211). -/
def execSub (rd rs1 rs2 : Reg) (s : State) : Result := regOp (fun a b => a - b) rd rs1 rs2 s

/-- SLL (R212). -/
def execSll (rd rs1 rs2 : Reg) (s : State) : Result := regOp (fun a b => shiftLeft a (shiftAmount b)) rd rs1 rs2 s

/-- SLT (R213). -/
def execSlt (rd rs1 rs2 : Reg) (s : State) : Result := regOp lessSigned rd rs1 rs2 s

/-- SLTU (R214). -/
def execSltu (rd rs1 rs2 : Reg) (s : State) : Result := regOp lessUnsigned rd rs1 rs2 s

/-- XOR (R215). -/
def execXor (rd rs1 rs2 : Reg) (s : State) : Result := regOp (fun a b => a ^^^ b) rd rs1 rs2 s

/-- SRL (R216). -/
def execSrl (rd rs1 rs2 : Reg) (s : State) : Result :=
  regOp (fun a b => shiftRightLogical a (shiftAmount b)) rd rs1 rs2 s

/-- SRA (R217). -/
def execSra (rd rs1 rs2 : Reg) (s : State) : Result :=
  regOp (fun a b => shiftRightArith a (shiftAmount b)) rd rs1 rs2 s

/-- OR (R218). -/
def execOr (rd rs1 rs2 : Reg) (s : State) : Result := regOp (fun a b => a ||| b) rd rs1 rs2 s

/-- AND (R219). -/
def execAnd (rd rs1 rs2 : Reg) (s : State) : Result := regOp (fun a b => a &&& b) rd rs1 rs2 s

end Sys2Proof.Machine
end

