-- ==== Sys2Proof/Machine/Branch.lean ====
section
/-! DEFINITION. Conditional branches (spec/43_branch.md R290 to R299). -/

namespace Sys2Proof.Machine

/-- BEQ (R293). -/
def execBeq (rs1 rs2 : Reg) (imm : BitVec 13) (s : State) : Result :=
  branchOp (fun a b => decide (a = b)) rs1 rs2 imm s

/-- BNE (R294). -/
def execBne (rs1 rs2 : Reg) (imm : BitVec 13) (s : State) : Result :=
  branchOp (fun a b => decide (a ≠ b)) rs1 rs2 imm s

/-- BLT (R295). -/
def execBlt (rs1 rs2 : Reg) (imm : BitVec 13) (s : State) : Result :=
  branchOp (fun a b => decide (a.toInt < b.toInt)) rs1 rs2 imm s

/-- BGE (R296). -/
def execBge (rs1 rs2 : Reg) (imm : BitVec 13) (s : State) : Result :=
  branchOp (fun a b => decide (b.toInt ≤ a.toInt)) rs1 rs2 imm s

/-- BLTU (R297). -/
def execBltu (rs1 rs2 : Reg) (imm : BitVec 13) (s : State) : Result :=
  branchOp (fun a b => decide (a.toNat < b.toNat)) rs1 rs2 imm s

/-- BGEU (R298). -/
def execBgeu (rs1 rs2 : Reg) (imm : BitVec 13) (s : State) : Result :=
  branchOp (fun a b => decide (b.toNat ≤ a.toNat)) rs1 rs2 imm s

end Sys2Proof.Machine
end

