-- ==== Sys2Proof/Machine/Jump.lean ====
section
/-! DEFINITION. Unconditional jumps (spec/44_jump.md R310 to R313). -/

namespace Sys2Proof.Machine

/-- JAL (R311). -/
def execJal (rd : Reg) (imm : BitVec 21) (s : State) : Result := jumpOp rd (jalTarget s imm) s

/-- JALR (R312): the target comes from the old x[rs1], so rd may be rs1. -/
def execJalr (rd rs1 : Reg) (imm : BitVec 12) (s : State) : Result := jumpOp rd (jalrTarget s rs1 imm) s

end Sys2Proof.Machine
end

