-- ==== Sys2Proof/Machine/LoadStore.lean ====
section
/-! DEFINITION. Loads and stores (spec/42_loadstore.md R260 to R274). -/

namespace Sys2Proof.Machine

/-- LB (R265). -/
def execLb (rd rs1 : Reg) (imm : BitVec 12) (s : State) : Result := loadOp .byte sext8 rd rs1 imm s

/-- LH (R266). -/
def execLh (rd rs1 : Reg) (imm : BitVec 12) (s : State) : Result := loadOp .half sext16 rd rs1 imm s

/-- LW (R267). -/
def execLw (rd rs1 : Reg) (imm : BitVec 12) (s : State) : Result := loadOp .word (fun w => w) rd rs1 imm s

/-- LBU (R268): `MemRead` has already zero-extended (R264). -/
def execLbu (rd rs1 : Reg) (imm : BitVec 12) (s : State) : Result := loadOp .byte (fun w => w) rd rs1 imm s

/-- LHU (R269). -/
def execLhu (rd rs1 : Reg) (imm : BitVec 12) (s : State) : Result := loadOp .half (fun w => w) rd rs1 imm s

/-- SB (R270). -/
def execSb (rs1 rs2 : Reg) (imm : BitVec 12) (s : State) : Result := storeOp .byte rs1 rs2 imm s

/-- SH (R271). -/
def execSh (rs1 rs2 : Reg) (imm : BitVec 12) (s : State) : Result := storeOp .half rs1 rs2 imm s

/-- SW (R272). -/
def execSw (rs1 rs2 : Reg) (imm : BitVec 12) (s : State) : Result := storeOp .word rs1 rs2 imm s

end Sys2Proof.Machine
end

