-- ==== Sys2Proof/Machine/MulDiv.lean ====
section
/-! DEFINITION. Multiply, divide and remainder (spec/41_muldiv.md R240 to R251). -/

namespace Sys2Proof.Machine

/-- The low word of an exact product (R240). -/
def productLow (p : Int) : Word := BitVec.ofInt 32 p

/-- Bits 63:32 of an exact product modulo 2^64: an arithmetic shift by 32, modulo 2^32 (R240, R244). -/
def productHigh (p : Int) : Word := BitVec.ofInt 32 (p >>> 32)

/-- Signed division, rounded toward zero: all ones by zero, the least value for the least value by -1 (R241, R242, R247). -/
def divideSigned (a b : Word) : Word :=
  if b = 0#32 then 0xFFFFFFFF#32
  else if a = 0x80000000#32 ∧ b = 0xFFFFFFFF#32 then 0x80000000#32
  else BitVec.ofInt 32 (Int.tdiv a.toInt b.toInt)

/-- Unsigned division: all ones by zero (R241, R248). -/
def divideUnsigned (a b : Word) : Word :=
  if b = 0#32 then 0xFFFFFFFF#32 else BitVec.ofNat 32 (a.toNat / b.toNat)

/-- Signed remainder: the dividend by zero, 0 for the least value by -1 (R241, R249; spec/92_eei_decisions.md D4). -/
def remainderSigned (a b : Word) : Word :=
  if b = 0#32 then a
  else if a = 0x80000000#32 ∧ b = 0xFFFFFFFF#32 then 0#32
  else BitVec.ofInt 32 (a.toInt - Int.tdiv a.toInt b.toInt * b.toInt)

/-- Unsigned remainder: the dividend by zero (R241, R250). -/
def remainderUnsigned (a b : Word) : Word :=
  if b = 0#32 then a else BitVec.ofNat 32 (a.toNat % b.toNat)

/-- MUL (R243). -/
def execMul (rd rs1 rs2 : Reg) (s : State) : Result :=
  regOp (fun a b => productLow ((a.toNat : Int) * b.toNat)) rd rs1 rs2 s

/-- MULH (R244): signed by signed. -/
def execMulh (rd rs1 rs2 : Reg) (s : State) : Result :=
  regOp (fun a b => productHigh (a.toInt * b.toInt)) rd rs1 rs2 s

/-- MULHSU (R245): signed x[rs1] by unsigned x[rs2]. -/
def execMulhsu (rd rs1 rs2 : Reg) (s : State) : Result :=
  regOp (fun a b => productHigh (a.toInt * (b.toNat : Int))) rd rs1 rs2 s

/-- MULHU (R246): unsigned by unsigned. -/
def execMulhu (rd rs1 rs2 : Reg) (s : State) : Result :=
  regOp (fun a b => productHigh ((a.toNat : Int) * b.toNat)) rd rs1 rs2 s

/-- DIV (R247). -/
def execDiv (rd rs1 rs2 : Reg) (s : State) : Result := regOp divideSigned rd rs1 rs2 s

/-- DIVU (R248). -/
def execDivu (rd rs1 rs2 : Reg) (s : State) : Result := regOp divideUnsigned rd rs1 rs2 s

/-- REM (R249). -/
def execRem (rd rs1 rs2 : Reg) (s : State) : Result := regOp remainderSigned rd rs1 rs2 s

/-- REMU (R250). -/
def execRemu (rd rs1 rs2 : Reg) (s : State) : Result := regOp remainderUnsigned rd rs1 rs2 s

end Sys2Proof.Machine
end

