-- ==== Sys2Proof/Machine/System.lean ====
section
/-! DEFINITION. System instructions and CSR access (spec/46_system.md R330 to R341). -/

namespace Sys2Proof.Machine

/-- ECALL (R330): always `raise EnvironmentCall(0)`; it does not count in instret. -/
def execEcall (s : State) : Result := .next (takeTrap .environmentCall 0#32 s)

/-- EBREAK (R331): `run <- false`, the pc stays, nothing else changes but instret, which counts it. -/
def execEbreak (s : State) : Result := .next { s with run := false, instret := s.instret + 1 }

/-- MRET (R332): Trap-Return; it counts in instret. -/
def execMret (s : State) : Result := .next { trapReturn s with instret := s.instret + 1 }

/-- CSRRW (R335). -/
def execCsrrw (rd rs1 : Reg) (csr : CsrNum) (s : State) : Result := csrOp (fun _ v => v) rd (s.reg rs1) csr s

/-- CSRRS (R336). -/
def execCsrrs (rd rs1 : Reg) (csr : CsrNum) (s : State) : Result := csrOp (fun old v => old ||| v) rd (s.reg rs1) csr s

/-- CSRRC (R337). -/
def execCsrrc (rd rs1 : Reg) (csr : CsrNum) (s : State) : Result := csrOp (fun old v => old &&& ~~~v) rd (s.reg rs1) csr s

/-- CSRRWI (R338). -/
def execCsrrwi (rd : Reg) (uimm : BitVec 5) (csr : CsrNum) (s : State) : Result :=
  csrOp (fun _ v => v) rd (zext5 uimm) csr s

/-- CSRRSI (R339). -/
def execCsrrsi (rd : Reg) (uimm : BitVec 5) (csr : CsrNum) (s : State) : Result :=
  csrOp (fun old v => old ||| v) rd (zext5 uimm) csr s

/-- CSRRCI (R340). -/
def execCsrrci (rd : Reg) (uimm : BitVec 5) (csr : CsrNum) (s : State) : Result :=
  csrOp (fun old v => old &&& ~~~v) rd (zext5 uimm) csr s

end Sys2Proof.Machine
end

