-- ==== Sys2Proof/Machine/UpperImm.lean ====
section
/-! DEFINITION. Upper-immediate instructions (spec/45_upper_imm.md R320, R321). -/

namespace Sys2Proof.Machine

/-- LUI (R320). -/
def execLui (rd : Reg) (imm : BitVec 20) (s : State) : Result := writeResult rd (upperImm imm) s

/-- AUIPC (R321): pc is the instruction's own address. -/
def execAuipc (rd : Reg) (imm : BitVec 20) (s : State) : Result := writeResult rd (s.pc + upperImm imm) s

end Sys2Proof.Machine
end

