-- ==== Sys2Proof/Machine/Step.lean ====
section
/-! DEFINITION. One step is one cycle (spec/30_encoding.md R170). -/

namespace Sys2Proof.Machine

/-- `Step` (R170): the cycle's front, then the execute stage of the instruction it decoded. -/
def step (s : State) : Host.Outcome State Fault Refusal :=
  match frontEnd s with
  | .halted => .fault .halted
  | .refused r => .refused r.toRefusal
  | .trapped t => .next t
  | .execute i t => exec i t

/-- `s` with the instruction word `w` (its low `nbits` bits, zeros above) placed where the next fetch reads (log 10). -/
def State.withFetchWord (s : State) (nbits w : Nat) : State := placeAtPc s (tableWord nbits w)

end Sys2Proof.Machine
end

