-- ==== Sys2Proof/Safety.lean ====
section
/-! DEFINITION. The terms that claims use: what an instruction leaves unchanged, the stages of a cycle seen from outside, and the invariants that every step keeps. -/

namespace Sys2Proof.Machine

/-! ### What changed between two states -/

/-- Every byte of memory reads as before. -/
def SameMemory (s t : State) : Prop := ∀ a : Nat, Memory.read t.mem a = Memory.read s.mem a

/-- Every general register reads as before. -/
def SameRegs (s t : State) : Prop := ∀ r : Reg, t.reg r = s.reg r

/-- x[rd] holds `v`, or nothing is written where rd is x0, and every other register reads as before (spec/10_state.md R41). -/
def WritesReg (s t : State) (rd : Reg) (v : Word) : Prop :=
  ∀ r : Reg, t.reg r = if r = rd ∧ rd ≠ 0#5 then v else s.reg r

/-- Unchanged: all that is neither a general register, the pc, instret, a CSR, a cache, memory, a device nor a trap record. -/
def SameControl (s t : State) : Prop :=
  t.run = s.run ∧ t.refused = s.refused ∧ t.cfg = s.cfg ∧ t.draws = s.draws

/-- Unchanged: both caches, every byte of memory, every device register, the trap records and the run control. -/
def SameOutside (s t : State) : Prop :=
  t.icache = s.icache ∧ t.dcache = s.dcache ∧ SameMemory s t ∧ t.dev = s.dev ∧ t.traps = s.traps ∧ SameControl s t

/-- The instruction completed in sequence: pc + 4 modulo 2^32 and one more in instret (spec/30_encoding.md R170). -/
def Advances (s t : State) : Prop := t.pc = s.pc + 4#32 ∧ t.instret = s.instret + 1

/-- `i` answers a next state in which x[rd] holds `v`, the pc has advanced, and every other register, every CSR, the caches,
memory, the devices and the run control are as before. -/
def ComputesReg (i : Instr) (s : State) (rd : Reg) (v : Word) : Prop :=
  ∃ t, exec i s = .next t ∧ WritesReg s t rd v ∧ Advances s t ∧ t.csr = s.csr ∧ SameOutside s t

/-- `i` answers a next state whose pc is `target`, and nothing but the pc and instret has changed. -/
def OnlyMovesPc (i : Instr) (s : State) (target : Word) : Prop :=
  ∃ t, exec i s = .next t ∧ t.pc = target ∧ t.instret = s.instret + 1 ∧ SameRegs s t ∧ t.csr = s.csr ∧ SameOutside s t

/-- `i` answers a next state whose pc is `target`, with the link address pc + 4 in x[rd] and nothing else changed but instret
(spec/44_jump.md R310). -/
def JumpsAndLinks (i : Instr) (s : State) (rd : Reg) (target : Word) : Prop :=
  ∃ t, exec i s = .next t ∧ t.pc = target ∧ WritesReg s t rd (linkAddress s) ∧ t.instret = s.instret + 1
    ∧ t.csr = s.csr ∧ SameOutside s t

/-- The CSR numbers that keep what is written: all of spec/10_state.md R51's but mip. -/
def writableCsrs : List CsrNum := [0x300#12, 0x304#12, 0x305#12, 0x341#12, 0x342#12, 0x343#12]

/-- `i` answers a next state in which x[rd] holds the old value of CSR `n`, CSR `n` holds `new` where it keeps what is written,
every other CSR reads as before, the pc has advanced and nothing else has changed (spec/46_system.md R334). -/
def AccessesCsr (i : Instr) (s : State) (rd : Reg) (n : CsrNum) (new : Word) : Prop :=
  ∃ t, exec i s = .next t ∧ WritesReg s t rd (s.csr.read n) ∧ Advances s t ∧ SameOutside s t
    ∧ ∀ m : CsrNum, t.csr.read m = if m = n ∧ n ∈ writableCsrs then new else s.csr.read m

/-- `i` answers a next state in which x[rd] holds `v`, the D-cache is `dcache`, the devices are `dev`, the pc has advanced and
nothing else has changed: every other register, every CSR, the I-cache, every byte of memory, the trap records, the run
control. -/
def LoadCompletes (i : Instr) (s : State) (rd : Reg) (v : Word) (dcache : Cache) (dev : DevState) : Prop :=
  ∃ t, exec i s = .next t ∧ WritesReg s t rd v ∧ Advances s t ∧ t.csr = s.csr ∧ t.icache = s.icache ∧ t.dcache = dcache
    ∧ SameMemory s t ∧ t.dev = dev ∧ t.traps = s.traps ∧ SameControl s t

/-- `i` answers a next state in which memory reads as `bytes` says, the D-cache is `dcache`, the devices are `dev`, the pc has
advanced and nothing else has changed: every register, every CSR, the I-cache, the trap records, the run control. -/
def StoreCompletes (i : Instr) (s : State) (bytes : Nat → Byte) (dcache : Cache) (dev : DevState) : Prop :=
  ∃ t, exec i s = .next t ∧ (∀ a : Nat, Memory.read t.mem a = bytes a) ∧ SameRegs s t ∧ Advances s t ∧ t.csr = s.csr
    ∧ t.icache = s.icache ∧ t.dcache = dcache ∧ t.dev = dev ∧ t.traps = s.traps ∧ SameControl s t

/-- `t` is `s` after the trap entry of R390 for the mcause value `cause`, the trap value `tval` and the handler `target`:
mepc, mcause, mtval, MPIE, MIE, the pc and one trap record (its kind the row of R370's table for `cause`, R397), and nothing
else. -/
def TrapEntered (s t : State) (cause tval target : Word) : Prop :=
  t.pc = target ∧ t.csr.mepc = s.pc ∧ t.csr.mcause = cause ∧ t.csr.mtval = tval
  ∧ (∀ i < 32, t.csr.mstatus.getLsbD i =
      if i = 3 then false else if i = 7 then s.csr.mstatus.getLsbD 3 else s.csr.mstatus.getLsbD i)
  ∧ t.csr.mie = s.csr.mie ∧ t.csr.mtvec = s.csr.mtvec ∧ t.csr.mip = s.csr.mip
  ∧ (∃ r : TrapRecord, t.traps = s.traps ++ [r] ∧ r.cause = cause ∧ r.kind.mcause = cause ∧ r.epc = s.pc ∧ r.tval = tval
      ∧ r.cls = (if cause.getLsbD 31 then TrapClass.interrupt else TrapClass.exception))
  ∧ t.instret = s.instret ∧ SameRegs s t ∧ t.icache = s.icache ∧ t.dcache = s.dcache ∧ SameMemory s t ∧ t.dev = s.dev
  ∧ SameControl s t

/-- The handler address of code `code` (spec/60_exceptions.md R391): mtvec with bits 1:0 cleared, and 4 x code above it where
mtvec[0] is 1 (exceptions too: spec/92_eei_decisions.md D15). -/
def handlerAddress (mtvec : Word) (code : Nat) : Word :=
  BitVec.ofNat 32 (mtvec.toNat / 4 * 4 + if mtvec.getLsbD 0 then 4 * code else 0)

/-- `i` answers a next state that is the trap entry for the exception of code `code` (the mcause value) with trap value
`tval`. -/
def RaisesException (i : Instr) (s : State) (code : Nat) (tval : Word) : Prop :=
  ∃ t, exec i s = .next t ∧ TrapEntered s t (BitVec.ofNat 32 code) tval (handlerAddress s.csr.mtvec code)

/-! ### The state a cycle may start from -/

/-- The machine takes a step: not halted, not refused, and its configuration meets spec/00_scope.md R13. -/
def Ready (s : State) : Prop := s.run = true ∧ s.refused = none ∧ configValid s.cfg = true

/-- No interrupt is taken in the cycle that starts at `s` (spec/60_exceptions.md R383), whatever the timer draw. -/
def NoInterrupt (s : State) : Prop := interruptPending (beginCycle s).csr = false

/-- The pc can be fetched from: a multiple of 4 inside RAM (spec/20_memory.md R102). -/
def Fetchable (s : State) : Prop := s.pc.toNat % 4 = 0 ∧ inRam s.cfg s.pc.toNat 4 = true

/-! ### Where a load or store goes -/

/-- An aligned access of `n` bytes at `ea` that no device answers and that lies in RAM (spec/20_memory.md R100, R101). -/
def RamAccess (s : State) (ea : Word) (n : Nat) : Prop :=
  ea.toNat % n = 0 ∧ devAt s.cfg ea = none ∧ inRam s.cfg ea.toNat n = true

/-- An aligned access of `n` bytes at `ea` outside RAM that no device answers. -/
def UnmappedAccess (s : State) (ea : Word) (n : Nat) : Prop :=
  ea.toNat % n = 0 ∧ devAt s.cfg ea = none ∧ inRam s.cfg ea.toNat n = false

/-- The little-endian value of the `n` memory bytes from `a` up (spec/20_memory.md R95). -/
def bytesValue (m : Memory) (a : Nat) : Nat → Nat
  | 0 => 0
  | n + 1 => bytesValue m a n + (Memory.read m (a + n)).toNat * 2 ^ (8 * n)

/-- The 32-bit value of an `n`-byte number `v` sign-extended (spec/42_loadstore.md R264). -/
def signExtended (n v : Nat) : Word := BitVec.ofNat 32 (if v < 2 ^ (8 * n - 1) then v else v + 2 ^ 32 - 2 ^ (8 * n))

/-- Byte `a` of memory after the low `n` bytes of `v` are stored at `ea`, little-endian (spec/20_memory.md R95). -/
def storedByte (m : Memory) (ea : Word) (n : Nat) (v : Word) (a : Nat) : Byte :=
  if ea.toNat ≤ a ∧ a < ea.toNat + n then BitVec.ofNat 8 (v.toNat / 2 ^ (8 * (a - ea.toNat))) else Memory.read m a

/-- The cache has a valid line with the tag of `a` in the set of `a` (spec/20_memory.md R121). -/
def Cache.holds (c : Cache) (a : Word) : Prop := ((c.setOf a).hitWay (tagOf a)).isSome = true

/-! ### Destination registers -/

end Sys2Proof.Machine

namespace Sys2Proof

/-- The instruction's rd field (spec/10_state.md R42). -/
def Instr.dest : Instr → Option Reg
  | .addi rd _ _ | .slti rd _ _ | .sltiu rd _ _ | .xori rd _ _ | .ori rd _ _ | .andi rd _ _ => some rd
  | .slli rd _ _ | .srli rd _ _ | .srai rd _ _ => some rd
  | .add rd _ _ | .sub rd _ _ | .sll rd _ _ | .slt rd _ _ | .sltu rd _ _ | .xor rd _ _ | .srl rd _ _ | .sra rd _ _
  | .or rd _ _ | .and rd _ _ => some rd
  | .mul rd _ _ | .mulh rd _ _ | .mulhsu rd _ _ | .mulhu rd _ _ | .div rd _ _ | .divu rd _ _ | .rem rd _ _
  | .remu rd _ _ => some rd
  | .lb rd _ _ | .lh rd _ _ | .lw rd _ _ | .lbu rd _ _ | .lhu rd _ _ => some rd
  | .jal rd _ | .lui rd _ | .auipc rd _ => some rd
  | .jalr rd _ _ => some rd
  | .csrrw rd _ _ | .csrrs rd _ _ | .csrrc rd _ _ => some rd
  | .csrrwi rd _ _ | .csrrsi rd _ _ | .csrrci rd _ _ => some rd
  | .sb .. | .sh .. | .sw .. | .beq .. | .bne .. | .blt .. | .bge .. | .bltu .. | .bgeu .. | .ecall | .ebreak | .mret => none

/-- The six CSR instructions (spec/46_system.md R335 to R340). -/
def Instr.accessesCsr : Instr → Bool
  | .csrrw .. | .csrrs .. | .csrrc .. | .csrrwi .. | .csrrsi .. | .csrrci .. => true
  | .addi .. | .slti .. | .sltiu .. | .xori .. | .ori .. | .andi .. | .slli .. | .srli .. | .srai ..
  | .add .. | .sub .. | .sll .. | .slt .. | .sltu .. | .xor .. | .srl .. | .sra .. | .or .. | .and ..
  | .mul .. | .mulh .. | .mulhsu .. | .mulhu .. | .div .. | .divu .. | .rem .. | .remu ..
  | .lb .. | .lh .. | .lw .. | .lbu .. | .lhu .. | .sb .. | .sh .. | .sw ..
  | .beq .. | .bne .. | .blt .. | .bge .. | .bltu .. | .bgeu .. | .jal .. | .jalr .. | .lui .. | .auipc ..
  | .ecall | .ebreak | .mret => false

/-- The instruction with its rd field set to `q`; an instruction without one is itself. -/
def Instr.withDest (q : Reg) : Instr → Instr
  | .addi _ a b => .addi q a b
  | .slti _ a b => .slti q a b
  | .sltiu _ a b => .sltiu q a b
  | .xori _ a b => .xori q a b
  | .ori _ a b => .ori q a b
  | .andi _ a b => .andi q a b
  | .slli _ a b => .slli q a b
  | .srli _ a b => .srli q a b
  | .srai _ a b => .srai q a b
  | .add _ a b => .add q a b
  | .sub _ a b => .sub q a b
  | .sll _ a b => .sll q a b
  | .slt _ a b => .slt q a b
  | .sltu _ a b => .sltu q a b
  | .xor _ a b => .xor q a b
  | .srl _ a b => .srl q a b
  | .sra _ a b => .sra q a b
  | .or _ a b => .or q a b
  | .and _ a b => .and q a b
  | .mul _ a b => .mul q a b
  | .mulh _ a b => .mulh q a b
  | .mulhsu _ a b => .mulhsu q a b
  | .mulhu _ a b => .mulhu q a b
  | .div _ a b => .div q a b
  | .divu _ a b => .divu q a b
  | .rem _ a b => .rem q a b
  | .remu _ a b => .remu q a b
  | .lb _ a b => .lb q a b
  | .lh _ a b => .lh q a b
  | .lw _ a b => .lw q a b
  | .lbu _ a b => .lbu q a b
  | .lhu _ a b => .lhu q a b
  | .sb a b c => .sb a b c
  | .sh a b c => .sh a b c
  | .sw a b c => .sw a b c
  | .beq a b c => .beq a b c
  | .bne a b c => .bne a b c
  | .blt a b c => .blt a b c
  | .bge a b c => .bge a b c
  | .bltu a b c => .bltu a b c
  | .bgeu a b c => .bgeu a b c
  | .jal _ a => .jal q a
  | .jalr _ a b => .jalr q a b
  | .lui _ a => .lui q a
  | .auipc _ a => .auipc q a
  | .ecall => .ecall
  | .ebreak => .ebreak
  | .mret => .mret
  | .csrrw _ a b => .csrrw q a b
  | .csrrs _ a b => .csrrs q a b
  | .csrrc _ a b => .csrrc q a b
  | .csrrwi _ a b => .csrrwi q a b
  | .csrrsi _ a b => .csrrsi q a b
  | .csrrci _ a b => .csrrci q a b

end Sys2Proof

namespace Sys2Proof.Machine

/-! ### Invariants -/

/-- "At most one Cache Line per set may match a given tag" (spec/10_state.md R63). -/
abbrev Cache.unique (c : Cache) : Prop :=
  ∀ i : Fin 8, ¬ (c.sets[i].line0.valid = true ∧ c.sets[i].line1.valid = true ∧ c.sets[i].line0.tag = c.sets[i].line1.tag)

/-- A valid line holds what memory holds at its block. -/
abbrev CacheLine.agrees (l : CacheLine) (i : Fin 8) (m : Memory) : Prop :=
  l.valid = true → ∀ k : Fin 4, l.block[k] = Memory.word m ((lineBase l.tag (BitVec.ofFin i)).toNat + 4 * k.val)

/-- Every valid line agrees with memory (spec/20_memory.md R130). -/
abbrev Cache.coherent (c : Cache) (m : Memory) : Prop :=
  ∀ i : Fin 8, c.sets[i].line0.agrees i m ∧ c.sets[i].line1.agrees i m

/-- A valid line holds a block that lies wholly in RAM (spec/20_memory.md R124). -/
abbrev CacheLine.inWindow (l : CacheLine) (i : Fin 8) (cfg : Config) : Prop :=
  l.valid = true → inRam cfg (lineBase l.tag (BitVec.ofFin i)).toNat 16 = true

abbrev Cache.inWindow (c : Cache) (cfg : Config) : Prop :=
  ∀ i : Fin 8, c.sets[i].line0.inWindow i cfg ∧ c.sets[i].line1.inWindow i cfg

/-- Memory lists only RAM addresses (spec/10_state.md R64). -/
abbrev Memory.inWindow (m : Memory) (cfg : Config) : Prop := ∀ c ∈ m, inRam cfg c.1 1 = true

/-- Only mip bits 3, 7 and 11 can be 1 (spec/10_state.md R60). -/
abbrev mipShape (w : Word) : Prop := w &&& ~~~0x00000888#32 = 0#32

/-- What every step keeps: memory is canonical and inside RAM, no set holds a tag twice, the D-cache agrees with memory,
every cached block lies in RAM, and mip has no other bit. -/
abbrev State.Inv (s : State) : Prop :=
  Memory.wf s.mem ∧ Memory.inWindow s.mem s.cfg
  ∧ Cache.unique s.icache ∧ Cache.unique s.dcache
  ∧ Cache.inWindow s.icache s.cfg ∧ Cache.inWindow s.dcache s.cfg
  ∧ Cache.coherent s.dcache s.mem
  ∧ mipShape s.csr.mip

/-! ### What a program cannot see -/

/-- A cache without its counters (spec/20_memory.md R127, spec/60_exceptions.md R440). -/
def Cache.uncounted (c : Cache) : Cache := { c with hits := 0, misses := 0 }

/-- The state without what no program can read: instret, the cache counters, the trap records and the terminal output
(spec/60_exceptions.md R440, spec/10_state.md R68, R70). -/
def State.visible (s : State) : State :=
  { s with
    icache := s.icache.uncounted
    dcache := s.dcache.uncounted
    dev := { s.dev with uartOut := [] }
    instret := 0
    traps := [] }

/-- Two answers that no program can tell apart: next states with the same visible part, or the same stop. -/
def SameVisible : Result → Result → Prop
  | .next s, .next t => s.visible = t.visible
  | .fault f, .fault g => f = g
  | .refused r, .refused q => r = q
  | .next _, .fault _ | .next _, .refused _ | .fault _, .next _ | .fault _, .refused _
  | .refused _, .next _ | .refused _, .fault _ => False

/-- An unfetchable handler in direct mode (spec/60_exceptions.md R395): the pc is the handler address, which is outside RAM. -/
def InTrapLoop (s : State) : Prop :=
  Ready s ∧ s.csr.mtvec.getLsbD 0 = false ∧ s.csr.mstatus.getLsbD 3 = false
  ∧ s.pc = s.csr.mtvec &&& 0xFFFFFFFC#32 ∧ inRam s.cfg s.pc.toNat 4 = false

end Sys2Proof.Machine
end

