-- ==== Sys2Proof/Certificates/Slice0/Obligations.lean ====
section
/-! DEFINITION. The statements for the provers, one def each, in the order of OBLIGATIONS.json: arithmetic, control flow, loads and stores, caches, traps and the cycle, encoding, reset, invariants. A docstring names the rule it follows; "own choice D<n>" is a decision of spec/92_eei_decisions.md that the spec calls its own. -/

open Sys2Proof Sys2Proof.Machine

/-! ### Arithmetic -/

/-- ADDI, SLTI, SLTIU, XORI, ORI, ANDI: the result, the pc, instret and everything left unchanged (spec/40_alu.md R200 to
R205, R220). SLTIU zero-extends (R202). For rd = x0 nothing is written and the pc advances. -/
def Obligations.ImmediateArithmetic : Prop :=
  ∀ (rd rs1 : Reg) (imm : BitVec 12) (s : State),
    ComputesReg (.addi rd rs1 imm) s rd (BitVec.ofInt 32 ((s.reg rs1).toNat + imm.toInt))
    ∧ ComputesReg (.slti rd rs1 imm) s rd (if (s.reg rs1).toInt < imm.toInt then 1#32 else 0#32)
    ∧ ComputesReg (.sltiu rd rs1 imm) s rd (if (s.reg rs1).toNat < imm.toNat then 1#32 else 0#32)
    ∧ ComputesReg (.xori rd rs1 imm) s rd (s.reg rs1 ^^^ BitVec.ofInt 32 imm.toInt)
    ∧ ComputesReg (.ori rd rs1 imm) s rd (s.reg rs1 ||| BitVec.ofInt 32 imm.toInt)
    ∧ ComputesReg (.andi rd rs1 imm) s rd (s.reg rs1 &&& BitVec.ofInt 32 imm.toInt)

/-- SLLI, SRLI, SRAI by 0 to 31 (R206 to R208). -/
def Obligations.ImmediateShifts : Prop :=
  ∀ (rd rs1 : Reg) (shamt : BitVec 5) (s : State),
    ComputesReg (.slli rd rs1 shamt) s rd (BitVec.ofNat 32 ((s.reg rs1).toNat * 2 ^ shamt.toNat))
    ∧ ComputesReg (.srli rd rs1 shamt) s rd (BitVec.ofNat 32 ((s.reg rs1).toNat / 2 ^ shamt.toNat))
    ∧ ComputesReg (.srai rd rs1 shamt) s rd (BitVec.ofInt 32 ((s.reg rs1).toInt / 2 ^ shamt.toNat))

/-- ADD, SUB, SLT, SLTU, XOR, OR, AND (R210, R211, R213 to R215, R218 to R220). -/
def Obligations.RegisterArithmetic : Prop :=
  ∀ (rd rs1 rs2 : Reg) (s : State),
    ComputesReg (.add rd rs1 rs2) s rd (BitVec.ofNat 32 ((s.reg rs1).toNat + (s.reg rs2).toNat))
    ∧ ComputesReg (.sub rd rs1 rs2) s rd (BitVec.ofInt 32 ((s.reg rs1).toNat - (s.reg rs2).toNat))
    ∧ ComputesReg (.slt rd rs1 rs2) s rd (if (s.reg rs1).toInt < (s.reg rs2).toInt then 1#32 else 0#32)
    ∧ ComputesReg (.sltu rd rs1 rs2) s rd (if (s.reg rs1).toNat < (s.reg rs2).toNat then 1#32 else 0#32)
    ∧ ComputesReg (.xor rd rs1 rs2) s rd (s.reg rs1 ^^^ s.reg rs2)
    ∧ ComputesReg (.or rd rs1 rs2) s rd (s.reg rs1 ||| s.reg rs2)
    ∧ ComputesReg (.and rd rs1 rs2) s rd (s.reg rs1 &&& s.reg rs2)

/-- SLL, SRL, SRA (R212, R216, R217). That only x[rs2][4:0] counts is the spec's own choice D41. -/
def Obligations.RegisterShifts : Prop :=
  ∀ (rd rs1 rs2 : Reg) (s : State),
    ComputesReg (.sll rd rs1 rs2) s rd (BitVec.ofNat 32 ((s.reg rs1).toNat * 2 ^ ((s.reg rs2).toNat % 32)))
    ∧ ComputesReg (.srl rd rs1 rs2) s rd (BitVec.ofNat 32 ((s.reg rs1).toNat / 2 ^ ((s.reg rs2).toNat % 32)))
    ∧ ComputesReg (.sra rd rs1 rs2) s rd (BitVec.ofInt 32 ((s.reg rs1).toInt / 2 ^ ((s.reg rs2).toNat % 32)))

/-- MUL, MULH, MULHSU, MULHU: the low and the high word of the exact product (spec/41_muldiv.md R240, R243 to R246). That
MULHSU reads rs1 as the signed operand is the spec's, from general knowledge (R245). -/
def Obligations.Multiply : Prop :=
  ∀ (rd rs1 rs2 : Reg) (s : State),
    ComputesReg (.mul rd rs1 rs2) s rd (BitVec.ofNat 32 ((s.reg rs1).toNat * (s.reg rs2).toNat))
    ∧ ComputesReg (.mulh rd rs1 rs2) s rd (BitVec.ofInt 32 ((s.reg rs1).toInt * (s.reg rs2).toInt / 2 ^ 32))
    ∧ ComputesReg (.mulhsu rd rs1 rs2) s rd (BitVec.ofInt 32 ((s.reg rs1).toInt * ((s.reg rs2).toNat : Int) / 2 ^ 32))
    ∧ ComputesReg (.mulhu rd rs1 rs2) s rd (BitVec.ofNat 32 ((s.reg rs1).toNat * (s.reg rs2).toNat / 2 ^ 32))

/-- DIV, DIVU, REM, REMU with the division-by-zero and overflow policy (R241, R242, R247 to R250). Rounding toward zero and
the remainder's sign are the spec's, from general knowledge (R241); REM of the overflow case is its own choice D4. -/
def Obligations.Divide : Prop :=
  ∀ (rd rs1 rs2 : Reg) (s : State),
    ComputesReg (.div rd rs1 rs2) s rd
      (if s.reg rs2 = 0#32 then 0xFFFFFFFF#32
       else if s.reg rs1 = 0x80000000#32 ∧ s.reg rs2 = 0xFFFFFFFF#32 then 0x80000000#32
       else BitVec.ofInt 32 (Int.tdiv (s.reg rs1).toInt (s.reg rs2).toInt))
    ∧ ComputesReg (.divu rd rs1 rs2) s rd
      (if s.reg rs2 = 0#32 then 0xFFFFFFFF#32 else BitVec.ofNat 32 ((s.reg rs1).toNat / (s.reg rs2).toNat))
    ∧ ComputesReg (.rem rd rs1 rs2) s rd
      (if s.reg rs2 = 0#32 then s.reg rs1
       else if s.reg rs1 = 0x80000000#32 ∧ s.reg rs2 = 0xFFFFFFFF#32 then 0#32
       else BitVec.ofInt 32 (Int.tmod (s.reg rs1).toInt (s.reg rs2).toInt))
    ∧ ComputesReg (.remu rd rs1 rs2) s rd
      (if s.reg rs2 = 0#32 then s.reg rs1 else BitVec.ofNat 32 ((s.reg rs1).toNat % (s.reg rs2).toNat))

/-- "so a = q x b + r" (spec/41_muldiv.md R241, there from general knowledge and not in the source; the overflow pair rests
on the spec's own choice D4: log entry 11): where DIV and REM (and DIVU and REMU) leave q and r in register `rd`, the
dividend is q x b + r modulo 2^32, for every divisor, zero among them. x0 keeps no result, so rd is another register;
`Divide` covers rd = x0. -/
def Obligations.DivisionIdentity : Prop :=
  ∀ (rd rs1 rs2 : Reg) (s q r p m : State), rd ≠ 0#5 →
    exec (.div rd rs1 rs2) s = .next q → exec (.rem rd rs1 rs2) s = .next r →
    exec (.divu rd rs1 rs2) s = .next p → exec (.remu rd rs1 rs2) s = .next m →
    s.reg rs1 = q.reg rd * s.reg rs2 + r.reg rd ∧ s.reg rs1 = p.reg rd * s.reg rs2 + m.reg rd

/-- LUI and AUIPC (spec/45_upper_imm.md R320, R321); that the sum wraps is the spec's own choice D35. -/
def Obligations.UpperImmediates : Prop :=
  ∀ (rd : Reg) (imm : BitVec 20) (s : State),
    ComputesReg (.lui rd imm) s rd (BitVec.ofNat 32 (imm.toNat * 4096))
    ∧ ComputesReg (.auipc rd imm) s rd (BitVec.ofNat 32 (s.pc.toNat + imm.toNat * 4096))

/-! ### Registers -/

/-- x0 reads 0 in every state, and an instruction with rd = x0 does everything but the register write: the state it leaves
is the state the same instruction with any other rd leaves, but for the registers, which it leaves alone; and it stops
exactly where the other does. That x0 reads 0 and drops a write is spec/10_state.md R41; that every other effect still
happens, a load's access, fault and refusal among them, is the spec's own choice D34 (log entry 11); that exec never answers
a fault is the model's (log entry 5). -/
def Obligations.RegisterZeroIsInvariant : Prop :=
  (∀ (i : Instr) (s t : State), s.reg 0#5 = 0#32 ∧ (exec i s = .next t → t.reg 0#5 = 0#32))
  ∧ (∀ (s : State) (v : Word), s.setReg 0#5 v = s)
  ∧ ∀ (i : Instr) (s : State),
    (∀ t, exec i s = .next t → ∃ u, exec (i.withDest 0#5) s = .next u ∧ SameRegs s u ∧ { u with regs := t.regs } = t)
    ∧ (∀ r, exec i s = .refused r ↔ exec (i.withDest 0#5) s = .refused r)
    ∧ (∀ f, exec i s ≠ .fault f)

/-- Every one of the 54 instructions leaves every register but its rd unchanged, and those without an rd field (stores,
branches, ECALL, EBREAK, MRET) leave all 32 (spec/10_state.md R42). -/
def Obligations.OnlyDestinationRegisterChanges : Prop :=
  ∀ (i : Instr) (s t : State) (r : Reg), exec i s = .next t → i.dest ≠ some r → t.reg r = s.reg r

/-! ### Control flow -/

/-- The address arithmetic of loads, stores, branches, jumps and links is modulo 2^32 (own choice D35), and JALR clears bit 0
of the sum (own choice D5): spec/42_loadstore.md R260, spec/43_branch.md R290, spec/44_jump.md R310 to R312. -/
def Obligations.AddressesWrap : Prop :=
  ∀ (s : State) (rs1 : Reg) (imm : BitVec 12) (off : BitVec 13) (far : BitVec 21),
    effectiveAddress s rs1 imm = BitVec.ofInt 32 ((s.reg rs1).toNat + imm.toInt)
    ∧ branchTarget s off = BitVec.ofInt 32 (s.pc.toNat + off.toInt)
    ∧ jalTarget s far = BitVec.ofInt 32 (s.pc.toNat + far.toInt)
    ∧ jalrTarget s rs1 imm = BitVec.ofInt 32 (((s.reg rs1).toNat + imm.toInt) / 2 * 2)
    ∧ linkAddress s = BitVec.ofNat 32 (s.pc.toNat + 4)

/-- The six conditions: BEQ and BNE compare the bits, BLT and BGE the signed and BLTU and BGEU the unsigned values; nothing
but the pc and instret changes; with one register against itself BEQ, BGE and BGEU are taken and BNE, BLT and BLTU not
(spec/43_branch.md R292). -/
def Obligations.BranchesCompareAndMoveOnlyPc : Prop :=
  (∀ (rs1 rs2 : Reg) (imm : BitVec 13) (s : State),
    OnlyMovesPc (.beq rs1 rs2 imm) s (if s.reg rs1 = s.reg rs2 then branchTarget s imm else linkAddress s)
    ∧ OnlyMovesPc (.bne rs1 rs2 imm) s (if s.reg rs1 ≠ s.reg rs2 then branchTarget s imm else linkAddress s)
    ∧ OnlyMovesPc (.blt rs1 rs2 imm) s
      (if (s.reg rs1).toInt < (s.reg rs2).toInt then branchTarget s imm else linkAddress s)
    ∧ OnlyMovesPc (.bge rs1 rs2 imm) s
      (if (s.reg rs2).toInt ≤ (s.reg rs1).toInt then branchTarget s imm else linkAddress s)
    ∧ OnlyMovesPc (.bltu rs1 rs2 imm) s
      (if (s.reg rs1).toNat < (s.reg rs2).toNat then branchTarget s imm else linkAddress s)
    ∧ OnlyMovesPc (.bgeu rs1 rs2 imm) s
      (if (s.reg rs2).toNat ≤ (s.reg rs1).toNat then branchTarget s imm else linkAddress s))
  ∧ ∀ (r : Reg) (imm : BitVec 13) (s : State),
    OnlyMovesPc (.beq r r imm) s (branchTarget s imm) ∧ OnlyMovesPc (.bge r r imm) s (branchTarget s imm)
    ∧ OnlyMovesPc (.bgeu r r imm) s (branchTarget s imm) ∧ OnlyMovesPc (.bne r r imm) s (linkAddress s)
    ∧ OnlyMovesPc (.blt r r imm) s (linkAddress s) ∧ OnlyMovesPc (.bltu r r imm) s (linkAddress s)

/-- JAL and JALR: the target in the pc, the link pc + 4 in x[rd] (nothing for x0), the target computed from the old x[rs1]
where rd = rs1, and nothing else changed (spec/44_jump.md R310 to R312). The targets' arithmetic is `AddressesWrap`. -/
def Obligations.JumpsLinkAndRedirect : Prop :=
  ∀ (rd rs1 : Reg) (imm : BitVec 12) (off : BitVec 21) (s : State),
    JumpsAndLinks (.jal rd off) s rd (jalTarget s off) ∧ JumpsAndLinks (.jalr rd rs1 imm) s rd (jalrTarget s rs1 imm)

/-! ### System instructions -/

/-- ECALL takes the exception of cause 11 with trap value 0 (spec/46_system.md R330; the code is the spec's own choice D8, the
trap value D9, the bit positions D12, vectoring of exceptions D15). It does not count in instret. -/
def Obligations.EcallTraps : Prop := ∀ s : State, RaisesException .ecall s 11 0#32

/-- EBREAK halts: run is false, instret counts it, the pc and everything else stay, and no step follows (spec/46_system.md
R331, spec/30_encoding.md R170). That the pc stays is the spec's own choice D30. -/
def Obligations.EbreakHalts : Prop :=
  ∀ s : State, ∃ t, exec .ebreak s = .next t ∧ t.run = false ∧ t.pc = s.pc ∧ t.instret = s.instret + 1
    ∧ { t with run := s.run, instret := s.instret } = s ∧ step t = .fault .halted

/-- MRET: MIE takes MPIE, MPIE is set (own choice D13; the bits' places D12), no other mstatus bit changes, the pc takes mepc
with no pc + 4, it counts in instret, and every other register, CSR, cache, byte, device and trap record stays
(spec/46_system.md R332, spec/60_exceptions.md R392). -/
def Obligations.MretReturns : Prop :=
  ∀ s : State, ∃ t, exec .mret s = .next t ∧ t.pc = s.csr.mepc ∧ t.instret = s.instret + 1
    ∧ (∀ i < 32, t.csr.mstatus.getLsbD i =
        if i = 3 then s.csr.mstatus.getLsbD 7 else if i = 7 then true else s.csr.mstatus.getLsbD i)
    ∧ { t.csr with mstatus := s.csr.mstatus } = s.csr ∧ SameRegs s t ∧ SameOutside s t

/-- The six CSR instructions at every CSR number: the old value in x[rd], the new value in the CSR where it keeps what is
written (mip and the unknown numbers do not), every other CSR and everything else unchanged (spec/46_system.md R334 to R340,
spec/10_state.md R52, R53). The numbers are the spec's own choice D10; full-width storage D11; mip D16. -/
def Obligations.CsrInstructions : Prop :=
  ∀ (rd rs1 : Reg) (u : BitVec 5) (n : CsrNum) (s : State),
    AccessesCsr (.csrrw rd rs1 n) s rd n (s.reg rs1)
    ∧ AccessesCsr (.csrrs rd rs1 n) s rd n (s.csr.read n ||| s.reg rs1)
    ∧ AccessesCsr (.csrrc rd rs1 n) s rd n (s.csr.read n &&& ~~~s.reg rs1)
    ∧ AccessesCsr (.csrrwi rd u n) s rd n (BitVec.ofNat 32 u.toNat)
    ∧ AccessesCsr (.csrrsi rd u n) s rd n (s.csr.read n ||| BitVec.ofNat 32 u.toNat)
    ∧ AccessesCsr (.csrrci rd u n) s rd n (s.csr.read n &&& ~~~BitVec.ofNat 32 u.toNat)

/-- What each CSR number reads: the seven CSRs and 0 for every other number (R52; the numbers are the spec's own choice D10). -/
def Obligations.CsrReadValues : Prop :=
  ∀ (s : State) (n : CsrNum),
    s.csr.read 0x300#12 = s.csr.mstatus ∧ s.csr.read 0x304#12 = s.csr.mie ∧ s.csr.read 0x305#12 = s.csr.mtvec
    ∧ s.csr.read 0x341#12 = s.csr.mepc ∧ s.csr.read 0x342#12 = s.csr.mcause ∧ s.csr.read 0x343#12 = s.csr.mtval
    ∧ s.csr.read 0x344#12 = s.csr.mip ∧ (n ∉ 0x344#12 :: writableCsrs → s.csr.read n = 0#32)

/-! ### Loads and stores -/

/-- A load from RAM returns the little-endian bytes of memory, sign- or zero-extended, and changes x[rd], the D-cache, the pc
and instret alone (spec/42_loadstore.md R261, R264 to R269; spec/20_memory.md R95, R100, R130). The premise is the D-cache's
agreement with memory, which `StepKeepsInvariant` keeps. -/
def Obligations.LoadsFromRam : Prop :=
  ∀ (rd rs1 : Reg) (imm : BitVec 12) (s : State), Cache.coherent s.dcache s.mem →
    let ea := effectiveAddress s rs1 imm
    let after := (s.dcache.read s.mem ea).2
    (RamAccess s ea 1 →
      LoadCompletes (.lb rd rs1 imm) s rd (signExtended 1 (bytesValue s.mem ea.toNat 1)) after s.dev
      ∧ LoadCompletes (.lbu rd rs1 imm) s rd (BitVec.ofNat 32 (bytesValue s.mem ea.toNat 1)) after s.dev)
    ∧ (RamAccess s ea 2 →
      LoadCompletes (.lh rd rs1 imm) s rd (signExtended 2 (bytesValue s.mem ea.toNat 2)) after s.dev
      ∧ LoadCompletes (.lhu rd rs1 imm) s rd (BitVec.ofNat 32 (bytesValue s.mem ea.toNat 2)) after s.dev)
    ∧ (RamAccess s ea 4 →
      LoadCompletes (.lw rd rs1 imm) s rd (BitVec.ofNat 32 (bytesValue s.mem ea.toNat 4)) after s.dev)

/-- A store to RAM puts the low bytes of x[rs2] at the effective address, little-endian; every other byte reads as before;
the D-cache changes as `Cache.write` says; no register, no CSR, not the I-cache, no device changes (spec/42_loadstore.md R263,
R270 to R272; spec/20_memory.md R95, R101, R125, R126). -/
def Obligations.StoresToRam : Prop :=
  ∀ (rs1 rs2 : Reg) (imm : BitVec 12) (s : State),
    let ea := effectiveAddress s rs1 imm
    (RamAccess s ea 1 →
      StoreCompletes (.sb rs1 rs2 imm) s (storedByte s.mem ea 1 (s.reg rs2)) (s.dcache.write ea 1 (s.reg rs2)) s.dev)
    ∧ (RamAccess s ea 2 →
      StoreCompletes (.sh rs1 rs2 imm) s (storedByte s.mem ea 2 (s.reg rs2)) (s.dcache.write ea 2 (s.reg rs2)) s.dev)
    ∧ (RamAccess s ea 4 →
      StoreCompletes (.sw rs1 rs2 imm) s (storedByte s.mem ea 4 (s.reg rs2)) (s.dcache.write ea 4 (s.reg rs2)) s.dev)

/-- A byte load sees the store just before it, of any width: directly after SB, SH or SW to RAM, LBU of any RAM byte returns
the stored byte or, outside the stored bytes, what memory held before the store (spec/20_memory.md R97, R130). The two
premises on the D-cache are part of the invariant that `StepKeepsInvariant` keeps. -/
def Obligations.StoreThenLoadByte : Prop :=
  ∀ (rd rs1 rs2 base : Reg) (imm off : BitVec 12) (s t : State) (n : Width),
    Cache.unique s.dcache → Cache.coherent s.dcache s.mem → RamAccess s (effectiveAddress s rs1 imm) n.bytes →
    exec (match n with | .byte => .sb rs1 rs2 imm | .half => .sh rs1 rs2 imm | .word => .sw rs1 rs2 imm) s = .next t →
    RamAccess t (effectiveAddress t base off) 1 →
    ∃ u, exec (.lbu rd base off) t = .next u
      ∧ WritesReg t u rd (BitVec.ofNat 32
          (storedByte s.mem (effectiveAddress s rs1 imm) n.bytes (s.reg rs2) (effectiveAddress t base off).toNat).toNat)

/-- A load from a device register returns the bytes of its read value that the access covers, and its only side effect is the
register's own; neither cache nor any byte of memory changes (spec/60_exceptions.md R421, spec/42_loadstore.md R261). Device
dispatch and byte lanes are the spec's own choice D21. -/
def Obligations.LoadsFromDevices : Prop :=
  ∀ (rd rs1 : Reg) (imm : BitVec 12) (s : State) (r : DevReg),
    devAt s.cfg (effectiveAddress s rs1 imm) = some r →
    let ea := effectiveAddress s rs1 imm
    let lane := fun n : Nat => (s.dev.value r).toNat / 2 ^ (8 * (ea - r.address s.cfg).toNat) % 2 ^ (8 * n)
    let after := s.dev.afterRead r
    LoadCompletes (.lb rd rs1 imm) s rd (signExtended 1 (lane 1)) s.dcache after
    ∧ LoadCompletes (.lbu rd rs1 imm) s rd (BitVec.ofNat 32 (lane 1)) s.dcache after
    ∧ (ea.toNat % 2 = 0 →
      LoadCompletes (.lh rd rs1 imm) s rd (signExtended 2 (lane 2)) s.dcache after
      ∧ LoadCompletes (.lhu rd rs1 imm) s rd (BitVec.ofNat 32 (lane 2)) s.dcache after)
    ∧ (ea.toNat % 4 = 0 → LoadCompletes (.lw rd rs1 imm) s rd (BitVec.ofNat 32 (lane 4)) s.dcache after)

/-- A store to a device register changes that device state, the pc and instret alone: no cache, no byte of memory, no
register (spec/60_exceptions.md R422, spec/42_loadstore.md R263). What it does to the device is `DeviceWritesMerge`. -/
def Obligations.StoresToDevices : Prop :=
  ∀ (rs1 rs2 : Reg) (imm : BitVec 12) (s : State) (r : DevReg),
    devAt s.cfg (effectiveAddress s rs1 imm) = some r →
    let ea := effectiveAddress s rs1 imm
    let after := fun n : Nat => s.dev.write s.cfg r (ea - r.address s.cfg).toNat n (s.reg rs2)
    StoreCompletes (.sb rs1 rs2 imm) s (Memory.read s.mem) s.dcache (after 1)
    ∧ (ea.toNat % 2 = 0 → StoreCompletes (.sh rs1 rs2 imm) s (Memory.read s.mem) s.dcache (after 2))
    ∧ (ea.toNat % 4 = 0 → StoreCompletes (.sw rs1 rs2 imm) s (Memory.read s.mem) s.dcache (after 4))

/-- What each device register reads (spec/60_exceptions.md R423 to R429, R433) but CLAIM, for which see `ClaimTakesLowestSource`;
reading them has no side effect. The registers' behaviour is the spec's own choice D22, D23, D25. -/
def Obligations.DeviceReadValues : Prop :=
  ∀ d : DevState,
    d.value .msip = d.msip
    ∧ d.value .mtimecmpLo = BitVec.ofNat 32 d.mtimecmp.toNat ∧ d.value .mtimecmpHi = BitVec.ofNat 32 (d.mtimecmp.toNat / 2 ^ 32)
    ∧ d.value .mtimeLo = BitVec.ofNat 32 d.mtime.toNat ∧ d.value .mtimeHi = BitVec.ofNat 32 (d.mtime.toNat / 2 ^ 32)
    ∧ d.value .pending = d.plicPending ∧ d.value .enable = d.plicEnable ∧ d.value .threshold = d.plicThreshold
    ∧ d.value .uartThr = 0#32
    ∧ ∀ r : DevReg, r ≠ .claim → d.afterRead r = d

/-- A store to a 4-byte device register merges the stored bytes into it and changes no other register; a store to CLAIM
changes nothing; a store of any width to the UART register appends v[7:0] to the terminal output and sets
PENDING[UART_IRQ] and no other bit (spec/60_exceptions.md R422, R430, R433; own choice D21, D24, D25). -/
def Obligations.DeviceWritesMerge : Prop :=
  ∀ (d : DevState) (cfg : Config) (r : DevReg) (k n : Nat) (v : Word), k + n ≤ 4 →
    (r ≠ .claim → r ≠ .uartThr →
      (∀ i < 32, ((d.write cfg r k n v).value r).getLsbD i =
        if 8 * k ≤ i ∧ i < 8 * (k + n) then v.getLsbD (i - 8 * k) else (d.value r).getLsbD i)
      ∧ (∀ q : DevReg, q ≠ r → q ≠ .claim → (d.write cfg r k n v).value q = d.value q)
      ∧ (d.write cfg r k n v).uartOut = d.uartOut)
    ∧ d.write cfg .claim k n v = d
    ∧ (d.write cfg .uartThr k n v).uartOut = d.uartOut ++ [BitVec.ofNat 8 v.toNat]
    ∧ (∀ i < 32, (d.write cfg .uartThr k n v).plicPending.getLsbD i = (decide (i = cfg.uartIrq.toNat) || d.plicPending.getLsbD i))
    ∧ { d.write cfg .uartThr k n v with uartOut := d.uartOut, plicPending := d.plicPending } = d

/-- A load of CLAIM returns the lowest source in 1 to 31 that is pending and enabled and clears its pending bit alone, or
returns 0 and changes nothing where there is none (spec/60_exceptions.md R428; own choice D24). -/
def Obligations.ClaimTakesLowestSource : Prop :=
  ∀ d : DevState,
    (∀ i, 1 ≤ i → i < 32 → d.plicPending.getLsbD i = true → d.plicEnable.getLsbD i = true →
      (∀ j, 1 ≤ j → j < i → ¬ (d.plicPending.getLsbD j = true ∧ d.plicEnable.getLsbD j = true)) →
      d.value .claim = BitVec.ofNat 32 i
      ∧ (∀ j < 32, (d.afterRead .claim).plicPending.getLsbD j = (decide (j ≠ i) && d.plicPending.getLsbD j))
      ∧ { d.afterRead .claim with plicPending := d.plicPending } = d)
    ∧ ((∀ j, 1 ≤ j → j < 32 → ¬ (d.plicPending.getLsbD j = true ∧ d.plicEnable.getLsbD j = true)) →
      d.value .claim = 0#32 ∧ d.afterRead .claim = d)

/-- A load outside RAM and every device raises LoadFault with the effective address as trap value, and a store StoreFault;
nothing but the trap state changes (spec/42_loadstore.md R261, R263, R273; spec/60_exceptions.md R390). Codes 5 and 7 and the
store's trap value are the spec's own choice D8, D9. -/
def Obligations.UnmappedAccessesFault : Prop :=
  ∀ (rd rs1 rs2 : Reg) (imm : BitVec 12) (s : State),
    let ea := effectiveAddress s rs1 imm
    (UnmappedAccess s ea 1 →
      RaisesException (.lb rd rs1 imm) s 5 ea ∧ RaisesException (.lbu rd rs1 imm) s 5 ea
      ∧ RaisesException (.sb rs1 rs2 imm) s 7 ea)
    ∧ (UnmappedAccess s ea 2 →
      RaisesException (.lh rd rs1 imm) s 5 ea ∧ RaisesException (.lhu rd rs1 imm) s 5 ea
      ∧ RaisesException (.sh rs1 rs2 imm) s 7 ea)
    ∧ (UnmappedAccess s ea 4 →
      RaisesException (.lw rd rs1 imm) s 5 ea ∧ RaisesException (.sw rs1 rs2 imm) s 7 ea)

/-- A halfword or word access at an address that is not a multiple of its width is refused, in RAM, at a device or outside
both, whatever rd is; a byte access never is (spec/20_memory.md R99: the spec's own choice D7). -/
def Obligations.MisalignedDataIsRefused : Prop :=
  ∀ (rd rs1 rs2 : Reg) (imm : BitVec 12) (s : State),
    let ea := effectiveAddress s rs1 imm
    (ea.toNat % 2 ≠ 0 ↔ exec (.lh rd rs1 imm) s = .refused .misalignedData)
    ∧ (ea.toNat % 2 ≠ 0 ↔ exec (.lhu rd rs1 imm) s = .refused .misalignedData)
    ∧ (ea.toNat % 4 ≠ 0 ↔ exec (.lw rd rs1 imm) s = .refused .misalignedData)
    ∧ (ea.toNat % 2 ≠ 0 ↔ exec (.sh rs1 rs2 imm) s = .refused .misalignedData)
    ∧ (ea.toNat % 4 ≠ 0 ↔ exec (.sw rs1 rs2 imm) s = .refused .misalignedData)
    ∧ exec (.lb rd rs1 imm) s ≠ .refused .misalignedData ∧ exec (.lbu rd rs1 imm) s ≠ .refused .misalignedData
    ∧ exec (.sb rs1 rs2 imm) s ≠ .refused .misalignedData

/-- Under the constraints of spec/00_scope.md R13 no device byte lies in RAM and no byte belongs to two registers, and an
aligned access lies wholly in RAM or wholly outside it, with the whole 16-byte block around it (spec/42_loadstore.md R274,
spec/20_memory.md R124). The constraints are the spec's own choice D19, D20. -/
def Obligations.AddressMapIsDisjoint : Prop :=
  ∀ (cfg : Config) (a : Word), configValid cfg = true →
    (∀ r q : DevReg, r.offset cfg a < r.size → q.offset cfg a < q.size → r = q)
    ∧ (∀ r, devAt cfg a = some r → inRam cfg a.toNat 1 = false)
    ∧ (∀ n, n = 1 ∨ n = 2 ∨ n = 4 → a.toNat % n = 0 → inRam cfg a.toNat n = inRam cfg a.toNat 1)
    ∧ inRam cfg (blockBase a).toNat 16 = inRam cfg a.toNat 1

/-! ### Caches -/

/-- "(a) Cache hit determinism" and "(b) LRU correctness" (spec/20_memory.md R128). (a) A second read of an address with no
write to its block between (the cache is the one the first read left, and memory holds the same block) is a hit that returns
the same word; that it does so whatever memory has become is `CacheFillsOnReadMissOnly`. (b) Where two addresses of a set with
different tags were read one after the other, both lines are populated with them, and the next read that misses in that set
evicts the one read first and keeps the other. -/
def Obligations.CacheHitDeterminismAndLru : Prop :=
  (∀ (c : Cache) (m m' : Memory) (a : Word),
    (∀ k : Fin 4, Memory.word m' ((blockBase a).toNat + 4 * k.val) = Memory.word m ((blockBase a).toNat + 4 * k.val)) →
    let first := c.read m a
    let second := first.2.read m' a
    second.1 = first.1 ∧ second.2.hits = first.2.hits + 1 ∧ second.2.misses = first.2.misses)
  ∧ ∀ (c : Cache) (m1 m2 m3 : Memory) (a b x : Word),
    setIndex a = setIndex b → setIndex x = setIndex b → tagOf a ≠ tagOf b → tagOf x ≠ tagOf a → tagOf x ≠ tagOf b →
    let both := ((c.read m1 a).2.read m2 b).2
    let after := (both.read m3 x).2
    both.holds a ∧ both.holds b ∧ ¬ both.holds x ∧ after.misses = both.misses + 1
      ∧ ¬ after.holds a ∧ after.holds b ∧ after.holds x

/-- Every read and every write adds one to hits or to misses: to hits exactly where the cache holds the address
(spec/20_memory.md R121, R124, R125, R127). -/
def Obligations.CacheCountsEveryAccess : Prop :=
  ∀ (c : Cache) (m : Memory) (a v : Word) (n : Nat),
    (c.holds a →
      (c.read m a).2.hits = c.hits + 1 ∧ (c.read m a).2.misses = c.misses
      ∧ (c.write a n v).hits = c.hits + 1 ∧ (c.write a n v).misses = c.misses)
    ∧ (¬ c.holds a →
      (c.read m a).2.hits = c.hits ∧ (c.read m a).2.misses = c.misses + 1
      ∧ (c.write a n v).hits = c.hits ∧ (c.write a n v).misses = c.misses + 1)

/-- A read miss returns memory's word and fills the line with the whole block; a read hit returns the cached word and never
looks at memory, so a second read returns the first one's word whatever memory has become (own choice D28); a write miss allocates nothing and changes no line or recency (own choice D27), and a
write hit keeps the tags (spec/20_memory.md R124, R125, R129). -/
def Obligations.CacheFillsOnReadMissOnly : Prop :=
  ∀ (c : Cache) (m m' : Memory) (a v : Word) (n : Nat),
    (c.read m a).2.holds a
    ∧ (¬ c.holds a → ∀ k : Fin 4, ((c.read m a).2.read m' ((blockBase a) + BitVec.ofNat 32 (4 * k.val))).1
        = Memory.word m ((blockBase a).toNat + 4 * k.val))
    ∧ (c.holds a → c.read m' a = c.read m a)
    ∧ (let second := (c.read m a).2.read m' a
       second.1 = (c.read m a).1 ∧ second.2.hits = (c.read m a).2.hits + 1 ∧ second.2.misses = (c.read m a).2.misses)
    ∧ (¬ c.holds a → (c.write a n v).sets = c.sets)
    ∧ (∀ b : Word, (c.write a n v).holds b ↔ c.holds b)

/-- Fetch is not coherent with stores: whatever instruction ran, the I-cache is unchanged, and a fetch at an address that the
I-cache holds returns the old word, whatever memory now holds there (spec/20_memory.md R126, R131; spec/70_reset_and_hazards.md
R462). -/
def Obligations.StoresDoNotReachTheInstructionCache : Prop :=
  ∀ (i : Instr) (s t : State), exec i s = .next t →
    t.icache = s.icache
    ∧ (Fetchable t → s.icache.holds t.pc →
      ∃ w u, fetch t = .ok (w, u) ∧ w = (s.icache.read s.mem t.pc).1 ∧ ∀ m : Memory, fetch { t with mem := m } = .ok (w, { u with mem := m }))

/-! ### The cycle, traps and interrupts -/

/-- A step in a ready state that takes no interrupt fetches the word at the pc through the I-cache and runs exec of the
instruction it decodes to, in the state that the timer, mip and the fetch left (spec/30_encoding.md R170 to R173). Where the
I-cache does not hold the pc, that word is memory's, little-endian (spec/20_memory.md R96). exec itself moves the pc. -/
def Obligations.StepRunsDecodedInstruction : Prop :=
  ∀ (s : State) (i : Instr), Ready s → NoInterrupt s → Fetchable s →
    (decodeWord (s.icache.read s.mem s.pc).1 = .ok i →
      step s = exec i { beginCycle s with icache := (s.icache.read s.mem s.pc).2 })
    ∧ (¬ s.icache.holds s.pc →
      decodeBytes [Memory.read s.mem s.pc.toNat, Memory.read s.mem (s.pc.toNat + 1), Memory.read s.mem (s.pc.toNat + 2),
        Memory.read s.mem (s.pc.toNat + 3)] = .ok (i, []) →
      step s = exec i { beginCycle s with icache := (s.icache.read s.mem s.pc).2 })

/-- The exceptions of fetch and decode, the first stage to detect one reporting it: a pc that is not a multiple of 4 (cause 0),
a pc outside RAM (cause 1), a word that is no instruction (cause 2, the word in mtval, the fetch's I-cache effect kept)
(spec/30_encoding.md R171, R172, R174; codes, trap values, order and detection at fetch are own choices D6, D8, D9, D38). -/
def Obligations.FetchAndDecodeExceptions : Prop :=
  ∀ s : State, Ready s → NoInterrupt s →
    (s.pc.toNat % 4 ≠ 0 →
      ∃ t, step s = .next t ∧ TrapEntered (beginCycle s) t 0#32 s.pc (handlerAddress s.csr.mtvec 0))
    ∧ (s.pc.toNat % 4 = 0 → inRam s.cfg s.pc.toNat 4 = false →
      ∃ t, step s = .next t ∧ TrapEntered (beginCycle s) t 1#32 s.pc (handlerAddress s.csr.mtvec 1))
    ∧ (Fetchable s → (∀ i, decodeWord (s.icache.read s.mem s.pc).1 ≠ .ok i) →
      ∃ t, step s = .next t
        ∧ TrapEntered { beginCycle s with icache := (s.icache.read s.mem s.pc).2 } t 2#32 (s.icache.read s.mem s.pc).1
            (handlerAddress s.csr.mtvec 2))

/-- A pending enabled interrupt is taken before anything is fetched, external before timer before software, in a cycle that
executes no instruction (spec/60_exceptions.md R383 to R385, R390, R391; codes and bit places are own choices D8, D12, D16). -/
def Obligations.InterruptsAreTakenByPriority : Prop :=
  ∀ s : State, Ready s → s.csr.mstatus.getLsbD 3 = true →
    let p := (beginCycle s).csr.mip &&& s.csr.mie
    let code := if p.getLsbD 11 then 11 else if p.getLsbD 7 then 7 else 3
    p ≠ 0#32 →
    ∃ t, step s = .next t
      ∧ TrapEntered (beginCycle s) t (BitVec.ofNat 32 (2 ^ 31 + code)) 0#32 (handlerAddress s.csr.mtvec code)

/-- The start of every cycle: mtime advances by the cycle's draw modulo 2^64, mip is recomputed from the device latches, and
nothing else changes but the number of the next draw (spec/60_exceptions.md R380, R381, R426, R427; the draw is own choice
D18, the bits D16, source 0 D23). It holds for every value of the draw. -/
def Obligations.CycleStartsWithTimerAndMip : Prop :=
  ∀ s : State,
    let b := beginCycle s
    b.dev.mtime.toNat = (s.dev.mtime.toNat + Config.timerDraw s.draws) % 2 ^ 64
    ∧ (b.csr.mip.getLsbD 3 = true ↔ s.dev.msip ≠ 0#32)
    ∧ (b.csr.mip.getLsbD 7 = true ↔ s.dev.mtimecmp.toNat ≤ b.dev.mtime.toNat)
    ∧ (b.csr.mip.getLsbD 11 = true ↔
        ∃ k, 1 ≤ k ∧ k < 32 ∧ s.dev.plicPending.getLsbD k = true ∧ s.dev.plicEnable.getLsbD k = true)
    ∧ (∀ i < 32, i ≠ 3 → i ≠ 7 → i ≠ 11 → b.csr.mip.getLsbD i = false)
    ∧ { b with dev := s.dev, csr := s.csr, draws := s.draws } = s
    ∧ { b.dev with mtime := s.dev.mtime } = s.dev ∧ { b.csr with mip := s.csr.mip } = s.csr

/-- A halted state, a refused state and a configuration that breaks spec/00_scope.md R13 have no next state, and they stop
under their own names; every other state steps or is refused for a misaligned data access (spec/30_encoding.md R170,
spec/10_state.md R66, R67; log entries 5, 6 and 8 say how the model shows the stop). -/
def Obligations.OnlyNamedStopsStop : Prop :=
  ∀ s : State,
    (s.run = false → step s = .fault .halted)
    ∧ (s.run = true → s.refused = some .misalignedData → step s = .refused .misalignedData)
    ∧ (s.run = true → s.refused = some .badConfiguration → step s = .refused .badConfiguration)
    ∧ (s.run = true → s.refused = none → configValid s.cfg = false → step s = .refused .badConfiguration)
    ∧ (Ready s → (∃ t, step s = .next t) ∨ step s = .refused .misalignedData)

/-- Traps are precise and at most one is entered per cycle: a step either records no trap and completes one instruction
(instret + 1), or it appends one record and is the trap entry of that record in the state that the timer, mip and possibly the
fetch's I-cache effect left, so that nothing else has changed: every register, mie, mtvec, every other mstatus bit, every byte
of memory, the D-cache, the devices, instret, run, refused and the configuration (spec/60_exceptions.md R373, R385, R390,
R391, R397). The own choices of the spec in it (log entry 11): the base of mtvec D14, vectored exceptions D15, the bits D12 and
D16, what instret counts D29, the record's kinds D31. -/
def Obligations.TrapsArePrecise : Prop :=
  ∀ s t : State, step s = .next t →
    (t.traps = s.traps ∧ t.instret = s.instret + 1)
    ∨ ∃ r : TrapRecord, t.traps = s.traps ++ [r] ∧ t.run = true
        ∧ TrapEntered { beginCycle s with icache := t.icache } t r.cause r.tval
            (handlerAddress s.csr.mtvec (r.cause.toNat % 2 ^ 31))
        ∧ (t.icache = s.icache ∨ Fetchable s ∧ t.icache = (s.icache.read s.mem s.pc).2)
        ∧ (r.cls = .interrupt →
          s.csr.mstatus.getLsbD 3 = true ∧ (beginCycle s).csr.mip &&& s.csr.mie ≠ 0#32 ∧ t.icache = s.icache)

/-- A handler that changes neither mepc nor mstatus and then executes MRET comes back to the pc and the interrupt enable of
before the trap, for every exception and every interrupt (spec/46_system.md R333, spec/60_exceptions.md R394). -/
def Obligations.TrapRoundTrip : Prop :=
  ∀ (c : Cause) (tval : Word) (s h : State),
    h.csr.mepc = (takeTrap c tval s).csr.mepc → h.csr.mstatus = (takeTrap c tval s).csr.mstatus →
    ∃ u, exec .mret h = .next u ∧ u.pc = s.pc ∧ u.csr.mstatus.getLsbD 3 = s.csr.mstatus.getLsbD 3

/-- A handler address that cannot be fetched, in direct mode: every step enters the same trap again, with mepc = mtval = the
handler address and cause 1, for ever (spec/60_exceptions.md R395, spec/70_reset_and_hazards.md R455). The code 1, the trap
value, MIE at bit 3 and the base with bits 1:0 cleared are the spec's own choices D8, D9, D12, D14 (log entry 11). -/
def Obligations.UnfetchableHandlerLoops : Prop :=
  ∀ s : State, InTrapLoop s →
    ∃ t, step s = .next t ∧ InTrapLoop t ∧ t.pc = s.pc ∧ t.csr.mepc = s.pc ∧ t.csr.mtval = s.pc ∧ t.csr.mcause = 1#32
      ∧ t.csr.mtvec = s.csr.mtvec ∧ t.traps.length = s.traps.length + 1 ∧ t.instret = s.instret

/-- Only EBREAK ends a run: a step that leaves run = false took no interrupt, fetched the EBREAK word and left the pc at it
(spec/30_encoding.md R175, spec/70_reset_and_hazards.md R454). -/
def Obligations.OnlyEbreakHalts : Prop :=
  ∀ s t : State, step s = .next t → t.run = false →
    NoInterrupt s ∧ Fetchable s ∧ (s.icache.read s.mem s.pc).1 = 0x00100073#32 ∧ t.pc = s.pc ∧ t.traps = s.traps

/-- Who changes which CSR in the execute stage: mip nobody (it is the cycle's: own choice D16), mtvec and mie the six CSR
instructions, mepc, mcause and mtval those and a trap entry, mstatus those, a trap entry and MRET (spec/10_state.md R54 to R60,
spec/60_exceptions.md R390, R392). A trap entry shows in the trap records. -/
def Obligations.WhichEventChangesWhichCsr : Prop :=
  ∀ (i : Instr) (s t : State), exec i s = .next t →
    t.csr.mip = s.csr.mip
    ∧ (t.csr.mtvec ≠ s.csr.mtvec ∨ t.csr.mie ≠ s.csr.mie → i.accessesCsr = true)
    ∧ (t.csr.mepc ≠ s.csr.mepc ∨ t.csr.mcause ≠ s.csr.mcause ∨ t.csr.mtval ≠ s.csr.mtval →
      i.accessesCsr = true ∨ t.traps ≠ s.traps)
    ∧ (t.csr.mstatus ≠ s.csr.mstatus → i.accessesCsr = true ∨ i = .mret ∨ t.traps ≠ s.traps)
    ∧ (i.accessesCsr = true → t.traps = s.traps)

/-! ### Encoding -/

/-- `signedImmediate`: the I-immediate w[31:20] as it is where its bit 11 is 0, with 0xFFFFF000 set where it is 1
(spec/30_encoding.md R154). -/
def Obligations.ImmediateISignExtends : Prop :=
  ∀ w : Word,
    ((w >>> 20).getLsbD 11 = false → sext12 (Field.immI w) = w >>> 20)
    ∧ ((w >>> 20).getLsbD 11 = true → sext12 (Field.immI w) = (w >>> 20) ||| 0xFFFFF000#32)

/-- The S, B, U and J immediates bit by bit, and that a B or J offset is an even number in its range (spec/30_encoding.md
R155 to R158). Which word bit each immediate bit comes from is general knowledge in the spec (R153) and its own choice D1 (log
entry 11). -/
def Obligations.ImmediatesBitByBit : Prop :=
  ∀ w : Word,
    (∀ i < 32, (sext12 (Field.immS w)).getLsbD i =
      if i < 5 then w.getLsbD (i + 7) else if i < 12 then w.getLsbD (i + 20) else w.getLsbD 31)
    ∧ (∀ i < 32, (sext13 (Field.immB w)).getLsbD i =
      if i = 0 then false else if i < 5 then w.getLsbD (i + 7) else if i < 11 then w.getLsbD (i + 20)
      else if i = 11 then w.getLsbD 7 else w.getLsbD 31)
    ∧ (∀ i < 32, (upperImm (Field.immU w)).getLsbD i = if i < 12 then false else w.getLsbD i)
    ∧ (∀ i < 32, (sext21 (Field.immJ w)).getLsbD i =
      if i = 0 then false else if i < 11 then w.getLsbD (i + 20) else if i = 11 then w.getLsbD 20
      else if i < 20 then w.getLsbD i else w.getLsbD 31)
    ∧ (sext13 (Field.immB w)).toInt % 2 = 0 ∧ -4096 ≤ (sext13 (Field.immB w)).toInt ∧ (sext13 (Field.immB w)).toInt ≤ 4094
    ∧ (sext21 (Field.immJ w)).toInt % 2 = 0 ∧ -(2 ^ 20) ≤ (sext21 (Field.immJ w)).toInt
    ∧ (sext21 (Field.immJ w)).toInt ≤ 2 ^ 20 - 2

/-- Words of each family, written out from the spec's examples, and words the spec lists as illegal (spec/30_encoding.md R153,
R160, R161, R164; the numeric values are own choices D1 to D3). -/
def Obligations.SpecWordsDecode : Prop :=
  decodeWord 0x00500093#32 = .ok (.addi 1#5 0#5 5#12)
  ∧ decodeWord 0x40415193#32 = .ok (.srai 3#5 2#5 4#5)
  ∧ decodeWord 0x402081B3#32 = .ok (.sub 3#5 1#5 2#5)
  ∧ decodeWord 0x0220A1B3#32 = .ok (.mulhsu 3#5 1#5 2#5)
  ∧ decodeWord 0xFFC12183#32 = .ok (.lw 3#5 2#5 0xFFC#12)
  ∧ decodeWord 0x00209323#32 = .ok (.sh 1#5 2#5 6#12)
  ∧ decodeWord 0xFE011CE3#32 = .ok (.bne 2#5 0#5 0x1FF8#13)
  ∧ decodeWord 0x800000EF#32 = .ok (.jal 1#5 0x100000#21)
  ∧ decodeWord 0x003282E7#32 = .ok (.jalr 5#5 5#5 3#12)
  ∧ decodeWord 0xFFFFF197#32 = .ok (.auipc 3#5 0xFFFFF#20)
  ∧ decodeWord 0x30200073#32 = .ok .mret
  ∧ decodeWord 0x3052D1F3#32 = .ok (.csrrwi 3#5 5#5 0x305#12)
  ∧ decodeWord 0x0000000F#32 = .error .opcode
  ∧ decodeWord 0x0000B183#32 = .error .funct3
  ∧ decodeWord 0x02109193#32 = .error .funct7
  ∧ decodeWord 0x10500073#32 = .error .systemWord

/-- Decode undoes encode for every well-formed instruction of all 54 kinds, at every operand value. -/
def Obligations.DecodeUndoesEncode : Prop :=
  ∀ i : Instr, i.wellFormed = true → decodeWord (encode i) = .ok i

/-- Encode undoes decode: a word that decodes is the encoding of the instruction, which is well-formed, so no bit of a legal
word is ignored and no two words decode to one instruction. -/
def Obligations.EncodeUndoesDecode : Prop :=
  ∀ (w : Word) (i : Instr), decodeWord w = .ok i → encode i = w ∧ i.wellFormed = true

/-- The decoder accepts a word exactly where some row of spec/opcode_table.json matches it, and no two rows match one word
(spec/30_encoding.md R162 to R164; strict decoding is own choice D2). -/
def Obligations.DecoderAcceptsExactlyTheTable : Prop :=
  (∀ w : Word, (∃ i, decodeWord w = .ok i) ↔ ∃ row ∈ opcodeRows, w &&& row.1 = row.2)
  ∧ ∀ w : Word, (opcodeRows.filter (fun row => w &&& row.1 == row.2)).length ≤ 1

/-! ### Reset -/

/-- The state after reset (spec/70_reset_and_hazards.md R450, R451; spec/10_state.md R71): every element that the spec gives
the machine. Every value is the spec's own choice D32 but for the caches' invalid lines; the configuration is the test
configuration (log entry 1) and memory lists nothing (log entry 2). The one field left out is the model's own draw counter, on
whose value no statement rests (log entry 3). -/
def Obligations.ResetState : Prop :=
  (∀ r : Reg, State.reset.reg r = 0#32) ∧ State.reset.pc = 0x80000000#32
  ∧ (∀ n : CsrNum, State.reset.csr.read n = 0#32)
  ∧ (∀ a : Word, ¬ State.reset.icache.holds a ∧ ¬ State.reset.dcache.holds a)
  ∧ (∀ (i : Fin 8) (w : Way),
      (State.reset.icache.sets[i].line w).valid = false ∧ (State.reset.icache.sets[i].line w).tag = 0#25
      ∧ (∀ k : Fin 4, (State.reset.icache.sets[i].line w).block[k] = 0#32)
      ∧ (State.reset.icache.sets[i].line w).recency = 0)
  ∧ State.reset.icache.hits = 0 ∧ State.reset.icache.misses = 0 ∧ State.reset.dcache = State.reset.icache
  ∧ State.reset.mem = [] ∧ (∀ r : DevReg, State.reset.dev.value r = 0#32) ∧ State.reset.dev.uartOut = []
  ∧ State.reset.run = true ∧ State.reset.refused = none ∧ State.reset.instret = 0 ∧ State.reset.traps = []
  ∧ State.reset.cfg = Config.test ∧ configValid State.reset.cfg = true

/-- Power-on refuses a configuration that breaks R13 or an image byte outside RAM, and then no step is taken; otherwise the
state is the reset state of that configuration, every byte the image sets holds the image's last byte for it, and every
other RAM byte the draw's last one (spec/70_reset_and_hazards.md R450, R452; own choice D33, D42). -/
def Obligations.PowerOnLoadsImageOverDraw : Prop :=
  ∀ (cfg : Config) (draw image : List Host.Cell),
    (configValid cfg = false ∨ (∃ c ∈ image, inRam cfg c.1 1 = false) →
      (powerOn cfg draw image).refused = some .badConfiguration
      ∧ step (powerOn cfg draw image) = .refused .badConfiguration)
    ∧ (configValid cfg = true → (∀ c ∈ image, inRam cfg c.1 1 = true) →
      powerOn cfg draw image = State.resetWith cfg (powerOn cfg draw image).mem
      ∧ (∀ (a : Nat) (x : Host.Cell), image.reverse.find? (fun c => decide (c.1 = a)) = some x →
          Memory.read (powerOn cfg draw image).mem a = x.2)
      ∧ (∀ (a : Nat) (x : Host.Cell), (∀ c ∈ image, c.1 ≠ a) → inRam cfg a 1 = true →
          draw.reverse.find? (fun c => decide (c.1 = a)) = some x → Memory.read (powerOn cfg draw image).mem a = x.2))

/-! ### Invariants of the machine -/

/-- Every step keeps the machine's invariant (Sys2Proof/Safety.lean `State.Inv`): memory is canonical and inside RAM, no set
holds a tag twice (spec/10_state.md R63), the D-cache agrees with memory (spec/20_memory.md R130), every cached block lies in
RAM, and mip has no bit but 3, 7 and 11 (R60). -/
def Obligations.StepKeepsInvariant : Prop :=
  ∀ s t : State, s.Inv → step s = .next t → t.Inv

/-- The invariant holds in the reset state. -/
def Obligations.ResetMeetsInvariant : Prop := State.reset.Inv

/-- The invariant holds after power-on with every configuration, draw and image. -/
def Obligations.PowerOnMeetsInvariant : Prop :=
  ∀ (cfg : Config) (draw image : List Host.Cell), (powerOn cfg draw image).Inv

/-- What every step leaves alone or counts: the configuration stays, the step reads one timer draw, no step clears or sets a
refusal, trap records and terminal output only grow, and instret and each of the four cache counters never fall and rise by at
most one, hits and misses of one cache not both (spec/10_state.md R67, R68, R70; spec/20_memory.md R127). What instret counts,
and that counters are unbounded, is the spec's own choice D29 (log entry 11); the draw counter is the model's own (log entry
3). -/
def Obligations.StepOnlyAddsToRecords : Prop :=
  ∀ s t : State, step s = .next t →
    t.cfg = s.cfg ∧ t.draws = s.draws + 1 ∧ t.refused = none ∧ s.run = true
    ∧ s.traps <+: t.traps ∧ s.dev.uartOut <+: t.dev.uartOut
    ∧ s.instret ≤ t.instret ∧ t.instret ≤ s.instret + 1
    ∧ s.icache.hits ≤ t.icache.hits ∧ s.icache.misses ≤ t.icache.misses
    ∧ t.icache.hits + t.icache.misses ≤ s.icache.hits + s.icache.misses + 1
    ∧ s.dcache.hits ≤ t.dcache.hits ∧ s.dcache.misses ≤ t.dcache.misses
    ∧ t.dcache.hits + t.dcache.misses ≤ s.dcache.hits + s.dcache.misses + 1

/-- No program can see instret, the cache counters, the trap records or the terminal output: two states that differ in those
alone step to states that differ in those alone, or stop alike (spec/60_exceptions.md R440, spec/10_state.md R68, R70). -/
def Obligations.CountersAreInvisible : Prop :=
  ∀ s t : State, s.visible = t.visible → SameVisible (step s) (step t)
end

