-- ==== Sys2Proof/Laws/Memory.lean ====
section
/-! SUPPORT. The laws of the backing memory: a read after a write, and that every memory operation keeps the canonical form and the RAM window. -/

namespace Sys2Proof.Machine

/-! ### Reads after writes -/

theorem Memory.read_remove (m : Memory) (a q : Nat) :
    Memory.read (Memory.remove m a) q = if q = a then Memory.unlisted a else Memory.read m q := by
  induction m with
  | nil => simp [Memory.remove, Memory.read, Memory.unlisted]
  | cons c m ih =>
    obtain ⟨k, v⟩ := c
    simp only [Memory.remove, List.filter_cons, bne_iff_ne] at ih ⊢
    by_cases hk : k = a
    · subst hk
      rw [if_neg (by simp), ih, Memory.read]
      by_cases hq : q = k
      · rw [if_pos hq, if_pos hq]
      · rw [if_neg hq, if_neg hq, if_neg (Ne.symm hq)]
    · rw [if_pos hk, Memory.read, Memory.read, ih]
      by_cases hq : k = q
      · rw [if_pos hq, if_pos hq, if_neg (hq ▸ hk)]
      · rw [if_neg hq, if_neg hq]

theorem Memory.read_insert (m : Memory) (a : Nat) (b : Byte) (q : Nat) (fresh : ∀ c ∈ m, c.1 ≠ a) :
    Memory.read (Memory.insert m a b) q = if q = a then b else Memory.read m q := by
  induction m with
  | nil => simp [Memory.insert, Memory.read, eq_comm]
  | cons c m ih =>
    obtain ⟨k, v⟩ := c
    have hk : k ≠ a := fresh (k, v) (by simp)
    have ih := ih (fun c hc => fresh c (by simp [hc]))
    by_cases lt : a < k
    · by_cases h : q = a
      · simp [Memory.insert, Memory.read, lt, h]
      · simp [Memory.insert, Memory.read, lt, h, Ne.symm h]
    · by_cases hq : k = q
      · subst hq
        simp [Memory.insert, Memory.read, lt, hk]
      · simp [Memory.insert, Memory.read, lt, hq, ih]

theorem Memory.remove_fresh (m : Memory) (a : Nat) : ∀ c ∈ Memory.remove m a, c.1 ≠ a := by
  intro c hc
  simpa using (List.mem_filter.mp hc).2

/-- A read after a write: the byte written at that address, and every other address as before. -/
@[simp] theorem Memory.read_write (m : Memory) (a : Nat) (b : Byte) (q : Nat) :
    Memory.read (Memory.write m a b) q = if q = a then b else Memory.read m q := by
  unfold Memory.write
  by_cases hb : b = Memory.unlisted a
  · rw [if_pos hb, Memory.read_remove, hb]
  · rw [if_neg hb, Memory.read_insert _ _ _ _ (Memory.remove_fresh m a), Memory.read_remove]
    by_cases h : q = a <;> simp [h]

/-- A read after `n` bytes of `v` are written from `a` up. -/
theorem Memory.read_writeBytes (m : Memory) (a : Nat) (v : Word) (n q : Nat) :
    Memory.read (Memory.writeBytes m a v n) q
      = if a ≤ q ∧ q < a + n then byteOfWord v (q - a) else Memory.read m q := by
  induction n with
  | zero =>
    rw [if_neg (by omega), Memory.writeBytes]
  | succ n ih =>
    rw [Memory.writeBytes, Memory.read_write, ih]
    by_cases e : q = a + n
    · have : a ≤ q ∧ q < a + (n + 1) := by omega
      simp [e]
    · by_cases h : a ≤ q ∧ q < a + n
      · have : a ≤ q ∧ q < a + (n + 1) := by omega
        simp [e, h, this]
      · have : ¬ (a ≤ q ∧ q < a + (n + 1)) := by omega
        rw [if_neg e, if_neg h, if_neg this]

/-! ### The canonical form -/

theorem Memory.wf_nil : Memory.wf [] := ⟨List.Pairwise.nil, by simp⟩

theorem Memory.wf_remove {m : Memory} (h : Memory.wf m) (a : Nat) : Memory.wf (Memory.remove m a) :=
  ⟨h.1.filter _, fun c hc => h.2 c (List.mem_filter.mp hc).1⟩

theorem Memory.mem_insert {m : Memory} {a : Nat} {b : Byte} {c : Host.Cell} (hc : c ∈ Memory.insert m a b) :
    c = (a, b) ∨ c ∈ m := by
  induction m with
  | nil => simpa [Memory.insert] using hc
  | cons d m ih =>
    obtain ⟨k, v⟩ := d
    by_cases lt : a < k
    · simpa [Memory.insert, lt] using hc
    · rw [Memory.insert, if_neg lt] at hc
      rcases List.mem_cons.mp hc with rfl | hc
      · exact .inr (by simp)
      · exact (ih hc).imp_right (List.mem_cons_of_mem _)

theorem Memory.wf_insert {m : Memory} (h : Memory.wf m) {a : Nat} {b : Byte} (fresh : ∀ c ∈ m, c.1 ≠ a)
    (hb : b ≠ Memory.unlisted a) : Memory.wf (Memory.insert m a b) := by
  refine ⟨?_, ?_⟩
  · induction m with
    | nil => simp [Memory.insert]
    | cons d m ih =>
      obtain ⟨k, v⟩ := d
      obtain ⟨⟨hd, hm⟩, hv⟩ := And.imp_left List.pairwise_cons.mp h
      have hk : k ≠ a := fresh (k, v) (by simp)
      by_cases lt : a < k
      · rw [Memory.insert, if_pos lt]
        refine List.pairwise_cons.mpr ⟨?_, h.1⟩
        intro c hc
        rcases List.mem_cons.mp hc with rfl | hc
        · exact lt
        · exact lt.trans (hd c hc)
      · rw [Memory.insert, if_neg lt]
        refine List.pairwise_cons.mpr ⟨?_, ih ⟨hm, fun c hc => hv c (by simp [hc])⟩ (fun c hc => fresh c (by simp [hc]))⟩
        intro c hc
        rcases Memory.mem_insert hc with rfl | hc
        · show k < a
          omega
        · exact hd c hc
  · intro c hc
    rcases Memory.mem_insert hc with rfl | hc
    · exact hb
    · exact h.2 c hc

/-- A write keeps the canonical form. -/
theorem Memory.wf_write {m : Memory} (h : Memory.wf m) (a : Nat) (b : Byte) : Memory.wf (Memory.write m a b) := by
  unfold Memory.write
  by_cases hb : b = Memory.unlisted a
  · rw [if_pos hb]
    exact Memory.wf_remove h a
  · rw [if_neg hb]
    exact Memory.wf_insert (Memory.wf_remove h a) (Memory.remove_fresh m a) hb

theorem Memory.wf_writeBytes {m : Memory} (h : Memory.wf m) (a : Nat) (v : Word) (n : Nat) :
    Memory.wf (Memory.writeBytes m a v n) := by
  induction n with
  | zero => exact h
  | succ n ih => exact Memory.wf_write ih _ _

theorem Memory.wf_loadBytes (cells : List Host.Cell) {m : Memory} (h : Memory.wf m) : Memory.wf (loadBytes cells m) := by
  induction cells generalizing m with
  | nil => exact h
  | cons c cells ih => exact ih (Memory.wf_write h _ _)

theorem Memory.wf_initialMemory (cfg : Config) (draw image : List Host.Cell) : Memory.wf (initialMemory cfg draw image) :=
  Memory.wf_loadBytes _ (Memory.wf_loadBytes _ Memory.wf_nil)

/-- The memory of the reset state is canonical. -/
theorem reset_mem_wf : Memory.wf State.reset.mem := Memory.wf_nil

/-- Placing a word at the pc keeps the canonical form. -/
theorem Memory.wf_withFetchWord {s : State} (h : Memory.wf s.mem) (nbits w : Nat) :
    Memory.wf (s.withFetchWord nbits w).mem := Memory.wf_writeBytes h _ _ _

/-! ### The RAM window -/

theorem Memory.inWindow_write {m : Memory} {cfg : Config} (h : Memory.inWindow m cfg) {a : Nat} (b : Byte)
    (ha : inRam cfg a 1 = true) : Memory.inWindow (Memory.write m a b) cfg := by
  have hr : Memory.inWindow (Memory.remove m a) cfg := fun c hc => h c (List.mem_filter.mp hc).1
  unfold Memory.write
  split
  · exact hr
  · intro c hc
    rcases Memory.mem_insert hc with rfl | hc
    · exact ha
    · exact hr c hc

/-- A byte of an access that lies in RAM lies in RAM. -/
theorem inRam_byte {cfg : Config} {a n : Nat} (h : inRam cfg a n = true) {k : Nat} (hk : k < n) :
    inRam cfg (a + k) 1 = true := by
  simp only [inRam, Bool.and_eq_true, decide_eq_true_eq] at h ⊢
  omega

theorem Memory.inWindow_writeBytes {m : Memory} {cfg : Config} (h : Memory.inWindow m cfg) {a n : Nat} (v : Word)
    (ha : inRam cfg a n = true) : ∀ k, k ≤ n → Memory.inWindow (Memory.writeBytes m a v k) cfg
  | 0, _ => h
  | k + 1, hk => Memory.inWindow_write (Memory.inWindow_writeBytes h v ha k (by omega)) _ (inRam_byte ha (by omega))

end Sys2Proof.Machine
end

