-- ==== Sys2Proof/Laws/State.lean ====
section
/-! SUPPORT. The small lemmas of State: one per field per update, and what a register read gives after each update. -/

namespace Sys2Proof.Machine

/-! ### setReg -/

@[simp] theorem State.setReg_regs (s : State) (r : Reg) (v : Word) : (s.setReg r v).regs = if r = 0#5 then s.regs else s.regs.set r.toNat v r.isLt := rfl
@[simp] theorem State.setReg_pc (s : State) (r : Reg) (v : Word) : (s.setReg r v).pc = s.pc := rfl
@[simp] theorem State.setReg_csr (s : State) (r : Reg) (v : Word) : (s.setReg r v).csr = s.csr := rfl
@[simp] theorem State.setReg_icache (s : State) (r : Reg) (v : Word) : (s.setReg r v).icache = s.icache := rfl
@[simp] theorem State.setReg_dcache (s : State) (r : Reg) (v : Word) : (s.setReg r v).dcache = s.dcache := rfl
@[simp] theorem State.setReg_mem (s : State) (r : Reg) (v : Word) : (s.setReg r v).mem = s.mem := rfl
@[simp] theorem State.setReg_dev (s : State) (r : Reg) (v : Word) : (s.setReg r v).dev = s.dev := rfl
@[simp] theorem State.setReg_run (s : State) (r : Reg) (v : Word) : (s.setReg r v).run = s.run := rfl
@[simp] theorem State.setReg_refused (s : State) (r : Reg) (v : Word) : (s.setReg r v).refused = s.refused := rfl
@[simp] theorem State.setReg_instret (s : State) (r : Reg) (v : Word) : (s.setReg r v).instret = s.instret := rfl
@[simp] theorem State.setReg_traps (s : State) (r : Reg) (v : Word) : (s.setReg r v).traps = s.traps := rfl
@[simp] theorem State.setReg_cfg (s : State) (r : Reg) (v : Word) : (s.setReg r v).cfg = s.cfg := rfl
@[simp] theorem State.setReg_draws (s : State) (r : Reg) (v : Word) : (s.setReg r v).draws = s.draws := rfl

/-! ### completeAt -/

@[simp] theorem State.completeAt_regs (s : State) (target : Word) : (s.completeAt target).regs = s.regs := rfl
@[simp] theorem State.completeAt_pc (s : State) (target : Word) : (s.completeAt target).pc = target := rfl
@[simp] theorem State.completeAt_csr (s : State) (target : Word) : (s.completeAt target).csr = s.csr := rfl
@[simp] theorem State.completeAt_icache (s : State) (target : Word) : (s.completeAt target).icache = s.icache := rfl
@[simp] theorem State.completeAt_dcache (s : State) (target : Word) : (s.completeAt target).dcache = s.dcache := rfl
@[simp] theorem State.completeAt_mem (s : State) (target : Word) : (s.completeAt target).mem = s.mem := rfl
@[simp] theorem State.completeAt_dev (s : State) (target : Word) : (s.completeAt target).dev = s.dev := rfl
@[simp] theorem State.completeAt_run (s : State) (target : Word) : (s.completeAt target).run = s.run := rfl
@[simp] theorem State.completeAt_refused (s : State) (target : Word) : (s.completeAt target).refused = s.refused := rfl
@[simp] theorem State.completeAt_instret (s : State) (target : Word) : (s.completeAt target).instret = s.instret + 1 := rfl
@[simp] theorem State.completeAt_traps (s : State) (target : Word) : (s.completeAt target).traps = s.traps := rfl
@[simp] theorem State.completeAt_cfg (s : State) (target : Word) : (s.completeAt target).cfg = s.cfg := rfl
@[simp] theorem State.completeAt_draws (s : State) (target : Word) : (s.completeAt target).draws = s.draws := rfl

/-! ### complete -/

@[simp] theorem State.complete_regs (s : State) : s.complete.regs = s.regs := rfl
@[simp] theorem State.complete_pc (s : State) : s.complete.pc = s.pc + 4#32 := rfl
@[simp] theorem State.complete_csr (s : State) : s.complete.csr = s.csr := rfl
@[simp] theorem State.complete_icache (s : State) : s.complete.icache = s.icache := rfl
@[simp] theorem State.complete_dcache (s : State) : s.complete.dcache = s.dcache := rfl
@[simp] theorem State.complete_mem (s : State) : s.complete.mem = s.mem := rfl
@[simp] theorem State.complete_dev (s : State) : s.complete.dev = s.dev := rfl
@[simp] theorem State.complete_run (s : State) : s.complete.run = s.run := rfl
@[simp] theorem State.complete_refused (s : State) : s.complete.refused = s.refused := rfl
@[simp] theorem State.complete_instret (s : State) : s.complete.instret = s.instret + 1 := rfl
@[simp] theorem State.complete_traps (s : State) : s.complete.traps = s.traps := rfl
@[simp] theorem State.complete_cfg (s : State) : s.complete.cfg = s.cfg := rfl
@[simp] theorem State.complete_draws (s : State) : s.complete.draws = s.draws := rfl

/-! ### setCsr -/

@[simp] theorem State.setCsr_regs (s : State) (n : CsrNum) (v : Word) : (s.setCsr n v).regs = s.regs := rfl
@[simp] theorem State.setCsr_pc (s : State) (n : CsrNum) (v : Word) : (s.setCsr n v).pc = s.pc := rfl
@[simp] theorem State.setCsr_csr (s : State) (n : CsrNum) (v : Word) : (s.setCsr n v).csr = s.csr.write n v := rfl
@[simp] theorem State.setCsr_icache (s : State) (n : CsrNum) (v : Word) : (s.setCsr n v).icache = s.icache := rfl
@[simp] theorem State.setCsr_dcache (s : State) (n : CsrNum) (v : Word) : (s.setCsr n v).dcache = s.dcache := rfl
@[simp] theorem State.setCsr_mem (s : State) (n : CsrNum) (v : Word) : (s.setCsr n v).mem = s.mem := rfl
@[simp] theorem State.setCsr_dev (s : State) (n : CsrNum) (v : Word) : (s.setCsr n v).dev = s.dev := rfl
@[simp] theorem State.setCsr_run (s : State) (n : CsrNum) (v : Word) : (s.setCsr n v).run = s.run := rfl
@[simp] theorem State.setCsr_refused (s : State) (n : CsrNum) (v : Word) : (s.setCsr n v).refused = s.refused := rfl
@[simp] theorem State.setCsr_instret (s : State) (n : CsrNum) (v : Word) : (s.setCsr n v).instret = s.instret := rfl
@[simp] theorem State.setCsr_traps (s : State) (n : CsrNum) (v : Word) : (s.setCsr n v).traps = s.traps := rfl
@[simp] theorem State.setCsr_cfg (s : State) (n : CsrNum) (v : Word) : (s.setCsr n v).cfg = s.cfg := rfl
@[simp] theorem State.setCsr_draws (s : State) (n : CsrNum) (v : Word) : (s.setCsr n v).draws = s.draws := rfl

/-! ### takeTrap -/

@[simp] theorem State.takeTrap_regs (c : Cause) (tval : Word) (s : State) : (takeTrap c tval s).regs = s.regs := rfl
@[simp] theorem State.takeTrap_pc (c : Cause) (tval : Word) (s : State) : (takeTrap c tval s).pc = trapTarget s.csr.mtvec c := rfl
@[simp] theorem State.takeTrap_csr (c : Cause) (tval : Word) (s : State) : (takeTrap c tval s).csr = { s.csr with mepc := s.pc, mcause := c.mcause, mtval := tval, mstatus := trapStatus s.csr.mstatus } := rfl
@[simp] theorem State.takeTrap_icache (c : Cause) (tval : Word) (s : State) : (takeTrap c tval s).icache = s.icache := rfl
@[simp] theorem State.takeTrap_dcache (c : Cause) (tval : Word) (s : State) : (takeTrap c tval s).dcache = s.dcache := rfl
@[simp] theorem State.takeTrap_mem (c : Cause) (tval : Word) (s : State) : (takeTrap c tval s).mem = s.mem := rfl
@[simp] theorem State.takeTrap_dev (c : Cause) (tval : Word) (s : State) : (takeTrap c tval s).dev = s.dev := rfl
@[simp] theorem State.takeTrap_run (c : Cause) (tval : Word) (s : State) : (takeTrap c tval s).run = s.run := rfl
@[simp] theorem State.takeTrap_refused (c : Cause) (tval : Word) (s : State) : (takeTrap c tval s).refused = s.refused := rfl
@[simp] theorem State.takeTrap_instret (c : Cause) (tval : Word) (s : State) : (takeTrap c tval s).instret = s.instret := rfl
@[simp] theorem State.takeTrap_traps (c : Cause) (tval : Word) (s : State) : (takeTrap c tval s).traps = s.traps ++ [⟨c.trapClass, c, c.mcause, s.pc, tval⟩] := rfl
@[simp] theorem State.takeTrap_cfg (c : Cause) (tval : Word) (s : State) : (takeTrap c tval s).cfg = s.cfg := rfl
@[simp] theorem State.takeTrap_draws (c : Cause) (tval : Word) (s : State) : (takeTrap c tval s).draws = s.draws := rfl

/-! ### trapReturn -/

@[simp] theorem State.trapReturn_regs (s : State) : (trapReturn s).regs = s.regs := rfl
@[simp] theorem State.trapReturn_pc (s : State) : (trapReturn s).pc = s.csr.mepc := rfl
@[simp] theorem State.trapReturn_csr (s : State) : (trapReturn s).csr = { s.csr with mstatus := returnStatus s.csr.mstatus } := rfl
@[simp] theorem State.trapReturn_icache (s : State) : (trapReturn s).icache = s.icache := rfl
@[simp] theorem State.trapReturn_dcache (s : State) : (trapReturn s).dcache = s.dcache := rfl
@[simp] theorem State.trapReturn_mem (s : State) : (trapReturn s).mem = s.mem := rfl
@[simp] theorem State.trapReturn_dev (s : State) : (trapReturn s).dev = s.dev := rfl
@[simp] theorem State.trapReturn_run (s : State) : (trapReturn s).run = s.run := rfl
@[simp] theorem State.trapReturn_refused (s : State) : (trapReturn s).refused = s.refused := rfl
@[simp] theorem State.trapReturn_instret (s : State) : (trapReturn s).instret = s.instret := rfl
@[simp] theorem State.trapReturn_traps (s : State) : (trapReturn s).traps = s.traps := rfl
@[simp] theorem State.trapReturn_cfg (s : State) : (trapReturn s).cfg = s.cfg := rfl
@[simp] theorem State.trapReturn_draws (s : State) : (trapReturn s).draws = s.draws := rfl

/-! ### beginCycle -/

@[simp] theorem State.beginCycle_regs (s : State) : (beginCycle s).regs = s.regs := rfl
@[simp] theorem State.beginCycle_pc (s : State) : (beginCycle s).pc = s.pc := rfl
@[simp] theorem State.beginCycle_csr (s : State) : (beginCycle s).csr = { s.csr with mip := computeMip (s.dev.advanceTimer (Config.timerDraw s.draws)) } := rfl
@[simp] theorem State.beginCycle_icache (s : State) : (beginCycle s).icache = s.icache := rfl
@[simp] theorem State.beginCycle_dcache (s : State) : (beginCycle s).dcache = s.dcache := rfl
@[simp] theorem State.beginCycle_mem (s : State) : (beginCycle s).mem = s.mem := rfl
@[simp] theorem State.beginCycle_dev (s : State) : (beginCycle s).dev = s.dev.advanceTimer (Config.timerDraw s.draws) := rfl
@[simp] theorem State.beginCycle_run (s : State) : (beginCycle s).run = s.run := rfl
@[simp] theorem State.beginCycle_refused (s : State) : (beginCycle s).refused = s.refused := rfl
@[simp] theorem State.beginCycle_instret (s : State) : (beginCycle s).instret = s.instret := rfl
@[simp] theorem State.beginCycle_traps (s : State) : (beginCycle s).traps = s.traps := rfl
@[simp] theorem State.beginCycle_cfg (s : State) : (beginCycle s).cfg = s.cfg := rfl
@[simp] theorem State.beginCycle_draws (s : State) : (beginCycle s).draws = s.draws + 1 := rfl

/-! ### resetWith -/

@[simp] theorem State.resetWith_regs (c : Config) (m : Memory) : (State.resetWith c m).regs = Vector.replicate 32 0#32 := rfl
@[simp] theorem State.resetWith_pc (c : Config) (m : Memory) : (State.resetWith c m).pc = c.ramBase := rfl
@[simp] theorem State.resetWith_csr (c : Config) (m : Memory) : (State.resetWith c m).csr = CsrFile.reset := rfl
@[simp] theorem State.resetWith_icache (c : Config) (m : Memory) : (State.resetWith c m).icache = Cache.reset := rfl
@[simp] theorem State.resetWith_dcache (c : Config) (m : Memory) : (State.resetWith c m).dcache = Cache.reset := rfl
@[simp] theorem State.resetWith_mem (c : Config) (m : Memory) : (State.resetWith c m).mem = m := rfl
@[simp] theorem State.resetWith_dev (c : Config) (m : Memory) : (State.resetWith c m).dev = DevState.reset := rfl
@[simp] theorem State.resetWith_run (c : Config) (m : Memory) : (State.resetWith c m).run = true := rfl
@[simp] theorem State.resetWith_refused (c : Config) (m : Memory) : (State.resetWith c m).refused = none := rfl
@[simp] theorem State.resetWith_instret (c : Config) (m : Memory) : (State.resetWith c m).instret = 0 := rfl
@[simp] theorem State.resetWith_traps (c : Config) (m : Memory) : (State.resetWith c m).traps = [] := rfl
@[simp] theorem State.resetWith_cfg (c : Config) (m : Memory) : (State.resetWith c m).cfg = c := rfl
@[simp] theorem State.resetWith_draws (c : Config) (m : Memory) : (State.resetWith c m).draws = 0 := rfl

/-! ### A register read after an update -/

@[simp] theorem State.reg_zero (s : State) : s.reg 0#5 = 0#32 := rfl

/-- `x[r]` depends on the register file alone. -/
theorem State.reg_congr {s t : State} (h : s.regs = t.regs) (r : Reg) : s.reg r = t.reg r := by
  simp only [State.reg, h]

/-- `x[r]` after `x[q] <- v`: v where r = q and q is not x0 (spec/10_state.md R41). -/
theorem State.reg_setReg (s : State) (q : Reg) (v : Word) (r : Reg) :
    (s.setReg q v).reg r = if r = q ∧ q ≠ 0#5 then v else s.reg r := by
  by_cases hr : r = 0#5
  · subst hr
    by_cases hq : q = 0#5
    · simp [hq]
    · simp [Ne.symm hq]
  · by_cases hq : q = 0#5
    · subst hq
      simp [State.reg, hr]
    · by_cases e : r = q
      · subst e
        simp [State.reg, hr]
      · have hn : q.toNat ≠ r.toNat := fun h => e (BitVec.eq_of_toNat_eq h.symm)
        simp [State.reg, hr, hq, e, hn]

@[simp] theorem State.reg_completeAt (s : State) (target : Word) (r : Reg) : (s.completeAt target).reg r = s.reg r := rfl
@[simp] theorem State.reg_complete (s : State) (r : Reg) : s.complete.reg r = s.reg r := rfl
@[simp] theorem State.reg_setCsr (s : State) (n : CsrNum) (v : Word) (r : Reg) : (s.setCsr n v).reg r = s.reg r := rfl
@[simp] theorem State.reg_takeTrap (c : Cause) (tval : Word) (s : State) (r : Reg) : (takeTrap c tval s).reg r = s.reg r := rfl
@[simp] theorem State.reg_trapReturn (s : State) (r : Reg) : (trapReturn s).reg r = s.reg r := rfl
@[simp] theorem State.reg_beginCycle (s : State) (r : Reg) : (beginCycle s).reg r = s.reg r := rfl

end Sys2Proof.Machine
end

