-- ==== Sys2Proof/Laws/Ops.lean ====
section
/-! SUPPORT. One law per shared operation, saying once everything it can do: the access paths, the instruction shapes, what an instruction can do to memory and the caches, and the step. -/

namespace Sys2Proof.Machine

/-! ### The access paths (spec/20_memory.md R100 to R102) -/

theorem memRead_misaligned {addr : Word} {n : Width} {s : State} (h : addr.toNat % n.bytes ≠ 0) :
    memRead addr n s = .misaligned := if_pos h

theorem memRead_device {addr : Word} {n : Width} {s : State} {r : DevReg} (h : addr.toNat % n.bytes = 0)
    (hr : devAt s.cfg addr = some r) :
    memRead addr n s
      = .done (takeBytes (s.dev.value r) (r.offset s.cfg addr) n.bytes) { s with dev := s.dev.afterRead r } := by
  simp only [memRead, h, ne_eq, not_true_eq_false, if_false, hr]

theorem memRead_ram {addr : Word} {n : Width} {s : State} (h : RamAccess s addr n.bytes) :
    memRead addr n s
      = .done (takeBytes (s.dcache.read s.mem addr).1 (byteLane addr) n.bytes)
          { s with dcache := (s.dcache.read s.mem addr).2 } := by
  simp only [memRead, h.1, ne_eq, not_true_eq_false, if_false, h.2.1, h.2.2, if_true]

theorem memRead_unmapped {addr : Word} {n : Width} {s : State} (h : UnmappedAccess s addr n.bytes) :
    memRead addr n s = .fault := by
  simp [memRead, h.1, h.2.1, h.2.2]

/-- What a load that is done was: a device register or the D-cache. -/
theorem memRead_done {addr : Word} {n : Width} {s u : State} {v : Word} (h : memRead addr n s = .done v u) :
    (∃ r, addr.toNat % n.bytes = 0 ∧ devAt s.cfg addr = some r
      ∧ v = takeBytes (s.dev.value r) (r.offset s.cfg addr) n.bytes ∧ u = { s with dev := s.dev.afterRead r })
    ∨ (RamAccess s addr n.bytes ∧ v = takeBytes (s.dcache.read s.mem addr).1 (byteLane addr) n.bytes
      ∧ u = { s with dcache := (s.dcache.read s.mem addr).2 }) := by
  unfold memRead at h
  split at h
  · cases h
  · rename_i al
    split at h
    · rename_i r hr
      cases h
      exact .inl ⟨r, by simpa using al, hr, rfl, rfl⟩
    · rename_i hr
      split at h
      · rename_i hw
        cases h
        exact .inr ⟨⟨by simpa using al, hr, hw⟩, rfl, rfl⟩
      · cases h

theorem memWrite_misaligned {addr : Word} {n : Width} {v : Word} {s : State} (h : addr.toNat % n.bytes ≠ 0) :
    memWrite addr n v s = .misaligned := if_pos h

theorem memWrite_device {addr : Word} {n : Width} {v : Word} {s : State} {r : DevReg} (h : addr.toNat % n.bytes = 0)
    (hr : devAt s.cfg addr = some r) :
    memWrite addr n v s = .done () { s with dev := s.dev.write s.cfg r (r.offset s.cfg addr) n.bytes v } := by
  simp only [memWrite, h, ne_eq, not_true_eq_false, if_false, hr]

theorem memWrite_ram {addr : Word} {n : Width} {v : Word} {s : State} (h : RamAccess s addr n.bytes) :
    memWrite addr n v s
      = .done () { s with
          dcache := s.dcache.write addr n.bytes v, mem := Memory.writeBytes s.mem addr.toNat v n.bytes } := by
  simp only [memWrite, h.1, ne_eq, not_true_eq_false, if_false, h.2.1, h.2.2, if_true]

theorem memWrite_unmapped {addr : Word} {n : Width} {v : Word} {s : State} (h : UnmappedAccess s addr n.bytes) :
    memWrite addr n v s = .fault := by
  simp [memWrite, h.1, h.2.1, h.2.2]

/-- What a store that is done was: a device register, or the D-cache and memory. -/
theorem memWrite_done {addr : Word} {n : Width} {v : Word} {s u : State} {x : Unit} (h : memWrite addr n v s = .done x u) :
    (∃ r, addr.toNat % n.bytes = 0 ∧ devAt s.cfg addr = some r
      ∧ u = { s with dev := s.dev.write s.cfg r (r.offset s.cfg addr) n.bytes v })
    ∨ (RamAccess s addr n.bytes ∧ u = { s with
        dcache := s.dcache.write addr n.bytes v, mem := Memory.writeBytes s.mem addr.toNat v n.bytes }) := by
  unfold memWrite at h
  split at h
  · cases h
  · rename_i al
    split at h
    · rename_i r hr
      cases h
      exact .inl ⟨r, by simpa using al, hr, rfl⟩
    · rename_i hr
      split at h
      · rename_i hw
        cases h
        exact .inr ⟨⟨by simpa using al, hr, hw⟩, rfl⟩
      · cases h

/-- A fetch that answers a word read it through the I-cache from a fetchable pc. -/
theorem fetch_ok {s u : State} {w : Word} (h : fetch s = .ok (w, u)) :
    s.pc.extractLsb' 0 2 = 0#2 ∧ inRam s.cfg s.pc.toNat 4 = true
      ∧ w = (s.icache.read s.mem s.pc).1 ∧ u = { s with icache := (s.icache.read s.mem s.pc).2 } := by
  unfold fetch at h
  split at h
  · cases h
  · rename_i al
    split at h
    · rename_i hw
      cases h
      exact ⟨by simpa using al, hw, rfl, rfl⟩
    · cases h

/-- The two exceptions of a fetch, the misaligned one first (spec/30_encoding.md R174). -/
theorem fetch_error {s : State} {c : Cause} (h : fetch s = .error c) :
    (s.pc.extractLsb' 0 2 ≠ 0#2 ∧ c = .instructionMisaligned)
    ∨ (s.pc.extractLsb' 0 2 = 0#2 ∧ inRam s.cfg s.pc.toNat 4 = false ∧ c = .instructionFault) := by
  unfold fetch at h
  split at h
  · rename_i al
    cases h
    exact .inl ⟨al, rfl⟩
  · rename_i al
    split at h
    · cases h
    · rename_i hw
      cases h
      exact .inr ⟨by simpa using al, by simpa using hw, rfl⟩

/-! ### The instruction shapes -/

/-- A load that answers a next state: LoadFault, or the value written. -/
theorem loadOp_next {n : Width} {ext : Word → Word} {rd rs1 : Reg} {imm : BitVec 12} {s t : State}
    (h : loadOp n ext rd rs1 imm s = .next t) :
    (memRead (effectiveAddress s rs1 imm) n s = .fault ∧ t = takeTrap .loadFault (effectiveAddress s rs1 imm) s)
    ∨ ∃ v u, memRead (effectiveAddress s rs1 imm) n s = .done v u ∧ t = (u.setReg rd (ext v)).complete := by
  unfold loadOp at h
  split at h
  · cases h
  · rename_i hm
    cases h
    exact .inl ⟨hm, rfl⟩
  · rename_i v u hm
    cases h
    exact .inr ⟨v, u, hm, rfl⟩

/-- A store that answers a next state: StoreFault, or the access done. -/
theorem storeOp_next {n : Width} {rs1 rs2 : Reg} {imm : BitVec 12} {s t : State}
    (h : storeOp n rs1 rs2 imm s = .next t) :
    (memWrite (effectiveAddress s rs1 imm) n (s.reg rs2) s = .fault
      ∧ t = takeTrap .storeFault (effectiveAddress s rs1 imm) s)
    ∨ ∃ u, memWrite (effectiveAddress s rs1 imm) n (s.reg rs2) s = .done () u ∧ t = u.complete := by
  unfold storeOp at h
  split at h
  · cases h
  · rename_i hm
    cases h
    exact .inl ⟨hm, rfl⟩
  · rename_i x u hm
    cases h
    exact .inr ⟨u, hm, rfl⟩

/-- A branch answers one of two next states (spec/43_branch.md R290). -/
theorem branchOp_eq (cond : Word → Word → Bool) (rs1 rs2 : Reg) (imm : BitVec 13) (s : State) :
    branchOp cond rs1 rs2 imm s
      = .next (s.completeAt (if cond (s.reg rs1) (s.reg rs2) then s.pc + sext13 imm else s.pc + 4#32)) := by
  unfold branchOp branchTarget State.complete
  split <;> rfl

/-! ### Taking a trap (spec/60_exceptions.md R390, R391) -/

/-- The bits of a word with one bit set or cleared. -/
theorem getLsbD_setBit (w : Word) (k i : Nat) (b : Bool) (hi : i < 32) :
    (setBit w k b).getLsbD i = if i = k then b else w.getLsbD i := by
  have one : (1#32 <<< k).getLsbD i = decide (i = k) := by
    rw [BitVec.getLsbD_shiftLeft]
    by_cases h : i = k
    · subst h
      simp [hi]
    · simp only [BitVec.getLsbD_one, hi, h]
      by_cases hk : i < k
      · simp [hk]
      · simp [show i - k ≠ 0 by omega]
  cases b
  · show (w &&& ~~~(1#32 <<< k)).getLsbD i = _
    rw [BitVec.getLsbD_and, BitVec.getLsbD_not, one]
    split <;> simp_all
  · show (w ||| (1#32 <<< k)).getLsbD i = _
    rw [BitVec.getLsbD_or, one]
    split <;> simp_all

/-- mtvec with bits 1:0 cleared, as a number. -/
theorem and_mtvecBase (m : Word) : m &&& 0xFFFFFFFC#32 = BitVec.ofNat 32 (m.toNat / 4 * 4) := by
  have e : m &&& 0xFFFFFFFC#32 = (m >>> 2) <<< 2 := by
    apply BitVec.eq_of_getLsbD_eq
    intro i hi
    interval_cases i <;> simp
  rw [e]
  apply BitVec.eq_of_toNat_eq
  simp [Nat.shiftRight_eq_div_pow, Nat.shiftLeft_eq]

/-- `TrapTarget` is the handler address of the cause's code. -/
theorem trapTarget_eq (m : Word) (c : Cause) : trapTarget m c = handlerAddress m c.code.toNat := by
  unfold trapTarget handlerAddress
  simp only [Config.vectorExceptions, Bool.or_true, Bool.and_true, and_mtvecBase]
  cases m.getLsbD 0
  · simp
  · apply BitVec.eq_of_toNat_eq
    simp [BitVec.toNat_add, BitVec.toNat_mul]

/-- The code of a cause is mcause without its interrupt bit. -/
theorem mcause_code (c : Cause) : c.mcause.toNat % 2 ^ 31 = c.code.toNat := by cases c <;> decide

/-- Bit 31 of mcause tells an interrupt from an exception. -/
theorem trapClass_eq (c : Cause) :
    c.trapClass = if c.mcause.getLsbD 31 then TrapClass.interrupt else TrapClass.exception := by
  cases c <;> decide

/-- Everything that taking a trap does. -/
theorem takeTrap_entered (c : Cause) (tval : Word) (s : State) :
    TrapEntered s (takeTrap c tval s) c.mcause tval (handlerAddress s.csr.mtvec c.code.toNat) := by
  refine ⟨trapTarget_eq _ _, rfl, rfl, rfl, fun i hi => ?_, rfl, rfl, rfl, ⟨_, rfl, rfl, rfl, rfl, rfl, trapClass_eq c⟩, rfl,
    fun _ => rfl, rfl, rfl, fun _ => rfl, rfl, rfl, rfl, rfl, rfl⟩
  show (trapStatus s.csr.mstatus).getLsbD i = _
  unfold trapStatus statusMie
  rw [getLsbD_setBit _ _ _ _ hi, getLsbD_setBit _ _ _ _ hi]

/-- An instruction that answers a next state has taken an exception in the state it found, or has completed, and it still
runs unless it is EBREAK. -/
theorem exec_traps_or_completes {i : Instr} {s t : State} (h : exec i s = .next t) :
    (∃ c tval, t = takeTrap c tval s ∧ c.isInterrupt = false)
    ∨ (t.traps = s.traps ∧ t.instret = s.instret + 1 ∧ (t.run = s.run ∨ i = .ebreak)) := by
  cases i with
  | lb | lh | lw | lbu | lhu =>
    obtain ⟨-, rfl⟩ | ⟨v, u, hm, rfl⟩ := loadOp_next h
    · exact .inl ⟨_, _, rfl, rfl⟩
    · obtain ⟨r, -, -, -, rfl⟩ | ⟨-, -, rfl⟩ := memRead_done hm <;> exact .inr ⟨rfl, rfl, .inl rfl⟩
  | sb | sh | sw =>
    obtain ⟨-, rfl⟩ | ⟨u, hm, rfl⟩ := storeOp_next h
    · exact .inl ⟨_, _, rfl, rfl⟩
    · obtain ⟨r, -, -, rfl⟩ | ⟨-, rfl⟩ := memWrite_done hm <;> exact .inr ⟨rfl, rfl, .inl rfl⟩
  | beq | bne | blt | bge | bltu | bgeu =>
    simp only [exec, execBeq, execBne, execBlt, execBge, execBltu, execBgeu, branchOp_eq] at h
    cases h
    exact .inr ⟨rfl, rfl, .inl rfl⟩
  | ecall =>
    cases h
    exact .inl ⟨.environmentCall, _, rfl, rfl⟩
  | ebreak =>
    cases h
    exact .inr ⟨rfl, rfl, .inr rfl⟩
  | _ =>
    cases h
    exact .inr ⟨rfl, rfl, .inl rfl⟩

/-! ### What an instruction can do to memory and the caches -/

/-- The ways an instruction can leave memory and the D-cache: both as they were, the D-cache after a load from RAM, or both
after a store to RAM. -/
inductive DataEffect (s t : State) : Prop where
  | none (dcache : t.dcache = s.dcache) (mem : t.mem = s.mem)
  | load (ea : Word) (n : Width) (ram : RamAccess s ea n.bytes) (dcache : t.dcache = (s.dcache.read s.mem ea).2)
      (mem : t.mem = s.mem)
  | store (ea : Word) (n : Width) (v : Word) (ram : RamAccess s ea n.bytes)
      (dcache : t.dcache = s.dcache.write ea n.bytes v) (mem : t.mem = Memory.writeBytes s.mem ea.toNat v n.bytes)

theorem loadOp_effect {n : Width} {ext : Word → Word} {rd rs1 : Reg} {imm : BitVec 12} {s t : State}
    (h : loadOp n ext rd rs1 imm s = .next t) :
    t.icache = s.icache ∧ t.cfg = s.cfg ∧ t.csr.mip = s.csr.mip ∧ t.refused = s.refused ∧ t.draws = s.draws
      ∧ DataEffect s t := by
  obtain ⟨-, rfl⟩ | ⟨v, u, hm, rfl⟩ := loadOp_next h
  · exact ⟨rfl, rfl, rfl, rfl, rfl, .none rfl rfl⟩
  · obtain ⟨r, -, -, -, rfl⟩ | ⟨hr, -, rfl⟩ := memRead_done hm
    · exact ⟨rfl, rfl, rfl, rfl, rfl, .none rfl rfl⟩
    · exact ⟨rfl, rfl, rfl, rfl, rfl, .load _ n hr rfl rfl⟩

theorem storeOp_effect {n : Width} {rs1 rs2 : Reg} {imm : BitVec 12} {s t : State}
    (h : storeOp n rs1 rs2 imm s = .next t) :
    t.icache = s.icache ∧ t.cfg = s.cfg ∧ t.csr.mip = s.csr.mip ∧ t.refused = s.refused ∧ t.draws = s.draws
      ∧ DataEffect s t := by
  obtain ⟨-, rfl⟩ | ⟨u, hm, rfl⟩ := storeOp_next h
  · exact ⟨rfl, rfl, rfl, rfl, rfl, .none rfl rfl⟩
  · obtain ⟨r, -, -, rfl⟩ | ⟨hr, rfl⟩ := memWrite_done hm
    · exact ⟨rfl, rfl, rfl, rfl, rfl, .none rfl rfl⟩
    · exact ⟨rfl, rfl, rfl, rfl, rfl, .store _ n _ hr rfl rfl⟩

theorem branchOp_effect {cond : Word → Word → Bool} {rs1 rs2 : Reg} {imm : BitVec 13} {s t : State}
    (h : branchOp cond rs1 rs2 imm s = .next t) :
    t.icache = s.icache ∧ t.cfg = s.cfg ∧ t.csr.mip = s.csr.mip ∧ t.refused = s.refused ∧ t.draws = s.draws
      ∧ DataEffect s t := by
  rw [branchOp_eq] at h
  cases h
  exact ⟨rfl, rfl, rfl, rfl, rfl, .none rfl rfl⟩

/-- A CSR write leaves mip (spec/10_state.md R53). -/
@[simp] theorem CsrFile.mip_write (c : CsrFile) (n : CsrNum) (v : Word) : (c.write n v).mip = c.mip := by
  unfold CsrFile.write
  split <;> rfl

/-- What no instruction does: change the I-cache, the configuration, mip, the refusal or the draw number; and the three
things it can do to memory and the D-cache. -/
theorem exec_effect {i : Instr} {s t : State} (h : exec i s = .next t) :
    t.icache = s.icache ∧ t.cfg = s.cfg ∧ t.csr.mip = s.csr.mip ∧ t.refused = s.refused ∧ t.draws = s.draws
      ∧ DataEffect s t := by
  cases i with
  | lb | lh | lw | lbu | lhu => exact loadOp_effect h
  | sb | sh | sw => exact storeOp_effect h
  | beq => unfold exec execBeq at h; exact branchOp_effect h
  | bne => unfold exec execBne at h; exact branchOp_effect h
  | blt => unfold exec execBlt at h; exact branchOp_effect h
  | bge => unfold exec execBge at h; exact branchOp_effect h
  | bltu => unfold exec execBltu at h; exact branchOp_effect h
  | bgeu => unfold exec execBgeu at h; exact branchOp_effect h
  | csrrw | csrrs | csrrc | csrrwi | csrrsi | csrrci =>
    cases h
    exact ⟨rfl, rfl, CsrFile.mip_write _ _ _, rfl, rfl, .none rfl rfl⟩
  | _ =>
    cases h
    exact ⟨rfl, rfl, rfl, rfl, rfl, .none rfl rfl⟩

/-! ### The step -/

/-- What a step that answers a next state did, in the order of spec/30_encoding.md R174. -/
theorem step_cases {s t : State} (h : step s = .next t) :
    Ready s ∧
    ((interruptPending (beginCycle s).csr = true ∧ t = takeInterrupt (beginCycle s))
    ∨ (NoInterrupt s ∧ ∃ c, fetch (beginCycle s) = .error c ∧ t = takeTrap c s.pc (beginCycle s))
    ∨ (NoInterrupt s ∧ ∃ w u e, fetch (beginCycle s) = .ok (w, u) ∧ decodeWord w = .error e
        ∧ t = takeTrap .illegalInstruction w u)
    ∨ (NoInterrupt s ∧ ∃ w u i, fetch (beginCycle s) = .ok (w, u) ∧ decodeWord w = .ok i ∧ exec i u = .next t)) := by
  unfold step frontEnd at h
  by_cases hr : s.run = false
  · simp [hr] at h
  · rw [if_neg hr] at h
    cases hf : s.refused with
    | some r => simp [hf] at h
    | none =>
      rw [hf] at h
      by_cases hv : configValid s.cfg = true
      · refine ⟨⟨by simpa using hr, hf, hv⟩, ?_⟩
        simp only [if_pos hv, checkAndFetch] at h
        by_cases hi : interruptPending (beginCycle s).csr = true
        · rw [if_pos hi] at h
          cases h
          exact .inl ⟨hi, rfl⟩
        · have ni : NoInterrupt s := by simpa [NoInterrupt] using hi
          rw [if_neg hi] at h
          unfold fetchDecode at h
          cases hw : fetch (beginCycle s) with
          | error c =>
            rw [hw] at h
            cases h
            exact .inr (.inl ⟨ni, c, rfl, rfl⟩)
          | ok p =>
            obtain ⟨w, u⟩ := p
            rw [hw] at h
            simp only at h
            cases hd : decodeWord w with
            | error e =>
              rw [hd] at h
              cases h
              exact .inr (.inr (.inl ⟨ni, w, u, e, rfl, hd, rfl⟩))
            | ok i =>
              rw [hd] at h
              exact .inr (.inr (.inr ⟨ni, w, u, i, rfl, hd, h⟩))
      · simp [hv] at h

/-- A ready state with no interrupt to take goes on to fetch and decode. -/
theorem frontEnd_ready {s : State} (hr : Ready s) (hn : NoInterrupt s) : frontEnd s = fetchDecode (beginCycle s) := by
  obtain ⟨h1, h2, h3⟩ := hr
  unfold NoInterrupt at hn
  rw [frontEnd, if_neg (by simp [h1]), h2]
  simp only [h3, if_true, checkAndFetch, hn]
  rfl

end Sys2Proof.Machine
end

