-- ==== Sys2Proof/Laws/Caches.lean ====
section
/-! SUPPORT. The laws of the caches: lookup, what a read and a write do to the set of an address, and that they keep one line per tag, the RAM window and the D-cache's agreement with memory. -/

namespace Sys2Proof.Machine

/-! ### Sets -/

@[simp] theorem CacheSet.line_setLine (set : CacheSet) (w : Way) (l : CacheLine) : (set.setLine w l).line w = l := by
  cases w <;> rfl

/-- Touching a way changes no valid bit, tag or word. -/
theorem CacheSet.line_touch (set : CacheSet) (w v : Way) :
    ((set.touch w).line v).valid = (set.line v).valid ∧ ((set.touch w).line v).tag = (set.line v).tag
      ∧ ((set.touch w).line v).block = (set.line v).block := by
  cases w <;> cases v <;> exact ⟨rfl, rfl, rfl⟩

@[simp] theorem CacheSet.hitWay_touch (set : CacheSet) (w : Way) (t : BitVec 25) : (set.touch w).hitWay t = set.hitWay t := by
  cases w <;> rfl

/-- The way that hits is valid and has the tag. -/
theorem CacheSet.hitWay_some {set : CacheSet} {t : BitVec 25} {w : Way} (h : set.hitWay t = some w) :
    (set.line w).valid = true ∧ (set.line w).tag = t := by
  unfold CacheSet.hitWay CacheLine.matches at h
  split at h
  · rename_i h1
    cases h
    simpa [CacheSet.line] using h1
  · split at h
    · rename_i h2
      cases h
      simpa [CacheSet.line] using h2
    · cases h

/-- Where no way hits, no valid line has the tag. -/
theorem CacheSet.hitWay_none {set : CacheSet} {t : BitVec 25} (h : set.hitWay t = none) (w : Way)
    (hv : (set.line w).valid = true) : (set.line w).tag ≠ t := by
  unfold CacheSet.hitWay CacheLine.matches at h
  split at h
  · cases h
  · rename_i h1
    split at h
    · cases h
    · rename_i h2
      cases w
      · intro e
        exact h1 (by simp [show set.line0.valid = true from hv, show set.line0.tag = t from e])
      · intro e
        exact h2 (by simp [show set.line1.valid = true from hv, show set.line1.tag = t from e])

/-- A valid line with the tag makes some way hit. -/
theorem CacheSet.hitWay_isSome {set : CacheSet} {t : BitVec 25} (w : Way) (hv : (set.line w).valid = true)
    (ht : (set.line w).tag = t) : (set.hitWay t).isSome = true := by
  cases h : set.hitWay t with
  | some v => rfl
  | none => exact absurd ht (CacheSet.hitWay_none h w hv)

/-! ### The set of an address -/

theorem Cache.setOf_putSet (c : Cache) (a : Word) (set : CacheSet) (b : Word) :
    (c.putSet a set).setOf b = if setIndex b = setIndex a then set else c.setOf b := by
  unfold Cache.setOf Cache.putSet
  by_cases h : setIndex b = setIndex a
  · simp [h]
  · have hn : (setIndex a).toNat ≠ (setIndex b).toNat := fun e => h (BitVec.eq_of_toNat_eq e.symm)
    simp [h, hn]

@[simp] theorem Cache.setOf_countHit (c : Cache) (b : Word) : c.countHit.setOf b = c.setOf b := rfl
@[simp] theorem Cache.setOf_countMiss (c : Cache) (b : Word) : c.countMiss.setOf b = c.setOf b := rfl

/-- A read that hits (spec/20_memory.md R124). -/
theorem Cache.read_hit {c : Cache} {m : Memory} {a : Word} {w : Way} (h : (c.setOf a).hitWay (tagOf a) = some w) :
    c.read m a = (((c.setOf a).line w).word a, (c.putSet a ((c.setOf a).touch w)).countHit) := by
  unfold Cache.read
  rw [h]

/-- A read that misses (spec/20_memory.md R124). -/
theorem Cache.read_miss {c : Cache} {m : Memory} {a : Word} (h : (c.setOf a).hitWay (tagOf a) = none) :
    c.read m a = ((filledLine m a).word a,
      (c.putSet a (((c.setOf a).setLine (c.setOf a).victim (filledLine m a)).touch (c.setOf a).victim)).countMiss) := by
  unfold Cache.read
  rw [h]

/-- A write that hits (spec/20_memory.md R125). -/
theorem Cache.write_hit {c : Cache} {a v : Word} {n : Nat} {w : Way} (h : (c.setOf a).hitWay (tagOf a) = some w) :
    c.write a n v
      = (c.putSet a (((c.setOf a).setLine w (((c.setOf a).line w).storeBytes a n v)).touch w)).countHit := by
  unfold Cache.write
  rw [h]

/-- A write that misses only counts (spec/20_memory.md R125). -/
theorem Cache.write_miss {c : Cache} {a v : Word} {n : Nat} (h : (c.setOf a).hitWay (tagOf a) = none) :
    c.write a n v = c.countMiss := by
  unfold Cache.write
  rw [h]

/-! ### Every set and line: a property of all lines is kept by an operation on one set -/

/-- `P i l` of every line `l` of every set `i`. -/
def Cache.allLines (P : Fin 8 → CacheLine → Prop) (c : Cache) : Prop := ∀ i : Fin 8, ∀ w : Way, P i (c.sets[i].line w)

/-- The number of the set of an address. -/
def setNumber (a : Word) : Fin 8 := (setIndex a).toFin

theorem Cache.setOf_eq (c : Cache) (a : Word) : c.setOf a = c.sets[setNumber a] := rfl

theorem Cache.sets_putSet (c : Cache) (a : Word) (set : CacheSet) (i : Fin 8) :
    (c.putSet a set).sets[i] = if i = setNumber a then set else c.sets[i] := by
  unfold Cache.putSet
  by_cases h : i = setNumber a
  · subst h
    simp [setNumber]
  · have hn : (setIndex a).toNat ≠ i.val := fun e => h (Fin.ext (by simpa [setNumber] using e.symm))
    simp [h, hn]

/-- A property of lines that does not look at the recency holds of every line after a read, if it holds of every line before
and of the line that a miss fills. -/
theorem Cache.allLines_read {P : Fin 8 → CacheLine → Prop} {c : Cache} {m : Memory} {a : Word}
    (hP : ∀ i l k, l.valid = k.valid → l.tag = k.tag → l.block = k.block → P i l → P i k)
    (hf : P (setNumber a) (filledLine m a)) (h : c.allLines P) : (c.read m a).2.allLines P := by
  intro i w
  cases hw : (c.setOf a).hitWay (tagOf a) with
  | some v =>
    rw [Cache.read_hit hw]
    show P i ((c.putSet a ((c.setOf a).touch v)).sets[i].line w)
    rw [Cache.sets_putSet]
    split
    · rename_i e
      subst e
      obtain ⟨h1, h2, h3⟩ := CacheSet.line_touch (c.setOf a) v w
      exact hP _ _ _ h1.symm h2.symm h3.symm (h _ w)
    · exact h i w
  | none =>
    rw [Cache.read_miss hw]
    show P i ((c.putSet a _).sets[i].line w)
    rw [Cache.sets_putSet]
    split
    · rename_i e
      subst e
      obtain ⟨h1, h2, h3⟩ :=
        CacheSet.line_touch ((c.setOf a).setLine (c.setOf a).victim (filledLine m a)) (c.setOf a).victim w
      refine hP _ _ _ h1.symm h2.symm h3.symm ?_
      have hl := h (setNumber a) w
      rw [← Cache.setOf_eq] at hl
      cases (c.setOf a).victim <;> cases w <;> first | exact hf | exact hl
    · exact h i w

/-- A property of lines that does not look at the recency holds of every line after a write, if it holds of every line
before, and of the stored line where it holds of the line that hits. -/
theorem Cache.allLines_write {P Q : Fin 8 → CacheLine → Prop} {c : Cache} {a v : Word} {n : Nat}
    (hQ : ∀ i l k, l.valid = k.valid → l.tag = k.tag → l.block = k.block → Q i l → Q i k)
    (hs : ∀ l, l.valid = true → l.tag = tagOf a → P (setNumber a) l → Q (setNumber a) (l.storeBytes a n v))
    (hne : ∀ i w, (∀ u, (c.setOf a).hitWay (tagOf a) = some u → ¬ (i = setNumber a ∧ w = u)) →
      P i (c.sets[i].line w) → Q i (c.sets[i].line w))
    (h : c.allLines P) : (c.write a n v).allLines Q := by
  intro i w
  cases hw : (c.setOf a).hitWay (tagOf a) with
  | some u =>
    rw [Cache.write_hit hw]
    show Q i ((c.putSet a _).sets[i].line w)
    rw [Cache.sets_putSet]
    split
    · rename_i e
      subst e
      obtain ⟨h1, h2, h3⟩ :=
        CacheSet.line_touch ((c.setOf a).setLine u (((c.setOf a).line u).storeBytes a n v)) u w
      refine hQ _ _ _ h1.symm h2.symm h3.symm ?_
      by_cases hu : w = u
      · subst hu
        rw [CacheSet.line_setLine]
        obtain ⟨h4, h5⟩ := CacheSet.hitWay_some hw
        exact hs _ h4 h5 (h (setNumber a) w)
      · have e : ((c.setOf a).setLine u (((c.setOf a).line u).storeBytes a n v)).line w = c.sets[setNumber a].line w := by
          cases u <;> cases w <;> first | exact absurd rfl hu | rfl
        rw [e]
        refine hne _ w (fun u' hu' hb => ?_) (h _ w)
        rw [hw] at hu'
        cases hu'
        exact hu hb.2
    · rename_i hi
      exact hne i w (fun u' _ hb => hi hb.1) (h i w)
  | none =>
    rw [Cache.write_miss hw]
    exact hne i w (fun u hu => by rw [hw] at hu; cases hu) (h i w)

/-! ### One line per tag (spec/10_state.md R63) -/

theorem Cache.unique_iff (c : Cache) :
    Cache.unique c ↔ ∀ i : Fin 8, ¬ ((c.sets[i].line .way0).valid = true ∧ (c.sets[i].line .way1).valid = true
      ∧ (c.sets[i].line .way0).tag = (c.sets[i].line .way1).tag) := Iff.rfl

/-- A read keeps one line per tag. -/
theorem Cache.unique_read {c : Cache} {m : Memory} {a : Word} (h : Cache.unique c) : Cache.unique (c.read m a).2 := by
  intro i
  cases hw : (c.setOf a).hitWay (tagOf a) with
  | some v =>
    rw [Cache.read_hit hw]
    show ¬ ((c.putSet a _).sets[i].line0.valid = true ∧ (c.putSet a _).sets[i].line1.valid = true
      ∧ (c.putSet a _).sets[i].line0.tag = (c.putSet a _).sets[i].line1.tag)
    rw [Cache.sets_putSet]
    split
    · rename_i e
      subst e
      have := h (setNumber a)
      cases v <;> exact this
    · exact h i
  | none =>
    rw [Cache.read_miss hw]
    show ¬ ((c.putSet a _).sets[i].line0.valid = true ∧ (c.putSet a _).sets[i].line1.valid = true
      ∧ (c.putSet a _).sets[i].line0.tag = (c.putSet a _).sets[i].line1.tag)
    rw [Cache.sets_putSet]
    split
    · have h0 := CacheSet.hitWay_none hw .way0
      have h1 := CacheSet.hitWay_none hw .way1
      cases (c.setOf a).victim
      · exact fun ⟨_, v1, e⟩ => h1 v1 e.symm
      · exact fun ⟨v0, _, e⟩ => h0 v0 e
    · exact h i

/-- A write keeps one line per tag. -/
theorem Cache.unique_write {c : Cache} {a v : Word} {n : Nat} (h : Cache.unique c) : Cache.unique (c.write a n v) := by
  intro i
  cases hw : (c.setOf a).hitWay (tagOf a) with
  | some u =>
    rw [Cache.write_hit hw]
    show ¬ ((c.putSet a _).sets[i].line0.valid = true ∧ (c.putSet a _).sets[i].line1.valid = true
      ∧ (c.putSet a _).sets[i].line0.tag = (c.putSet a _).sets[i].line1.tag)
    rw [Cache.sets_putSet]
    split
    · rename_i e
      subst e
      have := h (setNumber a)
      cases u <;> exact this
    · exact h i
  | none =>
    rw [Cache.write_miss hw]
    exact h i

/-! ### Addresses and blocks -/

theorem toNat_blockBase (a : Word) : (blockBase a).toNat = a.toNat / 16 * 16 := by
  have h : blockBase a = (a >>> 4) <<< 4 := by
    apply BitVec.eq_of_getLsbD_eq
    intro i hi
    simp only [blockBase, BitVec.getLsbD_and, BitVec.getLsbD_shiftLeft, BitVec.getLsbD_ushiftRight]
    by_cases h4 : i < 4
    · have : (0xFFFFFFF0#32).getLsbD i = false := by
        interval_cases i <;> decide
      simp [this, h4]
    · have : (0xFFFFFFF0#32).getLsbD i = true := by
        interval_cases i <;> first | omega | decide
      simp [this, h4, hi, show 4 + (i - 4) = i by omega]
  rw [h, BitVec.toNat_shiftLeft, BitVec.toNat_ushiftRight, Nat.shiftLeft_eq, Nat.shiftRight_eq_div_pow]
  have := a.isLt
  omega

theorem toNat_lineBase (t : BitVec 25) (i : BitVec 3) : (lineBase t i).toNat = t.toNat * 128 + i.toNat * 16 := by
  unfold lineBase
  have h1 := i.isLt
  rw [BitVec.toNat_append, BitVec.toNat_append, ← Nat.shiftLeft_add_eq_or_of_lt h1]
  simp only [BitVec.toNat_ofNat, Nat.zero_mod, Nat.or_zero, Nat.shiftLeft_eq]
  omega

theorem toNat_tagOf (a : Word) : (tagOf a).toNat = a.toNat / 128 := by
  have := a.isLt
  simp only [tagOf, BitVec.extractLsb'_toNat, Nat.shiftRight_eq_div_pow]
  omega

theorem toNat_setIndex (a : Word) : (setIndex a).toNat = a.toNat / 16 % 8 := by
  simp only [setIndex, BitVec.extractLsb'_toNat, Nat.shiftRight_eq_div_pow]

theorem toNat_wordIndex (a : Word) : (wordIndex a).toNat = a.toNat / 4 % 4 := by
  simp only [wordIndex, BitVec.extractLsb'_toNat, Nat.shiftRight_eq_div_pow]

theorem byteLane_eq (a : Word) : byteLane a = a.toNat % 4 := by
  simp only [byteLane, BitVec.extractLsb'_toNat, Nat.shiftRight_eq_div_pow]
  omega

/-- The block of a line that matches `a` is the block of `a`. -/
theorem lineBase_tagOf (a : Word) : lineBase (tagOf a) (BitVec.ofFin (setNumber a)) = blockBase a := by
  apply BitVec.eq_of_toNat_eq
  rw [toNat_lineBase, toNat_blockBase, toNat_tagOf]
  have h : (BitVec.ofFin (setNumber a) : BitVec 3).toNat = a.toNat / 16 % 8 := toNat_setIndex a
  rw [h]
  omega

/-- The block of any line of any set that is not the block of `a` has no byte in common with it. -/
theorem lineBase_ne {t : BitVec 25} {i : Fin 8} {a : Word} (h : ¬ (i = setNumber a ∧ t = tagOf a)) :
    (lineBase t (BitVec.ofFin i)).toNat + 16 ≤ a.toNat / 16 * 16
      ∨ a.toNat / 16 * 16 + 16 ≤ (lineBase t (BitVec.ofFin i)).toNat := by
  rw [toNat_lineBase]
  have hi : (BitVec.ofFin i : BitVec 3).toNat = i.val := rfl
  have h8 := i.isLt
  rw [hi]
  by_contra hc
  apply h
  have ht : t.toNat = a.toNat / 128 := by omega
  refine ⟨Fin.ext ?_, BitVec.eq_of_toNat_eq (by rw [ht, toNat_tagOf])⟩
  have hs : (setNumber a).val = a.toNat / 16 % 8 := toNat_setIndex a
  rw [hs]
  omega

/-! ### Words of memory -/

/-- A word that shares no byte with what is written reads as before. -/
theorem Memory.word_writeBytes_ne {m : Memory} {a q n : Nat} {v : Word} (h : q + 4 ≤ a ∨ a + n ≤ q) :
    Memory.word (Memory.writeBytes m a v n) q = Memory.word m q := by
  unfold Memory.word
  simp only [Memory.read_writeBytes]
  rw [if_neg (by omega), if_neg (by omega), if_neg (by omega), if_neg (by omega)]

theorem getLsbD_wordOfBytes (b0 b1 b2 b3 : Byte) (i : Nat) :
    (wordOfBytes b0 b1 b2 b3).getLsbD i =
      if i < 8 then b0.getLsbD i else if i < 16 then b1.getLsbD (i - 8) else if i < 24 then b2.getLsbD (i - 16)
      else b3.getLsbD (i - 24) := by
  unfold wordOfBytes
  simp only [BitVec.getLsbD_append]
  by_cases h1 : i < 8
  · simp [h1]
  · by_cases h2 : i < 16
    · have : i - 8 < 8 := by omega
      simp [h1, h2, this]
    · by_cases h3 : i < 24
      · simp [h1, h2, h3, show ¬ i - 8 < 8 by omega, show i - 8 - 8 = i - 16 by omega, show i - 16 < 8 by omega]
      · simp [h1, h2, h3, show ¬ i - 8 < 8 by omega, show ¬ i - 8 - 8 < 8 by omega, show i - 8 - 8 - 8 = i - 24 by omega]

theorem getLsbD_byteOfWord (w : Word) (k i : Nat) : (byteOfWord w k).getLsbD i = (decide (i < 8) && w.getLsbD (8 * k + i)) := by
  simp [byteOfWord, BitVec.getLsbD_extractLsb']

theorem getLsbD_byteMask (n i : Nat) : (byteMask n).getLsbD i = (decide (i < 32) && decide (i < 8 * n)) := by
  simp [byteMask, BitVec.getLsbD_ofNat, Nat.testBit_two_pow_sub_one]

/-- The bits of a word with bytes merged in (spec/60_exceptions.md R422). -/
theorem getLsbD_mergeBytes (w v : Word) (k n i : Nat) (hi : i < 32) :
    (mergeBytes w k n v).getLsbD i
      = if 8 * k ≤ i ∧ i < 8 * (k + n) then v.getLsbD (i - 8 * k) else w.getLsbD i := by
  unfold mergeBytes
  simp only [BitVec.getLsbD_or, BitVec.getLsbD_and, BitVec.getLsbD_not, BitVec.getLsbD_shiftLeft, getLsbD_byteMask]
  by_cases h1 : i < 8 * k
  · have : ¬ (8 * k ≤ i ∧ i < 8 * (k + n)) := by omega
    simp [h1, this, hi]
  · by_cases h2 : i < 8 * (k + n)
    · have h3 : 8 * k ≤ i ∧ i < 8 * (k + n) := by omega
      have h4 : i - 8 * k < 8 * n := by omega
      have h5 : i - 8 * k < 32 := by omega
      simp [h1, h3, h4, h5, hi]
    · have h3 : ¬ (8 * k ≤ i ∧ i < 8 * (k + n)) := by omega
      have h4 : ¬ i - 8 * k < 8 * n := by omega
      simp [h1, h3, h4, hi]

/-- Bytes written inside one word merge into it (spec/20_memory.md R95, R125). -/
theorem Memory.word_writeBytes_merge {m : Memory} {q k n : Nat} {v : Word} :
    Memory.word (Memory.writeBytes m (q + k) v n) q = mergeBytes (Memory.word m q) k n v := by
  apply BitVec.eq_of_getLsbD_eq
  intro i hi
  rw [getLsbD_mergeBytes _ _ _ _ _ hi]
  unfold Memory.word
  simp only [Memory.read_writeBytes, getLsbD_wordOfBytes]
  have key : ∀ j, (j = i / 8) → (if q + k ≤ q + j ∧ q + j < q + k + n then byteOfWord v (q + j - (q + k))
      else Memory.read m (q + j)).getLsbD (i - 8 * j)
      = if 8 * k ≤ i ∧ i < 8 * (k + n) then v.getLsbD (i - 8 * k) else (Memory.read m (q + j)).getLsbD (i - 8 * j) := by
    intro j hj
    by_cases hc : k ≤ j ∧ j < k + n
    · rw [if_pos (by omega), if_pos (by omega), getLsbD_byteOfWord]
      have e : 8 * (q + j - (q + k)) + (i - 8 * j) = i - 8 * k := by omega
      rw [e]
      simp [show i - 8 * j < 8 by omega]
    · rw [if_neg (by omega), if_neg (by omega)]
  have k0 := key 0
  have k1 := key 1
  have k2 := key 2
  have k3 := key 3
  simp only [Nat.add_zero, Nat.mul_zero, Nat.sub_zero, Nat.mul_one, Nat.reduceMul] at k0 k1 k2 k3
  by_cases h1 : i < 8
  · rw [if_pos h1, if_pos h1, k0 (by omega)]
  · by_cases h2 : i < 16
    · rw [if_neg h1, if_pos h2, if_neg h1, if_pos h2, k1 (by omega)]
    · by_cases h3 : i < 24
      · rw [if_neg h1, if_neg h2, if_pos h3, if_neg h1, if_neg h2, if_pos h3, k2 (by omega)]
      · rw [if_neg h1, if_neg h2, if_neg h3, if_neg h1, if_neg h2, if_neg h3, k3 (by omega)]

/-! ### Coherence and the RAM window -/

theorem Cache.coherent_iff (c : Cache) (m : Memory) : Cache.coherent c m ↔ c.allLines (fun i l => l.agrees i m) :=
  ⟨fun h i w => by cases w; exacts [(h i).1, (h i).2], fun h i => ⟨h i .way0, h i .way1⟩⟩

theorem Cache.inWindow_iff (c : Cache) (cfg : Config) : Cache.inWindow c cfg ↔ c.allLines (fun i l => l.inWindow i cfg) :=
  ⟨fun h i w => by cases w; exacts [(h i).1, (h i).2], fun h i => ⟨h i .way0, h i .way1⟩⟩

theorem CacheLine.agrees_congr {m : Memory} (i : Fin 8) (l k : CacheLine) (hv : l.valid = k.valid) (ht : l.tag = k.tag)
    (hb : l.block = k.block) (h : l.agrees i m) : k.agrees i m := by
  intro v j
  have := h (hv ▸ v) j
  rw [← hb, ← ht]
  exact this

theorem CacheLine.inWindow_congr {cfg : Config} (i : Fin 8) (l k : CacheLine) (hv : l.valid = k.valid) (ht : l.tag = k.tag)
    (_ : l.block = k.block) (h : l.inWindow i cfg) : k.inWindow i cfg := by
  intro v
  rw [← ht]
  exact h (hv ▸ v)

/-- A filled line holds memory's block. -/
theorem filledLine_agrees (m : Memory) (a : Word) : (filledLine m a).agrees (setNumber a) m := by
  intro _ k
  show #v[_, _, _, _][k] = _
  rw [show (filledLine m a).tag = tagOf a from rfl, lineBase_tagOf]
  match k with
  | 0 => rfl
  | 1 => rfl
  | 2 => rfl
  | 3 => rfl

/-- A read keeps the agreement with memory. -/
theorem Cache.coherent_read {c : Cache} {m : Memory} {a : Word} (h : Cache.coherent c m) :
    Cache.coherent (c.read m a).2 m :=
  (Cache.coherent_iff _ _).mpr
    (Cache.allLines_read CacheLine.agrees_congr (filledLine_agrees m a) ((Cache.coherent_iff _ _).mp h))

/-- Filling from a block in RAM keeps every cached block in RAM. -/
theorem Cache.inWindow_read {c : Cache} {m : Memory} {a : Word} {cfg : Config} (h : Cache.inWindow c cfg)
    (ha : inRam cfg (blockBase a).toNat 16 = true) : Cache.inWindow (c.read m a).2 cfg :=
  (Cache.inWindow_iff _ _).mpr
    (Cache.allLines_read CacheLine.inWindow_congr (fun _ => by rw [show (filledLine m a).tag = tagOf a from rfl, lineBase_tagOf]; exact ha)
      ((Cache.inWindow_iff _ _).mp h))

theorem Cache.inWindow_write {c : Cache} {a v : Word} {n : Nat} {cfg : Config} (h : Cache.inWindow c cfg) :
    Cache.inWindow (c.write a n v) cfg :=
  (Cache.inWindow_iff _ _).mpr
    (Cache.allLines_write CacheLine.inWindow_congr (fun _ _ _ hl => hl) (fun _ _ _ hl => hl) ((Cache.inWindow_iff _ _).mp h))

/-- The word that a coherent cache's read returns is memory's word (spec/20_memory.md R130). -/
theorem Cache.read_coherent {c : Cache} {m : Memory} {a : Word} (h : Cache.coherent c m) :
    (c.read m a).1 = Memory.word m (a.toNat / 4 * 4) := by
  have key : ∀ l : CacheLine, l.valid = true → l.tag = tagOf a → l.agrees (setNumber a) m →
      l.word a = Memory.word m (a.toNat / 4 * 4) := by
    intro l hv ht hl
    have := hl hv (wordIndex a).toFin
    rw [ht, lineBase_tagOf] at this
    refine Eq.trans this (congrArg _ ?_)
    show (blockBase a).toNat + 4 * (wordIndex a).toNat = _
    rw [toNat_blockBase, toNat_wordIndex]
    omega
  cases hw : (c.setOf a).hitWay (tagOf a) with
  | some v =>
    rw [Cache.read_hit hw]
    obtain ⟨h1, h2⟩ := CacheSet.hitWay_some hw
    exact key _ h1 h2 ((Cache.coherent_iff _ _).mp h (setNumber a) v)
  | none =>
    rw [Cache.read_miss hw]
    exact key _ rfl rfl (filledLine_agrees m a)

/-- A store through the D-cache keeps its agreement with memory, if no set holds a tag twice (spec/20_memory.md R130). -/
theorem Cache.coherent_write {c : Cache} {m : Memory} {a v : Word} {n : Nat} (hu : Cache.unique c) (h : Cache.coherent c m)
    (hn : a.toNat % 4 + n ≤ 4) : Cache.coherent (c.write a n v) (Memory.writeBytes m a.toNat v n) := by
  refine (Cache.coherent_iff _ _).mpr (Cache.allLines_write CacheLine.agrees_congr ?_ ?_ ((Cache.coherent_iff _ _).mp h))
  · intro l hv ht hl _ k
    have hk := hl hv k
    show (l.block.set (wordIndex a).toNat (mergeBytes (l.word a) (a.extractLsb' 0 2).toNat n v) (wordIndex a).isLt)[k] = _
    rw [show (l.storeBytes a n v).tag = l.tag from rfl, ht, lineBase_tagOf, toNat_blockBase]
    rw [ht, lineBase_tagOf, toNat_blockBase] at hk
    have hx := toNat_wordIndex a
    by_cases e : k.val = (wordIndex a).toNat
    · have hq : a.toNat / 16 * 16 + 4 * k.val = a.toNat / 4 * 4 := by omega
      have ha : a.toNat = a.toNat / 4 * 4 + byteLane a := by rw [byteLane_eq]; omega
      have hs : (l.block.set (wordIndex a).toNat (mergeBytes (l.word a) (a.extractLsb' 0 2).toNat n v) (wordIndex a).isLt)[k]
          = mergeBytes (l.word a) (byteLane a) n v := by
        simp [e, byteLane]
      have hl : l.word a = Memory.word m (a.toNat / 4 * 4) := by
        rw [← hq, ← hk]
        simp [CacheLine.word, e]
      rw [hs, hq, hl]
      conv_rhs => rw [ha]
      have e2 : (a.toNat / 4 * 4 + byteLane a) / 4 * 4 = a.toNat / 4 * 4 := by rw [← ha]
      rw [e2, Memory.word_writeBytes_merge]
    · have hs : (l.block.set (wordIndex a).toNat (mergeBytes (l.word a) (a.extractLsb' 0 2).toNat n v) (wordIndex a).isLt)[k]
          = l.block[k] := by
        simp [Ne.symm e]
      rw [hs, hk, Memory.word_writeBytes_ne]
      omega
  · intro i w hhit hl hv k
    rw [hl hv k, Memory.word_writeBytes_ne]
    have hne : ¬ (i = setNumber a ∧ (c.sets[i].line w).tag = tagOf a) := by
      rintro ⟨rfl, ht⟩
      have hsome := CacheSet.hitWay_isSome (set := c.setOf a) w hv ht
      obtain ⟨u, hw⟩ := Option.isSome_iff_exists.mp hsome
      obtain ⟨h1, h2⟩ := CacheSet.hitWay_some hw
      have huw : w ≠ u := fun e => hhit u hw ⟨rfl, e⟩
      have := hu (setNumber a)
      cases w <;> cases u <;> first
        | exact huw rfl
        | exact this ⟨hv, h1, ht.trans h2.symm⟩
        | exact this ⟨h1, hv, h2.trans ht.symm⟩
    have := lineBase_ne hne
    have hk4 := k.isLt
    omega

end Sys2Proof.Machine
end

