-- ==== Sys2Proof/Laws/Decode.lean ====
section
/-! SUPPORT. What each field of an encoded word is, and each word as the encoding of its own fields. -/

namespace Sys2Proof

set_option linter.unusedSimpArgs false

/-! ### Format R: the fields of an encoded word -/

@[simp] theorem Field.opcode_encodeR (f7 : BitVec 7) (rs2 rs1 : Reg) (f3 : BitVec 3) (rd : Reg) (op : BitVec 7) :
    Field.opcode (encodeR f7 rs2 rs1 f3 rd op) = op := by
  show (f7 ++ rs2 ++ rs1 ++ f3 ++ rd ++ op).extractLsb' 0 7 = op
  set_option simprocs false in
  simp (disch := decide) only [BitVec.extractLsb'_append_eq_of_add_le, BitVec.extractLsb'_append_eq_of_le,
    BitVec.extractLsb'_append_eq_left, BitVec.extractLsb'_append_eq_right]
  exact BitVec.extractLsb'_eq_self

@[simp] theorem Field.rd_encodeR (f7 : BitVec 7) (rs2 rs1 : Reg) (f3 : BitVec 3) (rd : Reg) (op : BitVec 7) :
    Field.rd (encodeR f7 rs2 rs1 f3 rd op) = rd := by
  show (f7 ++ rs2 ++ rs1 ++ f3 ++ rd ++ op).extractLsb' 7 5 = rd
  set_option simprocs false in
  simp (disch := decide) only [BitVec.extractLsb'_append_eq_of_add_le, BitVec.extractLsb'_append_eq_of_le,
    BitVec.extractLsb'_append_eq_left, BitVec.extractLsb'_append_eq_right]
  exact BitVec.extractLsb'_eq_self

@[simp] theorem Field.funct3_encodeR (f7 : BitVec 7) (rs2 rs1 : Reg) (f3 : BitVec 3) (rd : Reg) (op : BitVec 7) :
    Field.funct3 (encodeR f7 rs2 rs1 f3 rd op) = f3 := by
  show (f7 ++ rs2 ++ rs1 ++ f3 ++ rd ++ op).extractLsb' 12 3 = f3
  set_option simprocs false in
  simp (disch := decide) only [BitVec.extractLsb'_append_eq_of_add_le, BitVec.extractLsb'_append_eq_of_le,
    BitVec.extractLsb'_append_eq_left, BitVec.extractLsb'_append_eq_right]
  exact BitVec.extractLsb'_eq_self

@[simp] theorem Field.rs1_encodeR (f7 : BitVec 7) (rs2 rs1 : Reg) (f3 : BitVec 3) (rd : Reg) (op : BitVec 7) :
    Field.rs1 (encodeR f7 rs2 rs1 f3 rd op) = rs1 := by
  show (f7 ++ rs2 ++ rs1 ++ f3 ++ rd ++ op).extractLsb' 15 5 = rs1
  set_option simprocs false in
  simp (disch := decide) only [BitVec.extractLsb'_append_eq_of_add_le, BitVec.extractLsb'_append_eq_of_le,
    BitVec.extractLsb'_append_eq_left, BitVec.extractLsb'_append_eq_right]
  exact BitVec.extractLsb'_eq_self

@[simp] theorem Field.rs2_encodeR (f7 : BitVec 7) (rs2 rs1 : Reg) (f3 : BitVec 3) (rd : Reg) (op : BitVec 7) :
    Field.rs2 (encodeR f7 rs2 rs1 f3 rd op) = rs2 := by
  show (f7 ++ rs2 ++ rs1 ++ f3 ++ rd ++ op).extractLsb' 20 5 = rs2
  set_option simprocs false in
  simp (disch := decide) only [BitVec.extractLsb'_append_eq_of_add_le, BitVec.extractLsb'_append_eq_of_le,
    BitVec.extractLsb'_append_eq_left, BitVec.extractLsb'_append_eq_right]
  exact BitVec.extractLsb'_eq_self

@[simp] theorem Field.shamt_encodeR (f7 : BitVec 7) (rs2 rs1 : Reg) (f3 : BitVec 3) (rd : Reg) (op : BitVec 7) :
    Field.shamt (encodeR f7 rs2 rs1 f3 rd op) = rs2 := by
  show (f7 ++ rs2 ++ rs1 ++ f3 ++ rd ++ op).extractLsb' 20 5 = rs2
  set_option simprocs false in
  simp (disch := decide) only [BitVec.extractLsb'_append_eq_of_add_le, BitVec.extractLsb'_append_eq_of_le,
    BitVec.extractLsb'_append_eq_left, BitVec.extractLsb'_append_eq_right]
  exact BitVec.extractLsb'_eq_self

@[simp] theorem Field.funct7_encodeR (f7 : BitVec 7) (rs2 rs1 : Reg) (f3 : BitVec 3) (rd : Reg) (op : BitVec 7) :
    Field.funct7 (encodeR f7 rs2 rs1 f3 rd op) = f7 := by
  show (f7 ++ rs2 ++ rs1 ++ f3 ++ rd ++ op).extractLsb' 25 7 = f7
  set_option simprocs false in
  simp (disch := decide) only [BitVec.extractLsb'_append_eq_of_add_le, BitVec.extractLsb'_append_eq_of_le,
    BitVec.extractLsb'_append_eq_left, BitVec.extractLsb'_append_eq_right]
  exact BitVec.extractLsb'_eq_self

/-! ### Format I: the fields of an encoded word -/

@[simp] theorem Field.opcode_encodeI (imm : BitVec 12) (rs1 : Reg) (f3 : BitVec 3) (rd : Reg) (op : BitVec 7) :
    Field.opcode (encodeI imm rs1 f3 rd op) = op := by
  show (imm ++ rs1 ++ f3 ++ rd ++ op).extractLsb' 0 7 = op
  set_option simprocs false in
  simp (disch := decide) only [BitVec.extractLsb'_append_eq_of_add_le, BitVec.extractLsb'_append_eq_of_le,
    BitVec.extractLsb'_append_eq_left, BitVec.extractLsb'_append_eq_right]
  exact BitVec.extractLsb'_eq_self

@[simp] theorem Field.rd_encodeI (imm : BitVec 12) (rs1 : Reg) (f3 : BitVec 3) (rd : Reg) (op : BitVec 7) :
    Field.rd (encodeI imm rs1 f3 rd op) = rd := by
  show (imm ++ rs1 ++ f3 ++ rd ++ op).extractLsb' 7 5 = rd
  set_option simprocs false in
  simp (disch := decide) only [BitVec.extractLsb'_append_eq_of_add_le, BitVec.extractLsb'_append_eq_of_le,
    BitVec.extractLsb'_append_eq_left, BitVec.extractLsb'_append_eq_right]
  exact BitVec.extractLsb'_eq_self

@[simp] theorem Field.funct3_encodeI (imm : BitVec 12) (rs1 : Reg) (f3 : BitVec 3) (rd : Reg) (op : BitVec 7) :
    Field.funct3 (encodeI imm rs1 f3 rd op) = f3 := by
  show (imm ++ rs1 ++ f3 ++ rd ++ op).extractLsb' 12 3 = f3
  set_option simprocs false in
  simp (disch := decide) only [BitVec.extractLsb'_append_eq_of_add_le, BitVec.extractLsb'_append_eq_of_le,
    BitVec.extractLsb'_append_eq_left, BitVec.extractLsb'_append_eq_right]
  exact BitVec.extractLsb'_eq_self

@[simp] theorem Field.rs1_encodeI (imm : BitVec 12) (rs1 : Reg) (f3 : BitVec 3) (rd : Reg) (op : BitVec 7) :
    Field.rs1 (encodeI imm rs1 f3 rd op) = rs1 := by
  show (imm ++ rs1 ++ f3 ++ rd ++ op).extractLsb' 15 5 = rs1
  set_option simprocs false in
  simp (disch := decide) only [BitVec.extractLsb'_append_eq_of_add_le, BitVec.extractLsb'_append_eq_of_le,
    BitVec.extractLsb'_append_eq_left, BitVec.extractLsb'_append_eq_right]
  exact BitVec.extractLsb'_eq_self

@[simp] theorem Field.uimm_encodeI (imm : BitVec 12) (rs1 : Reg) (f3 : BitVec 3) (rd : Reg) (op : BitVec 7) :
    Field.uimm (encodeI imm rs1 f3 rd op) = rs1 := by
  show (imm ++ rs1 ++ f3 ++ rd ++ op).extractLsb' 15 5 = rs1
  set_option simprocs false in
  simp (disch := decide) only [BitVec.extractLsb'_append_eq_of_add_le, BitVec.extractLsb'_append_eq_of_le,
    BitVec.extractLsb'_append_eq_left, BitVec.extractLsb'_append_eq_right]
  exact BitVec.extractLsb'_eq_self

@[simp] theorem Field.immI_encodeI (imm : BitVec 12) (rs1 : Reg) (f3 : BitVec 3) (rd : Reg) (op : BitVec 7) :
    Field.immI (encodeI imm rs1 f3 rd op) = imm := by
  show (imm ++ rs1 ++ f3 ++ rd ++ op).extractLsb' 20 12 = imm
  set_option simprocs false in
  simp (disch := decide) only [BitVec.extractLsb'_append_eq_of_add_le, BitVec.extractLsb'_append_eq_of_le,
    BitVec.extractLsb'_append_eq_left, BitVec.extractLsb'_append_eq_right]
  exact BitVec.extractLsb'_eq_self

@[simp] theorem Field.csr_encodeI (imm : BitVec 12) (rs1 : Reg) (f3 : BitVec 3) (rd : Reg) (op : BitVec 7) :
    Field.csr (encodeI imm rs1 f3 rd op) = imm := by
  show (imm ++ rs1 ++ f3 ++ rd ++ op).extractLsb' 20 12 = imm
  set_option simprocs false in
  simp (disch := decide) only [BitVec.extractLsb'_append_eq_of_add_le, BitVec.extractLsb'_append_eq_of_le,
    BitVec.extractLsb'_append_eq_left, BitVec.extractLsb'_append_eq_right]
  exact BitVec.extractLsb'_eq_self

/-! ### Format S: the fields of an encoded word -/

@[simp] theorem Field.opcode_encodeS (imm : BitVec 12) (rs2 rs1 : Reg) (f3 : BitVec 3) (op : BitVec 7) :
    Field.opcode (encodeS imm rs2 rs1 f3 op) = op := by
  show (imm.extractLsb' 5 7 ++ rs2 ++ rs1 ++ f3 ++ imm.extractLsb' 0 5 ++ op).extractLsb' 0 7 = op
  set_option simprocs false in
  simp (disch := decide) only [BitVec.extractLsb'_append_eq_of_add_le, BitVec.extractLsb'_append_eq_of_le,
    BitVec.extractLsb'_append_eq_left, BitVec.extractLsb'_append_eq_right]
  exact BitVec.extractLsb'_eq_self

@[simp] theorem Field.funct3_encodeS (imm : BitVec 12) (rs2 rs1 : Reg) (f3 : BitVec 3) (op : BitVec 7) :
    Field.funct3 (encodeS imm rs2 rs1 f3 op) = f3 := by
  show (imm.extractLsb' 5 7 ++ rs2 ++ rs1 ++ f3 ++ imm.extractLsb' 0 5 ++ op).extractLsb' 12 3 = f3
  set_option simprocs false in
  simp (disch := decide) only [BitVec.extractLsb'_append_eq_of_add_le, BitVec.extractLsb'_append_eq_of_le,
    BitVec.extractLsb'_append_eq_left, BitVec.extractLsb'_append_eq_right]
  exact BitVec.extractLsb'_eq_self

@[simp] theorem Field.rs1_encodeS (imm : BitVec 12) (rs2 rs1 : Reg) (f3 : BitVec 3) (op : BitVec 7) :
    Field.rs1 (encodeS imm rs2 rs1 f3 op) = rs1 := by
  show (imm.extractLsb' 5 7 ++ rs2 ++ rs1 ++ f3 ++ imm.extractLsb' 0 5 ++ op).extractLsb' 15 5 = rs1
  set_option simprocs false in
  simp (disch := decide) only [BitVec.extractLsb'_append_eq_of_add_le, BitVec.extractLsb'_append_eq_of_le,
    BitVec.extractLsb'_append_eq_left, BitVec.extractLsb'_append_eq_right]
  exact BitVec.extractLsb'_eq_self

@[simp] theorem Field.rs2_encodeS (imm : BitVec 12) (rs2 rs1 : Reg) (f3 : BitVec 3) (op : BitVec 7) :
    Field.rs2 (encodeS imm rs2 rs1 f3 op) = rs2 := by
  show (imm.extractLsb' 5 7 ++ rs2 ++ rs1 ++ f3 ++ imm.extractLsb' 0 5 ++ op).extractLsb' 20 5 = rs2
  set_option simprocs false in
  simp (disch := decide) only [BitVec.extractLsb'_append_eq_of_add_le, BitVec.extractLsb'_append_eq_of_le,
    BitVec.extractLsb'_append_eq_left, BitVec.extractLsb'_append_eq_right]
  exact BitVec.extractLsb'_eq_self

/-! ### Format B: the fields of an encoded word -/

@[simp] theorem Field.opcode_encodeB (imm : BitVec 13) (rs2 rs1 : Reg) (f3 : BitVec 3) (op : BitVec 7) :
    Field.opcode (encodeB imm rs2 rs1 f3 op) = op := by
  show (imm.extractLsb' 12 1 ++ imm.extractLsb' 5 6 ++ rs2 ++ rs1 ++ f3 ++ imm.extractLsb' 1 4 ++ imm.extractLsb' 11 1 ++ op).extractLsb' 0 7 = op
  set_option simprocs false in
  simp (disch := decide) only [BitVec.extractLsb'_append_eq_of_add_le, BitVec.extractLsb'_append_eq_of_le,
    BitVec.extractLsb'_append_eq_left, BitVec.extractLsb'_append_eq_right]
  exact BitVec.extractLsb'_eq_self

@[simp] theorem Field.funct3_encodeB (imm : BitVec 13) (rs2 rs1 : Reg) (f3 : BitVec 3) (op : BitVec 7) :
    Field.funct3 (encodeB imm rs2 rs1 f3 op) = f3 := by
  show (imm.extractLsb' 12 1 ++ imm.extractLsb' 5 6 ++ rs2 ++ rs1 ++ f3 ++ imm.extractLsb' 1 4 ++ imm.extractLsb' 11 1 ++ op).extractLsb' 12 3 = f3
  set_option simprocs false in
  simp (disch := decide) only [BitVec.extractLsb'_append_eq_of_add_le, BitVec.extractLsb'_append_eq_of_le,
    BitVec.extractLsb'_append_eq_left, BitVec.extractLsb'_append_eq_right]
  exact BitVec.extractLsb'_eq_self

@[simp] theorem Field.rs1_encodeB (imm : BitVec 13) (rs2 rs1 : Reg) (f3 : BitVec 3) (op : BitVec 7) :
    Field.rs1 (encodeB imm rs2 rs1 f3 op) = rs1 := by
  show (imm.extractLsb' 12 1 ++ imm.extractLsb' 5 6 ++ rs2 ++ rs1 ++ f3 ++ imm.extractLsb' 1 4 ++ imm.extractLsb' 11 1 ++ op).extractLsb' 15 5 = rs1
  set_option simprocs false in
  simp (disch := decide) only [BitVec.extractLsb'_append_eq_of_add_le, BitVec.extractLsb'_append_eq_of_le,
    BitVec.extractLsb'_append_eq_left, BitVec.extractLsb'_append_eq_right]
  exact BitVec.extractLsb'_eq_self

@[simp] theorem Field.rs2_encodeB (imm : BitVec 13) (rs2 rs1 : Reg) (f3 : BitVec 3) (op : BitVec 7) :
    Field.rs2 (encodeB imm rs2 rs1 f3 op) = rs2 := by
  show (imm.extractLsb' 12 1 ++ imm.extractLsb' 5 6 ++ rs2 ++ rs1 ++ f3 ++ imm.extractLsb' 1 4 ++ imm.extractLsb' 11 1 ++ op).extractLsb' 20 5 = rs2
  set_option simprocs false in
  simp (disch := decide) only [BitVec.extractLsb'_append_eq_of_add_le, BitVec.extractLsb'_append_eq_of_le,
    BitVec.extractLsb'_append_eq_left, BitVec.extractLsb'_append_eq_right]
  exact BitVec.extractLsb'_eq_self

/-! ### Format U: the fields of an encoded word -/

@[simp] theorem Field.opcode_encodeU (imm : BitVec 20) (rd : Reg) (op : BitVec 7) :
    Field.opcode (encodeU imm rd op) = op := by
  show (imm ++ rd ++ op).extractLsb' 0 7 = op
  set_option simprocs false in
  simp (disch := decide) only [BitVec.extractLsb'_append_eq_of_add_le, BitVec.extractLsb'_append_eq_of_le,
    BitVec.extractLsb'_append_eq_left, BitVec.extractLsb'_append_eq_right]
  exact BitVec.extractLsb'_eq_self

@[simp] theorem Field.rd_encodeU (imm : BitVec 20) (rd : Reg) (op : BitVec 7) :
    Field.rd (encodeU imm rd op) = rd := by
  show (imm ++ rd ++ op).extractLsb' 7 5 = rd
  set_option simprocs false in
  simp (disch := decide) only [BitVec.extractLsb'_append_eq_of_add_le, BitVec.extractLsb'_append_eq_of_le,
    BitVec.extractLsb'_append_eq_left, BitVec.extractLsb'_append_eq_right]
  exact BitVec.extractLsb'_eq_self

@[simp] theorem Field.immU_encodeU (imm : BitVec 20) (rd : Reg) (op : BitVec 7) :
    Field.immU (encodeU imm rd op) = imm := by
  show (imm ++ rd ++ op).extractLsb' 12 20 = imm
  set_option simprocs false in
  simp (disch := decide) only [BitVec.extractLsb'_append_eq_of_add_le, BitVec.extractLsb'_append_eq_of_le,
    BitVec.extractLsb'_append_eq_left, BitVec.extractLsb'_append_eq_right]
  exact BitVec.extractLsb'_eq_self

/-! ### Format J: the fields of an encoded word -/

@[simp] theorem Field.opcode_encodeJ (imm : BitVec 21) (rd : Reg) (op : BitVec 7) :
    Field.opcode (encodeJ imm rd op) = op := by
  show (imm.extractLsb' 20 1 ++ imm.extractLsb' 1 10 ++ imm.extractLsb' 11 1 ++ imm.extractLsb' 12 8 ++ rd ++ op).extractLsb' 0 7 = op
  set_option simprocs false in
  simp (disch := decide) only [BitVec.extractLsb'_append_eq_of_add_le, BitVec.extractLsb'_append_eq_of_le,
    BitVec.extractLsb'_append_eq_left, BitVec.extractLsb'_append_eq_right]
  exact BitVec.extractLsb'_eq_self

@[simp] theorem Field.rd_encodeJ (imm : BitVec 21) (rd : Reg) (op : BitVec 7) :
    Field.rd (encodeJ imm rd op) = rd := by
  show (imm.extractLsb' 20 1 ++ imm.extractLsb' 1 10 ++ imm.extractLsb' 11 1 ++ imm.extractLsb' 12 8 ++ rd ++ op).extractLsb' 7 5 = rd
  set_option simprocs false in
  simp (disch := decide) only [BitVec.extractLsb'_append_eq_of_add_le, BitVec.extractLsb'_append_eq_of_le,
    BitVec.extractLsb'_append_eq_left, BitVec.extractLsb'_append_eq_right]
  exact BitVec.extractLsb'_eq_self

/-! ### Split immediates -/

@[simp] theorem Field.immS_encodeS (imm : BitVec 12) (rs2 rs1 : Reg) (f3 : BitVec 3) (op : BitVec 7) :
    Field.immS (encodeS imm rs2 rs1 f3 op) = imm := by
  have hi : (imm.extractLsb' 5 7 ++ rs2 ++ rs1 ++ f3 ++ imm.extractLsb' 0 5 ++ op).extractLsb' 25 7 = imm.extractLsb' 5 7 := by
    set_option simprocs false in
    simp (disch := decide) only [BitVec.extractLsb'_append_eq_of_add_le, BitVec.extractLsb'_append_eq_of_le,
      BitVec.extractLsb'_append_eq_left, BitVec.extractLsb'_append_eq_right]
    exact BitVec.extractLsb'_eq_self
  have lo : (imm.extractLsb' 5 7 ++ rs2 ++ rs1 ++ f3 ++ imm.extractLsb' 0 5 ++ op).extractLsb' 7 5 = imm.extractLsb' 0 5 := by
    set_option simprocs false in
    simp (disch := decide) only [BitVec.extractLsb'_append_eq_of_add_le, BitVec.extractLsb'_append_eq_of_le,
      BitVec.extractLsb'_append_eq_left, BitVec.extractLsb'_append_eq_right]
    exact BitVec.extractLsb'_eq_self
  show (imm.extractLsb' 5 7 ++ rs2 ++ rs1 ++ f3 ++ imm.extractLsb' 0 5 ++ op).extractLsb' 25 7 ++ (imm.extractLsb' 5 7 ++ rs2 ++ rs1 ++ f3 ++ imm.extractLsb' 0 5 ++ op).extractLsb' 7 5 = imm
  rw [hi, lo]
  exact (BitVec.extractLsb'_append_extractLsb'_eq_extractLsb' rfl).trans BitVec.extractLsb'_eq_self

theorem Field.immB_encodeB (imm : BitVec 13) (rs2 rs1 : Reg) (f3 : BitVec 3) (op : BitVec 7) (even : evenOffset imm = true) :
    Field.immB (encodeB imm rs2 rs1 f3 op) = imm := by
  have p0 : (imm.extractLsb' 12 1 ++ imm.extractLsb' 5 6 ++ rs2 ++ rs1 ++ f3 ++ imm.extractLsb' 1 4 ++ imm.extractLsb' 11 1 ++ op).extractLsb' 31 1 = imm.extractLsb' 12 1 := by
    set_option simprocs false in
    simp (disch := decide) only [BitVec.extractLsb'_append_eq_of_add_le, BitVec.extractLsb'_append_eq_of_le,
      BitVec.extractLsb'_append_eq_left, BitVec.extractLsb'_append_eq_right]
    exact BitVec.extractLsb'_eq_self
  have p1 : (imm.extractLsb' 12 1 ++ imm.extractLsb' 5 6 ++ rs2 ++ rs1 ++ f3 ++ imm.extractLsb' 1 4 ++ imm.extractLsb' 11 1 ++ op).extractLsb' 7 1 = imm.extractLsb' 11 1 := by
    set_option simprocs false in
    simp (disch := decide) only [BitVec.extractLsb'_append_eq_of_add_le, BitVec.extractLsb'_append_eq_of_le,
      BitVec.extractLsb'_append_eq_left, BitVec.extractLsb'_append_eq_right]
    exact BitVec.extractLsb'_eq_self
  have p2 : (imm.extractLsb' 12 1 ++ imm.extractLsb' 5 6 ++ rs2 ++ rs1 ++ f3 ++ imm.extractLsb' 1 4 ++ imm.extractLsb' 11 1 ++ op).extractLsb' 25 6 = imm.extractLsb' 5 6 := by
    set_option simprocs false in
    simp (disch := decide) only [BitVec.extractLsb'_append_eq_of_add_le, BitVec.extractLsb'_append_eq_of_le,
      BitVec.extractLsb'_append_eq_left, BitVec.extractLsb'_append_eq_right]
    exact BitVec.extractLsb'_eq_self
  have p3 : (imm.extractLsb' 12 1 ++ imm.extractLsb' 5 6 ++ rs2 ++ rs1 ++ f3 ++ imm.extractLsb' 1 4 ++ imm.extractLsb' 11 1 ++ op).extractLsb' 8 4 = imm.extractLsb' 1 4 := by
    set_option simprocs false in
    simp (disch := decide) only [BitVec.extractLsb'_append_eq_of_add_le, BitVec.extractLsb'_append_eq_of_le,
      BitVec.extractLsb'_append_eq_left, BitVec.extractLsb'_append_eq_right]
    exact BitVec.extractLsb'_eq_self
  have z : 0#1 = imm.extractLsb' 0 1 := by
    simp only [evenOffset, Bool.not_eq_true'] at even
    ext i hi
    have : i = 0 := by omega
    subst this
    simpa using even.symm
  show (imm.extractLsb' 12 1 ++ imm.extractLsb' 5 6 ++ rs2 ++ rs1 ++ f3 ++ imm.extractLsb' 1 4 ++ imm.extractLsb' 11 1 ++ op).extractLsb' 31 1 ++ (imm.extractLsb' 12 1 ++ imm.extractLsb' 5 6 ++ rs2 ++ rs1 ++ f3 ++ imm.extractLsb' 1 4 ++ imm.extractLsb' 11 1 ++ op).extractLsb' 7 1 ++ (imm.extractLsb' 12 1 ++ imm.extractLsb' 5 6 ++ rs2 ++ rs1 ++ f3 ++ imm.extractLsb' 1 4 ++ imm.extractLsb' 11 1 ++ op).extractLsb' 25 6 ++ (imm.extractLsb' 12 1 ++ imm.extractLsb' 5 6 ++ rs2 ++ rs1 ++ f3 ++ imm.extractLsb' 1 4 ++ imm.extractLsb' 11 1 ++ op).extractLsb' 8 4 ++ 0#1 = imm
  rw [p0, p1, p2, p3, z]
  set_option simprocs false in
  simp (disch := decide) only [BitVec.extractLsb'_append_extractLsb'_eq_extractLsb']
  exact BitVec.extractLsb'_eq_self

theorem Field.immJ_encodeJ (imm : BitVec 21) (rd : Reg) (op : BitVec 7) (even : evenOffset imm = true) :
    Field.immJ (encodeJ imm rd op) = imm := by
  have p0 : (imm.extractLsb' 20 1 ++ imm.extractLsb' 1 10 ++ imm.extractLsb' 11 1 ++ imm.extractLsb' 12 8 ++ rd ++ op).extractLsb' 31 1 = imm.extractLsb' 20 1 := by
    set_option simprocs false in
    simp (disch := decide) only [BitVec.extractLsb'_append_eq_of_add_le, BitVec.extractLsb'_append_eq_of_le,
      BitVec.extractLsb'_append_eq_left, BitVec.extractLsb'_append_eq_right]
    exact BitVec.extractLsb'_eq_self
  have p1 : (imm.extractLsb' 20 1 ++ imm.extractLsb' 1 10 ++ imm.extractLsb' 11 1 ++ imm.extractLsb' 12 8 ++ rd ++ op).extractLsb' 12 8 = imm.extractLsb' 12 8 := by
    set_option simprocs false in
    simp (disch := decide) only [BitVec.extractLsb'_append_eq_of_add_le, BitVec.extractLsb'_append_eq_of_le,
      BitVec.extractLsb'_append_eq_left, BitVec.extractLsb'_append_eq_right]
    exact BitVec.extractLsb'_eq_self
  have p2 : (imm.extractLsb' 20 1 ++ imm.extractLsb' 1 10 ++ imm.extractLsb' 11 1 ++ imm.extractLsb' 12 8 ++ rd ++ op).extractLsb' 20 1 = imm.extractLsb' 11 1 := by
    set_option simprocs false in
    simp (disch := decide) only [BitVec.extractLsb'_append_eq_of_add_le, BitVec.extractLsb'_append_eq_of_le,
      BitVec.extractLsb'_append_eq_left, BitVec.extractLsb'_append_eq_right]
    exact BitVec.extractLsb'_eq_self
  have p3 : (imm.extractLsb' 20 1 ++ imm.extractLsb' 1 10 ++ imm.extractLsb' 11 1 ++ imm.extractLsb' 12 8 ++ rd ++ op).extractLsb' 21 10 = imm.extractLsb' 1 10 := by
    set_option simprocs false in
    simp (disch := decide) only [BitVec.extractLsb'_append_eq_of_add_le, BitVec.extractLsb'_append_eq_of_le,
      BitVec.extractLsb'_append_eq_left, BitVec.extractLsb'_append_eq_right]
    exact BitVec.extractLsb'_eq_self
  have z : 0#1 = imm.extractLsb' 0 1 := by
    simp only [evenOffset, Bool.not_eq_true'] at even
    ext i hi
    have : i = 0 := by omega
    subst this
    simpa using even.symm
  show (imm.extractLsb' 20 1 ++ imm.extractLsb' 1 10 ++ imm.extractLsb' 11 1 ++ imm.extractLsb' 12 8 ++ rd ++ op).extractLsb' 31 1 ++ (imm.extractLsb' 20 1 ++ imm.extractLsb' 1 10 ++ imm.extractLsb' 11 1 ++ imm.extractLsb' 12 8 ++ rd ++ op).extractLsb' 12 8 ++ (imm.extractLsb' 20 1 ++ imm.extractLsb' 1 10 ++ imm.extractLsb' 11 1 ++ imm.extractLsb' 12 8 ++ rd ++ op).extractLsb' 20 1 ++ (imm.extractLsb' 20 1 ++ imm.extractLsb' 1 10 ++ imm.extractLsb' 11 1 ++ imm.extractLsb' 12 8 ++ rd ++ op).extractLsb' 21 10 ++ 0#1 = imm
  rw [p0, p1, p2, p3, z]
  set_option simprocs false in
  simp (disch := decide) only [BitVec.extractLsb'_append_extractLsb'_eq_extractLsb']
  exact BitVec.extractLsb'_eq_self

/-! ### A word is the encoding of its own fields -/

theorem encodeR_fields (w : Word) :
    encodeR (Field.funct7 w) (Field.rs2 w) (Field.rs1 w) (Field.funct3 w) (Field.rd w) (Field.opcode w) = w := by
  show w.extractLsb' 25 7 ++ w.extractLsb' 20 5 ++ w.extractLsb' 15 5 ++ w.extractLsb' 12 3 ++ w.extractLsb' 7 5
    ++ w.extractLsb' 0 7 = w
  set_option simprocs false in
  simp (disch := decide) only [BitVec.extractLsb'_append_extractLsb'_eq_extractLsb']
  exact BitVec.extractLsb'_eq_self

theorem encodeI_fields (w : Word) :
    encodeI (Field.immI w) (Field.rs1 w) (Field.funct3 w) (Field.rd w) (Field.opcode w) = w := by
  show w.extractLsb' 20 12 ++ w.extractLsb' 15 5 ++ w.extractLsb' 12 3 ++ w.extractLsb' 7 5 ++ w.extractLsb' 0 7 = w
  set_option simprocs false in
  simp (disch := decide) only [BitVec.extractLsb'_append_extractLsb'_eq_extractLsb']
  exact BitVec.extractLsb'_eq_self

theorem encodeU_fields (w : Word) : encodeU (Field.immU w) (Field.rd w) (Field.opcode w) = w := by
  show w.extractLsb' 12 20 ++ w.extractLsb' 7 5 ++ w.extractLsb' 0 7 = w
  set_option simprocs false in
  simp (disch := decide) only [BitVec.extractLsb'_append_extractLsb'_eq_extractLsb']
  exact BitVec.extractLsb'_eq_self

theorem encodeS_fields (w : Word) :
    encodeS (Field.immS w) (Field.rs2 w) (Field.rs1 w) (Field.funct3 w) (Field.opcode w) = w := by
  have hi : (w.extractLsb' 25 7 ++ w.extractLsb' 7 5).extractLsb' 5 7 = w.extractLsb' 25 7 :=
    BitVec.extractLsb'_append_eq_left
  have lo : (w.extractLsb' 25 7 ++ w.extractLsb' 7 5).extractLsb' 0 5 = w.extractLsb' 7 5 :=
    BitVec.extractLsb'_append_eq_right
  show (w.extractLsb' 25 7 ++ w.extractLsb' 7 5).extractLsb' 5 7 ++ w.extractLsb' 20 5 ++ w.extractLsb' 15 5
    ++ w.extractLsb' 12 3 ++ (w.extractLsb' 25 7 ++ w.extractLsb' 7 5).extractLsb' 0 5 ++ w.extractLsb' 0 7 = w
  rw [hi, lo]
  set_option simprocs false in
  simp (disch := decide) only [BitVec.extractLsb'_append_extractLsb'_eq_extractLsb']
  exact BitVec.extractLsb'_eq_self

theorem encodeB_fields (w : Word) :
    encodeB (Field.immB w) (Field.rs2 w) (Field.rs1 w) (Field.funct3 w) (Field.opcode w) = w := by
  have p0 : (w.extractLsb' 31 1 ++ w.extractLsb' 7 1 ++ w.extractLsb' 25 6 ++ w.extractLsb' 8 4 ++ 0#1).extractLsb' 12 1 = w.extractLsb' 31 1 := by
    set_option simprocs false in
    simp (disch := decide) only [BitVec.extractLsb'_append_eq_of_add_le, BitVec.extractLsb'_append_eq_of_le,
      BitVec.extractLsb'_append_eq_left, BitVec.extractLsb'_append_eq_right]
    exact BitVec.extractLsb'_eq_self
  have p1 : (w.extractLsb' 31 1 ++ w.extractLsb' 7 1 ++ w.extractLsb' 25 6 ++ w.extractLsb' 8 4 ++ 0#1).extractLsb' 5 6 = w.extractLsb' 25 6 := by
    set_option simprocs false in
    simp (disch := decide) only [BitVec.extractLsb'_append_eq_of_add_le, BitVec.extractLsb'_append_eq_of_le,
      BitVec.extractLsb'_append_eq_left, BitVec.extractLsb'_append_eq_right]
    exact BitVec.extractLsb'_eq_self
  have p2 : (w.extractLsb' 31 1 ++ w.extractLsb' 7 1 ++ w.extractLsb' 25 6 ++ w.extractLsb' 8 4 ++ 0#1).extractLsb' 1 4 = w.extractLsb' 8 4 := by
    set_option simprocs false in
    simp (disch := decide) only [BitVec.extractLsb'_append_eq_of_add_le, BitVec.extractLsb'_append_eq_of_le,
      BitVec.extractLsb'_append_eq_left, BitVec.extractLsb'_append_eq_right]
    exact BitVec.extractLsb'_eq_self
  have p3 : (w.extractLsb' 31 1 ++ w.extractLsb' 7 1 ++ w.extractLsb' 25 6 ++ w.extractLsb' 8 4 ++ 0#1).extractLsb' 11 1 = w.extractLsb' 7 1 := by
    set_option simprocs false in
    simp (disch := decide) only [BitVec.extractLsb'_append_eq_of_add_le, BitVec.extractLsb'_append_eq_of_le,
      BitVec.extractLsb'_append_eq_left, BitVec.extractLsb'_append_eq_right]
    exact BitVec.extractLsb'_eq_self
  show (w.extractLsb' 31 1 ++ w.extractLsb' 7 1 ++ w.extractLsb' 25 6 ++ w.extractLsb' 8 4 ++ 0#1).extractLsb' 12 1 ++ (w.extractLsb' 31 1 ++ w.extractLsb' 7 1 ++ w.extractLsb' 25 6 ++ w.extractLsb' 8 4 ++ 0#1).extractLsb' 5 6 ++ w.extractLsb' 20 5 ++ w.extractLsb' 15 5 ++ w.extractLsb' 12 3
    ++ (w.extractLsb' 31 1 ++ w.extractLsb' 7 1 ++ w.extractLsb' 25 6 ++ w.extractLsb' 8 4 ++ 0#1).extractLsb' 1 4 ++ (w.extractLsb' 31 1 ++ w.extractLsb' 7 1 ++ w.extractLsb' 25 6 ++ w.extractLsb' 8 4 ++ 0#1).extractLsb' 11 1 ++ w.extractLsb' 0 7 = w
  rw [p0, p1, p2, p3]
  set_option simprocs false in
  simp (disch := decide) only [BitVec.extractLsb'_append_extractLsb'_eq_extractLsb']
  exact BitVec.extractLsb'_eq_self

theorem encodeJ_fields (w : Word) : encodeJ (Field.immJ w) (Field.rd w) (Field.opcode w) = w := by
  have p0 : (w.extractLsb' 31 1 ++ w.extractLsb' 12 8 ++ w.extractLsb' 20 1 ++ w.extractLsb' 21 10 ++ 0#1).extractLsb' 20 1 = w.extractLsb' 31 1 := by
    set_option simprocs false in
    simp (disch := decide) only [BitVec.extractLsb'_append_eq_of_add_le, BitVec.extractLsb'_append_eq_of_le,
      BitVec.extractLsb'_append_eq_left, BitVec.extractLsb'_append_eq_right]
    exact BitVec.extractLsb'_eq_self
  have p1 : (w.extractLsb' 31 1 ++ w.extractLsb' 12 8 ++ w.extractLsb' 20 1 ++ w.extractLsb' 21 10 ++ 0#1).extractLsb' 1 10 = w.extractLsb' 21 10 := by
    set_option simprocs false in
    simp (disch := decide) only [BitVec.extractLsb'_append_eq_of_add_le, BitVec.extractLsb'_append_eq_of_le,
      BitVec.extractLsb'_append_eq_left, BitVec.extractLsb'_append_eq_right]
    exact BitVec.extractLsb'_eq_self
  have p2 : (w.extractLsb' 31 1 ++ w.extractLsb' 12 8 ++ w.extractLsb' 20 1 ++ w.extractLsb' 21 10 ++ 0#1).extractLsb' 11 1 = w.extractLsb' 20 1 := by
    set_option simprocs false in
    simp (disch := decide) only [BitVec.extractLsb'_append_eq_of_add_le, BitVec.extractLsb'_append_eq_of_le,
      BitVec.extractLsb'_append_eq_left, BitVec.extractLsb'_append_eq_right]
    exact BitVec.extractLsb'_eq_self
  have p3 : (w.extractLsb' 31 1 ++ w.extractLsb' 12 8 ++ w.extractLsb' 20 1 ++ w.extractLsb' 21 10 ++ 0#1).extractLsb' 12 8 = w.extractLsb' 12 8 := by
    set_option simprocs false in
    simp (disch := decide) only [BitVec.extractLsb'_append_eq_of_add_le, BitVec.extractLsb'_append_eq_of_le,
      BitVec.extractLsb'_append_eq_left, BitVec.extractLsb'_append_eq_right]
    exact BitVec.extractLsb'_eq_self
  show (w.extractLsb' 31 1 ++ w.extractLsb' 12 8 ++ w.extractLsb' 20 1 ++ w.extractLsb' 21 10 ++ 0#1).extractLsb' 20 1 ++ (w.extractLsb' 31 1 ++ w.extractLsb' 12 8 ++ w.extractLsb' 20 1 ++ w.extractLsb' 21 10 ++ 0#1).extractLsb' 1 10 ++ (w.extractLsb' 31 1 ++ w.extractLsb' 12 8 ++ w.extractLsb' 20 1 ++ w.extractLsb' 21 10 ++ 0#1).extractLsb' 11 1 ++ (w.extractLsb' 31 1 ++ w.extractLsb' 12 8 ++ w.extractLsb' 20 1 ++ w.extractLsb' 21 10 ++ 0#1).extractLsb' 12 8
    ++ w.extractLsb' 7 5 ++ w.extractLsb' 0 7 = w
  rw [p0, p1, p2, p3]
  set_option simprocs false in
  simp (disch := decide) only [BitVec.extractLsb'_append_extractLsb'_eq_extractLsb']
  exact BitVec.extractLsb'_eq_self

/-- A decoded B-type offset is even (spec/30_encoding.md R156). -/
@[simp] theorem evenOffset_immB (w : Word) : evenOffset (Field.immB w) = true := by
  show (!(w.extractLsb' 31 1 ++ w.extractLsb' 7 1 ++ w.extractLsb' 25 6 ++ w.extractLsb' 8 4 ++ 0#1).getLsbD 0) = true
  rw [BitVec.getLsbD_append]
  rfl

/-- A decoded J-type offset is even (spec/30_encoding.md R158). -/
@[simp] theorem evenOffset_immJ (w : Word) : evenOffset (Field.immJ w) = true := by
  show (!(w.extractLsb' 31 1 ++ w.extractLsb' 12 8 ++ w.extractLsb' 20 1 ++ w.extractLsb' 21 10 ++ 0#1).getLsbD 0) = true
  rw [BitVec.getLsbD_append]
  rfl

/-! ### Bytes -/

/-- A word is its four bytes, little-endian (spec/20_memory.md R95). -/
@[simp] theorem wordOfBytes_byteOfWord (w : Word) :
    wordOfBytes (byteOfWord w 0) (byteOfWord w 1) (byteOfWord w 2) (byteOfWord w 3) = w := by
  show w.extractLsb' 24 8 ++ w.extractLsb' 16 8 ++ w.extractLsb' 8 8 ++ w.extractLsb' 0 8 = w
  set_option simprocs false in
  simp (disch := decide) only [BitVec.extractLsb'_append_extractLsb'_eq_extractLsb']
  exact BitVec.extractLsb'_eq_self

end Sys2Proof
end

