-- ==== Sys2Proof/Laws/PerInstr.lean ====
section
/-! SUPPORT. For every instruction: its encoding lies in its own row of spec/opcode_table.json (mask and match). -/

namespace Sys2Proof.Laws.TableRow

/-- The word of `i`, masked as its row says, is the row's match. -/
def Statement (i : Instr) : Prop := encode i &&& i.row.1 = i.row.2

/-! ### The masked word of each format keeps the opcode and the function fields only -/

theorem maskedR (f7 : BitVec 7) (rs2 rs1 : Reg) (f3 : BitVec 3) (rd : Reg) (op : BitVec 7) :
    encodeR f7 rs2 rs1 f3 rd op &&& 0xFE00707F#32 = encodeR f7 0#5 0#5 f3 0#5 op := by
  show (f7 ++ rs2 ++ rs1 ++ f3 ++ rd ++ op) &&& (127#7 ++ 0#5 ++ 0#5 ++ 7#3 ++ 0#5 ++ 127#7) = f7 ++ 0#5 ++ 0#5 ++ f3 ++ 0#5 ++ op
  have h7 : ∀ x : BitVec 7, x &&& 127#7 = x := fun _ => BitVec.and_allOnes
  have h3 : ∀ x : BitVec 3, x &&& 7#3 = x := fun _ => BitVec.and_allOnes
  simp only [BitVec.and_append, h7, h3, BitVec.and_zero]

theorem maskedI (imm : BitVec 12) (rs1 : Reg) (f3 : BitVec 3) (rd : Reg) (op : BitVec 7) :
    encodeI imm rs1 f3 rd op &&& 0x0000707F#32 = encodeI 0#12 0#5 f3 0#5 op := by
  show (imm ++ rs1 ++ f3 ++ rd ++ op) &&& (0#12 ++ 0#5 ++ 7#3 ++ 0#5 ++ 127#7) = 0#12 ++ 0#5 ++ f3 ++ 0#5 ++ op
  have h7 : ∀ x : BitVec 7, x &&& 127#7 = x := fun _ => BitVec.and_allOnes
  have h3 : ∀ x : BitVec 3, x &&& 7#3 = x := fun _ => BitVec.and_allOnes
  simp only [BitVec.and_append, h7, h3, BitVec.and_zero]

theorem maskedS (imm : BitVec 12) (rs2 rs1 : Reg) (f3 : BitVec 3) (op : BitVec 7) :
    encodeS imm rs2 rs1 f3 op &&& 0x0000707F#32 = encodeS 0#12 0#5 0#5 f3 op := by
  show (imm.extractLsb' 5 7 ++ rs2 ++ rs1 ++ f3 ++ imm.extractLsb' 0 5 ++ op) &&& (0#7 ++ 0#5 ++ 0#5 ++ 7#3 ++ 0#5 ++ 127#7)
    = 0#7 ++ 0#5 ++ 0#5 ++ f3 ++ 0#5 ++ op
  have h7 : ∀ x : BitVec 7, x &&& 127#7 = x := fun _ => BitVec.and_allOnes
  have h3 : ∀ x : BitVec 3, x &&& 7#3 = x := fun _ => BitVec.and_allOnes
  simp only [BitVec.and_append, h7, h3, BitVec.and_zero]

theorem maskedB (imm : BitVec 13) (rs2 rs1 : Reg) (f3 : BitVec 3) (op : BitVec 7) :
    encodeB imm rs2 rs1 f3 op &&& 0x0000707F#32 = encodeB 0#13 0#5 0#5 f3 op := by
  show (imm.extractLsb' 12 1 ++ imm.extractLsb' 5 6 ++ rs2 ++ rs1 ++ f3 ++ imm.extractLsb' 1 4 ++ imm.extractLsb' 11 1 ++ op) &&& (0#1 ++ 0#6 ++ 0#5 ++ 0#5 ++ 7#3 ++ 0#4 ++ 0#1 ++ 127#7)
    = 0#1 ++ 0#6 ++ 0#5 ++ 0#5 ++ f3 ++ 0#4 ++ 0#1 ++ op
  have h7 : ∀ x : BitVec 7, x &&& 127#7 = x := fun _ => BitVec.and_allOnes
  have h3 : ∀ x : BitVec 3, x &&& 7#3 = x := fun _ => BitVec.and_allOnes
  simp only [BitVec.and_append, h7, h3, BitVec.and_zero]

theorem maskedU (imm : BitVec 20) (rd : Reg) (op : BitVec 7) :
    encodeU imm rd op &&& 0x0000007F#32 = encodeU 0#20 0#5 op := by
  show (imm ++ rd ++ op) &&& (0#20 ++ 0#5 ++ 127#7) = 0#20 ++ 0#5 ++ op
  have h7 : ∀ x : BitVec 7, x &&& 127#7 = x := fun _ => BitVec.and_allOnes
  simp only [BitVec.and_append, h7, BitVec.and_zero]

theorem maskedJ (imm : BitVec 21) (rd : Reg) (op : BitVec 7) :
    encodeJ imm rd op &&& 0x0000007F#32 = encodeJ 0#21 0#5 op := by
  show (imm.extractLsb' 20 1 ++ imm.extractLsb' 1 10 ++ imm.extractLsb' 11 1 ++ imm.extractLsb' 12 8 ++ rd ++ op) &&& (0#1 ++ 0#10 ++ 0#1 ++ 0#8 ++ 0#5 ++ 127#7) = 0#1 ++ 0#10 ++ 0#1 ++ 0#8 ++ 0#5 ++ op
  have h7 : ∀ x : BitVec 7, x &&& 127#7 = x := fun _ => BitVec.and_allOnes
  simp only [BitVec.and_append, h7, BitVec.and_zero]

/-! ### One lemma per instruction -/

theorem addi (rd rs1 : Reg) (imm : BitVec 12) : Statement (.addi rd rs1 imm) :=
  maskedI ..

theorem slti (rd rs1 : Reg) (imm : BitVec 12) : Statement (.slti rd rs1 imm) :=
  maskedI ..

theorem sltiu (rd rs1 : Reg) (imm : BitVec 12) : Statement (.sltiu rd rs1 imm) :=
  maskedI ..

theorem xori (rd rs1 : Reg) (imm : BitVec 12) : Statement (.xori rd rs1 imm) :=
  maskedI ..

theorem ori (rd rs1 : Reg) (imm : BitVec 12) : Statement (.ori rd rs1 imm) :=
  maskedI ..

theorem andi (rd rs1 : Reg) (imm : BitVec 12) : Statement (.andi rd rs1 imm) :=
  maskedI ..

theorem slli (rd rs1 : Reg) (shamt : BitVec 5) : Statement (.slli rd rs1 shamt) :=
  maskedR ..

theorem srli (rd rs1 : Reg) (shamt : BitVec 5) : Statement (.srli rd rs1 shamt) :=
  maskedR ..

theorem srai (rd rs1 : Reg) (shamt : BitVec 5) : Statement (.srai rd rs1 shamt) :=
  maskedR ..

theorem add (rd rs1 rs2 : Reg) : Statement (.add rd rs1 rs2) :=
  maskedR ..

theorem sub (rd rs1 rs2 : Reg) : Statement (.sub rd rs1 rs2) :=
  maskedR ..

theorem sll (rd rs1 rs2 : Reg) : Statement (.sll rd rs1 rs2) :=
  maskedR ..

theorem slt (rd rs1 rs2 : Reg) : Statement (.slt rd rs1 rs2) :=
  maskedR ..

theorem sltu (rd rs1 rs2 : Reg) : Statement (.sltu rd rs1 rs2) :=
  maskedR ..

theorem xor (rd rs1 rs2 : Reg) : Statement (.xor rd rs1 rs2) :=
  maskedR ..

theorem srl (rd rs1 rs2 : Reg) : Statement (.srl rd rs1 rs2) :=
  maskedR ..

theorem sra (rd rs1 rs2 : Reg) : Statement (.sra rd rs1 rs2) :=
  maskedR ..

theorem or (rd rs1 rs2 : Reg) : Statement (.or rd rs1 rs2) :=
  maskedR ..

theorem and (rd rs1 rs2 : Reg) : Statement (.and rd rs1 rs2) :=
  maskedR ..

theorem mul (rd rs1 rs2 : Reg) : Statement (.mul rd rs1 rs2) :=
  maskedR ..

theorem mulh (rd rs1 rs2 : Reg) : Statement (.mulh rd rs1 rs2) :=
  maskedR ..

theorem mulhsu (rd rs1 rs2 : Reg) : Statement (.mulhsu rd rs1 rs2) :=
  maskedR ..

theorem mulhu (rd rs1 rs2 : Reg) : Statement (.mulhu rd rs1 rs2) :=
  maskedR ..

theorem div (rd rs1 rs2 : Reg) : Statement (.div rd rs1 rs2) :=
  maskedR ..

theorem divu (rd rs1 rs2 : Reg) : Statement (.divu rd rs1 rs2) :=
  maskedR ..

theorem rem (rd rs1 rs2 : Reg) : Statement (.rem rd rs1 rs2) :=
  maskedR ..

theorem remu (rd rs1 rs2 : Reg) : Statement (.remu rd rs1 rs2) :=
  maskedR ..

theorem lb (rd rs1 : Reg) (imm : BitVec 12) : Statement (.lb rd rs1 imm) :=
  maskedI ..

theorem lh (rd rs1 : Reg) (imm : BitVec 12) : Statement (.lh rd rs1 imm) :=
  maskedI ..

theorem lw (rd rs1 : Reg) (imm : BitVec 12) : Statement (.lw rd rs1 imm) :=
  maskedI ..

theorem lbu (rd rs1 : Reg) (imm : BitVec 12) : Statement (.lbu rd rs1 imm) :=
  maskedI ..

theorem lhu (rd rs1 : Reg) (imm : BitVec 12) : Statement (.lhu rd rs1 imm) :=
  maskedI ..

theorem sb (rs1 rs2 : Reg) (imm : BitVec 12) : Statement (.sb rs1 rs2 imm) :=
  maskedS ..

theorem sh (rs1 rs2 : Reg) (imm : BitVec 12) : Statement (.sh rs1 rs2 imm) :=
  maskedS ..

theorem sw (rs1 rs2 : Reg) (imm : BitVec 12) : Statement (.sw rs1 rs2 imm) :=
  maskedS ..

theorem beq (rs1 rs2 : Reg) (imm : BitVec 13) : Statement (.beq rs1 rs2 imm) :=
  maskedB ..

theorem bne (rs1 rs2 : Reg) (imm : BitVec 13) : Statement (.bne rs1 rs2 imm) :=
  maskedB ..

theorem blt (rs1 rs2 : Reg) (imm : BitVec 13) : Statement (.blt rs1 rs2 imm) :=
  maskedB ..

theorem bge (rs1 rs2 : Reg) (imm : BitVec 13) : Statement (.bge rs1 rs2 imm) :=
  maskedB ..

theorem bltu (rs1 rs2 : Reg) (imm : BitVec 13) : Statement (.bltu rs1 rs2 imm) :=
  maskedB ..

theorem bgeu (rs1 rs2 : Reg) (imm : BitVec 13) : Statement (.bgeu rs1 rs2 imm) :=
  maskedB ..

theorem jal (rd : Reg) (imm : BitVec 21) : Statement (.jal rd imm) :=
  maskedJ ..

theorem jalr (rd rs1 : Reg) (imm : BitVec 12) : Statement (.jalr rd rs1 imm) :=
  maskedI ..

theorem lui (rd : Reg) (imm : BitVec 20) : Statement (.lui rd imm) :=
  maskedU ..

theorem auipc (rd : Reg) (imm : BitVec 20) : Statement (.auipc rd imm) :=
  maskedU ..

theorem ecall : Statement .ecall := by
  unfold Statement
  decide

theorem ebreak : Statement .ebreak := by
  unfold Statement
  decide

theorem mret : Statement .mret := by
  unfold Statement
  decide

theorem csrrw (rd rs1 : Reg) (csr : CsrNum) : Statement (.csrrw rd rs1 csr) :=
  maskedI ..

theorem csrrs (rd rs1 : Reg) (csr : CsrNum) : Statement (.csrrs rd rs1 csr) :=
  maskedI ..

theorem csrrc (rd rs1 : Reg) (csr : CsrNum) : Statement (.csrrc rd rs1 csr) :=
  maskedI ..

theorem csrrwi (rd : Reg) (uimm : BitVec 5) (csr : CsrNum) : Statement (.csrrwi rd uimm csr) :=
  maskedI ..

theorem csrrsi (rd : Reg) (uimm : BitVec 5) (csr : CsrNum) : Statement (.csrrsi rd uimm csr) :=
  maskedI ..

theorem csrrci (rd : Reg) (uimm : BitVec 5) (csr : CsrNum) : Statement (.csrrci rd uimm csr) :=
  maskedI ..

end Sys2Proof.Laws.TableRow
end

