-- ==== Sys2Proof/Tests/Slice0.lean ====
section
/-! SUPPORT. The model's own tests: every constructor decoded from a word the spec writes out, well-formedness, one step of each instruction with the outcome of spec/95_test_vectors.md, and a witness for every statement that has hypotheses. -/

namespace Sys2Proof.Tests

open Sys2Proof Sys2Proof.Machine

/-! ### Helpers -/

/-- The reset state with the given registers. -/
def withRegs (rs : List (Reg × Word)) : State := rs.foldl (fun s p => s.setReg p.1 p.2) State.reset

/-- A next state that meets `p`. -/
def answers (r : Result) (p : State → Bool) : Bool :=
  match r with
  | .next t => p t
  | .fault _ | .refused _ => false

/-- One step of the machine that fetches `w`. -/
def runs (w : Nat) (s : State) (p : State → Bool) : Bool := answers (step (s.withFetchWord 32 w)) p

/-- One step leaves `v` in register `r` and the pc at 0x80000004. -/
def gives (w : Nat) (rs : List (Reg × Word)) (r : Reg) (v : Word) : Bool :=
  runs w (withRegs rs) (fun t => t.reg r == v && t.pc == 0x80000004#32 && t.instret == 1)

/-- One step leaves the pc at `target`. -/
def goesTo (w : Nat) (rs : List (Reg × Word)) (target : Word) : Bool :=
  runs w (withRegs rs) (fun t => t.pc == target && t.instret == 1)

/-- The reset state with RAM bytes 80 FF 34 12 at 0x80000104 and x1 = 0x80000100 (spec/95_test_vectors.md T4). -/
def loadState : State :=
  { withRegs [(1#5, 0x80000100#32), (2#5, 0xAABBCCDD#32)] with
    mem := Memory.writeBytes [] 0x80000104 0x1234FF80#32 4 }

/-- The trap that one step enters: pc, mepc, mcause, mtval, mstatus and the record's class and kind. -/
def traps (w : Nat) (s : State) (pc epc cause tval status : Word) (cls : TrapClass) (kind : Cause) : Bool :=
  runs w s (fun t => t.pc == pc && t.csr.mepc == epc && t.csr.mcause == cause && t.csr.mtval == tval
    && t.csr.mstatus == status && decide (t.traps = [⟨cls, kind, cause, epc, tval⟩]) && t.instret == 0)

/-- The reset state with the given CSRs. -/
def withCsrs (cs : List (CsrNum × Word)) (s : State) : State := cs.foldl (fun s p => s.setCsr p.1 p.2) s

/-! ### Decoding: the word of each rule's example -/

/-- The word of R200's example. -/
theorem test_decode_addi : decodeWord 0x00500093#32 = .ok (.addi 1#5 0#5 5#12) := by decide

/-- The word of R201's example. -/
theorem test_decode_slti : decodeWord 0xFFF12193#32 = .ok (.slti 3#5 2#5 0xFFF#12) := by decide

/-- The word of R202's example. -/
theorem test_decode_sltiu : decodeWord 0xFFF13193#32 = .ok (.sltiu 3#5 2#5 0xFFF#12) := by decide

/-- The word of R203's example. -/
theorem test_decode_xori : decodeWord 0xFFF14193#32 = .ok (.xori 3#5 2#5 0xFFF#12) := by decide

/-- The word of R204's example. -/
theorem test_decode_ori : decodeWord 0x0F016193#32 = .ok (.ori 3#5 2#5 0x0F0#12) := by decide

/-- The word of R205's example. -/
theorem test_decode_andi : decodeWord 0x0FF17193#32 = .ok (.andi 3#5 2#5 0x0FF#12) := by decide

/-- The word of R206's example. -/
theorem test_decode_slli : decodeWord 0x00411193#32 = .ok (.slli 3#5 2#5 4#5) := by decide

/-- The word of R207's example. -/
theorem test_decode_srli : decodeWord 0x00415193#32 = .ok (.srli 3#5 2#5 4#5) := by decide

/-- The word of R208's example. -/
theorem test_decode_srai : decodeWord 0x40415193#32 = .ok (.srai 3#5 2#5 4#5) := by decide

/-- The word of R210's example. -/
theorem test_decode_add : decodeWord 0x002081B3#32 = .ok (.add 3#5 1#5 2#5) := by decide

/-- The word of R211's example. -/
theorem test_decode_sub : decodeWord 0x402081B3#32 = .ok (.sub 3#5 1#5 2#5) := by decide

/-- The word of R212's example. -/
theorem test_decode_sll : decodeWord 0x002091B3#32 = .ok (.sll 3#5 1#5 2#5) := by decide

/-- The word of R213's example. -/
theorem test_decode_slt : decodeWord 0x0020A1B3#32 = .ok (.slt 3#5 1#5 2#5) := by decide

/-- The word of R214's example. -/
theorem test_decode_sltu : decodeWord 0x0020B1B3#32 = .ok (.sltu 3#5 1#5 2#5) := by decide

/-- The word of R215's example. -/
theorem test_decode_xor : decodeWord 0x0020C1B3#32 = .ok (.xor 3#5 1#5 2#5) := by decide

/-- The word of R216's example. -/
theorem test_decode_srl : decodeWord 0x0020D1B3#32 = .ok (.srl 3#5 1#5 2#5) := by decide

/-- The word of R217's example. -/
theorem test_decode_sra : decodeWord 0x4020D1B3#32 = .ok (.sra 3#5 1#5 2#5) := by decide

/-- The word of R218's example. -/
theorem test_decode_or : decodeWord 0x0020E1B3#32 = .ok (.or 3#5 1#5 2#5) := by decide

/-- The word of R219's example. -/
theorem test_decode_and : decodeWord 0x0020F1B3#32 = .ok (.and 3#5 1#5 2#5) := by decide

/-- The word of R243's example. -/
theorem test_decode_mul : decodeWord 0x022081B3#32 = .ok (.mul 3#5 1#5 2#5) := by decide

/-- The word of R244's example. -/
theorem test_decode_mulh : decodeWord 0x022091B3#32 = .ok (.mulh 3#5 1#5 2#5) := by decide

/-- The word of R245's example. -/
theorem test_decode_mulhsu : decodeWord 0x0220A1B3#32 = .ok (.mulhsu 3#5 1#5 2#5) := by decide

/-- The word of R246's example. -/
theorem test_decode_mulhu : decodeWord 0x0220B1B3#32 = .ok (.mulhu 3#5 1#5 2#5) := by decide

/-- The word of R247's example. -/
theorem test_decode_div : decodeWord 0x0220C1B3#32 = .ok (.div 3#5 1#5 2#5) := by decide

/-- The word of R248's example. -/
theorem test_decode_divu : decodeWord 0x0220D1B3#32 = .ok (.divu 3#5 1#5 2#5) := by decide

/-- The word of R249's example. -/
theorem test_decode_rem : decodeWord 0x0220E1B3#32 = .ok (.rem 3#5 1#5 2#5) := by decide

/-- The word of R250's example. -/
theorem test_decode_remu : decodeWord 0x0220F1B3#32 = .ok (.remu 3#5 1#5 2#5) := by decide

/-- The word of R265's example. -/
theorem test_decode_lb : decodeWord 0x00408183#32 = .ok (.lb 3#5 1#5 4#12) := by decide

/-- The word of R266's example. -/
theorem test_decode_lh : decodeWord 0x00409183#32 = .ok (.lh 3#5 1#5 4#12) := by decide

/-- The word of R267's example. -/
theorem test_decode_lw : decodeWord 0x0040A183#32 = .ok (.lw 3#5 1#5 4#12) := by decide

/-- The word of R268's example. -/
theorem test_decode_lbu : decodeWord 0x0040C183#32 = .ok (.lbu 3#5 1#5 4#12) := by decide

/-- The word of R269's example. -/
theorem test_decode_lhu : decodeWord 0x0040D183#32 = .ok (.lhu 3#5 1#5 4#12) := by decide

/-- The word of R270's example. -/
theorem test_decode_sb : decodeWord 0x00208223#32 = .ok (.sb 1#5 2#5 4#12) := by decide

/-- The word of R271's example. -/
theorem test_decode_sh : decodeWord 0x00209223#32 = .ok (.sh 1#5 2#5 4#12) := by decide

/-- The word of R272's example. -/
theorem test_decode_sw : decodeWord 0x0020A223#32 = .ok (.sw 1#5 2#5 4#12) := by decide

/-- The word of R293's example. -/
theorem test_decode_beq : decodeWord 0x00208463#32 = .ok (.beq 1#5 2#5 8#13) := by decide

/-- The word of R294's example. -/
theorem test_decode_bne : decodeWord 0x00209463#32 = .ok (.bne 1#5 2#5 8#13) := by decide

/-- The word of R295's example. -/
theorem test_decode_blt : decodeWord 0x0020C463#32 = .ok (.blt 1#5 2#5 8#13) := by decide

/-- The word of R296's example. -/
theorem test_decode_bge : decodeWord 0x0020D463#32 = .ok (.bge 1#5 2#5 8#13) := by decide

/-- The word of R297's example. -/
theorem test_decode_bltu : decodeWord 0x0020E463#32 = .ok (.bltu 1#5 2#5 8#13) := by decide

/-- The word of R298's example. -/
theorem test_decode_bgeu : decodeWord 0x0020F463#32 = .ok (.bgeu 1#5 2#5 8#13) := by decide

/-- The word of R311's example. -/
theorem test_decode_jal : decodeWord 0x010000EF#32 = .ok (.jal 1#5 16#21) := by decide

/-- The word of R312's example. -/
theorem test_decode_jalr : decodeWord 0x004280E7#32 = .ok (.jalr 1#5 5#5 4#12) := by decide

/-- The word of R320's example. -/
theorem test_decode_lui : decodeWord 0x123451B7#32 = .ok (.lui 3#5 0x12345#20) := by decide

/-- The word of R321's example. -/
theorem test_decode_auipc : decodeWord 0x00001197#32 = .ok (.auipc 3#5 1#20) := by decide

/-- The word of R330's example. -/
theorem test_decode_ecall : decodeWord 0x00000073#32 = .ok (.ecall) := by decide

/-- The word of R331's example. -/
theorem test_decode_ebreak : decodeWord 0x00100073#32 = .ok (.ebreak) := by decide

/-- The word of R332's example. -/
theorem test_decode_mret : decodeWord 0x30200073#32 = .ok (.mret) := by decide

/-- The word of R335's example. -/
theorem test_decode_csrrw : decodeWord 0x305091F3#32 = .ok (.csrrw 3#5 1#5 0x305#12) := by decide

/-- The word of R336's example. -/
theorem test_decode_csrrs : decodeWord 0x3000A1F3#32 = .ok (.csrrs 3#5 1#5 0x300#12) := by decide

/-- The word of R337's example. -/
theorem test_decode_csrrc : decodeWord 0x3000B1F3#32 = .ok (.csrrc 3#5 1#5 0x300#12) := by decide

/-- The word of R338's example. -/
theorem test_decode_csrrwi : decodeWord 0x3052D1F3#32 = .ok (.csrrwi 3#5 5#5 0x305#12) := by decide

/-- The word of R339's example. -/
theorem test_decode_csrrsi : decodeWord 0x30046073#32 = .ok (.csrrsi 0#5 8#5 0x300#12) := by decide

/-- The word of R340's example. -/
theorem test_decode_csrrci : decodeWord 0x300471F3#32 = .ok (.csrrci 3#5 8#5 0x300#12) := by decide

/-- R294 (bne x2, x0, -8), T6 rows 12 and 13, T7 rows 2 and 3; the last word is written out from R153. -/
theorem test_decode_split_immediates : decodeWord 0xFE011CE3#32 = .ok (.bne 2#5 0#5 0x1FF8#13) ∧ decodeWord 0x80000063#32 = .ok (.beq 0#5 0#5 0x1000#13) ∧ decodeWord 0x7E000FE3#32 = .ok (.beq 0#5 0#5 0x0FFE#13) ∧ decodeWord 0xFFDFF06F#32 = .ok (.jal 0#5 0x1FFFFC#21) ∧ decodeWord 0x7FFFF0EF#32 = .ok (.jal 1#5 0x0FFFFE#21) ∧ decodeWord 0x02021123#32 = .ok (.sh 4#5 0#5 0x022#12) := by decide

/-- T10 rows 1 to 15: words that are no instruction. -/
theorem test_decode_illegal : [0x00000000#32, 0x0000000F#32, 0x0000100F#32, 0x10500073#32, 0x10200073#32, 0x000000F3#32, 0x00004073#32, 0x0000B183#32, 0x0200D193#32, 0x02109193#32, 0x402091B3#32, 0x000010E7#32, 0x00002063#32, 0x0000B023#32, 0xFFFFFFFF#32].all (fun w => (decodeWord w).toOption.isNone) = true := by decide

/-- R164 names an AMO opcode, a LOAD funct3, an OP funct7 and URET; three bytes are no word (R150). -/
theorem test_decode_by_name : decodeWord 0x0000002F#32 = .error .opcode ∧ decodeWord 0x0000B183#32 = .error .funct3 ∧ decodeWord 0x402091B3#32 = .error .funct7 ∧ decodeWord 0x00200073#32 = .error .systemWord ∧ decodeBytes [0x93#8, 0x00#8, 0x50#8] = .error .truncated := by decide

/-- E7: the bytes 93 00 50 00 are addi x1, x0, 5. -/
theorem test_decode_bytes : decodeBytes [0x93#8, 0x00#8, 0x50#8, 0x00#8, 0x73#8] = .ok (.addi 1#5 0#5 5#12, [0x73#8]) := by decide

/-- The table's numbering of bits (R14). -/
theorem test_decode_table_word : decodeTableWord 32 0x00500093 = some (.addi 1#5 0#5 5#12) ∧ decodeTableWord 32 0 = none := by decide

/-! ### Well-formedness -/

/-- An odd branch offset has no encoding (R156). -/
theorem test_illformed_beq : (Instr.beq 1#5 2#5 7#13).wellFormed = false ∧ (Instr.beq 1#5 2#5 0x1FFE#13).wellFormed = true := by decide

/-- An odd branch offset has no encoding (R156). -/
theorem test_illformed_bne : (Instr.bne 1#5 2#5 7#13).wellFormed = false ∧ (Instr.bne 1#5 2#5 0x1FFE#13).wellFormed = true := by decide

/-- An odd branch offset has no encoding (R156). -/
theorem test_illformed_blt : (Instr.blt 1#5 2#5 7#13).wellFormed = false ∧ (Instr.blt 1#5 2#5 0x1FFE#13).wellFormed = true := by decide

/-- An odd branch offset has no encoding (R156). -/
theorem test_illformed_bge : (Instr.bge 1#5 2#5 7#13).wellFormed = false ∧ (Instr.bge 1#5 2#5 0x1FFE#13).wellFormed = true := by decide

/-- An odd branch offset has no encoding (R156). -/
theorem test_illformed_bltu : (Instr.bltu 1#5 2#5 7#13).wellFormed = false ∧ (Instr.bltu 1#5 2#5 0x1FFE#13).wellFormed = true := by decide

/-- An odd branch offset has no encoding (R156). -/
theorem test_illformed_bgeu : (Instr.bgeu 1#5 2#5 7#13).wellFormed = false ∧ (Instr.bgeu 1#5 2#5 0x1FFE#13).wellFormed = true := by decide

/-- An odd jump offset has no encoding (R158). -/
theorem test_illformed_jal : (Instr.jal 1#5 1#21).wellFormed = false ∧ (Instr.jal 1#5 0x100000#21).wellFormed = true := by decide

/-- Bit 0 of a branch offset is not in the word (R156). -/
theorem test_illformed_is_not_decoded : decodeWord (encode (.beq 1#5 2#5 7#13)) ≠ .ok (.beq 1#5 2#5 7#13) := by decide

/-! ### One step of each instruction -/

/-- T2 row 2. -/
theorem test_addi : gives 0x7FF08193 [(1#5, 0x7FFFF801#32)] 3#5 0x80000000#32 = true := by decide

/-- T2 row 3. -/
theorem test_addi_negative : gives 0x80000193 [] 3#5 0xFFFFF800#32 = true := by decide

/-- T2 row 7. -/
theorem test_slti : gives 0x8000A193 [(1#5, 0x80000000#32)] 3#5 1#32 = true := by decide

/-- T2 row 5. -/
theorem test_slti_negative : gives 0xFFF0A193 [(1#5, 0xFFFFFFFE#32)] 3#5 1#32 = true := by decide

/-- T2 row 11. -/
theorem test_sltiu : gives 0xFFF0B193 [(1#5, 0x00001000#32)] 3#5 0#32 = true := by decide

/-- T2 row 12. -/
theorem test_sltiu_below : gives 0x8000B193 [(1#5, 0x000007FF#32)] 3#5 1#32 = true := by decide

/-- T2 row 15. -/
theorem test_xori : gives 0x7FF0C193 [(1#5, 0xFFFFF800#32)] 3#5 0xFFFFFFFF#32 = true := by decide

/-- T2 row 16. -/
theorem test_ori : gives 0x8000E193 [] 3#5 0xFFFFF800#32 = true := by decide

/-- T2 row 17. -/
theorem test_andi : gives 0x7FF0F193 [(1#5, 0xFFFFFFFF#32)] 3#5 0x7FF#32 = true := by decide

/-- T2 row 19. -/
theorem test_slli : gives 0x01F09193 [(1#5, 3#32)] 3#5 0x80000000#32 = true := by decide

/-- T2 row 22. -/
theorem test_srli : gives 0x01F0D193 [(1#5, 0xFFFFFFFF#32)] 3#5 1#32 = true := by decide

/-- T2 row 23. -/
theorem test_srai : gives 0x4010D193 [(1#5, 0x80000001#32)] 3#5 0xC0000000#32 = true := by decide

/-- T1 row 2. -/
theorem test_add : gives 0x002081B3 [(1#5, 0xFFFFFFFF#32), (2#5, 1#32)] 3#5 0#32 = true := by decide

/-- T1 row 3: rd is both sources. -/
theorem test_add_same : gives 0x001080B3 [(1#5, 0x40000001#32)] 1#5 0x80000002#32 = true := by decide

/-- T1 row 5. -/
theorem test_sub : gives 0x402081B3 [(2#5, 1#32)] 3#5 0xFFFFFFFF#32 = true := by decide

/-- T1 row 17. -/
theorem test_sll : gives 0x002091B3 [(1#5, 1#32), (2#5, 0xFFFFFFE1#32)] 3#5 2#32 = true := by decide

/-- T1 row 7. -/
theorem test_slt : gives 0x0020A1B3 [(1#5, 0xFFFFFFFF#32), (2#5, 1#32)] 3#5 1#32 = true := by decide

/-- T1 row 8. -/
theorem test_slt_not : gives 0x0020A1B3 [(1#5, 0x7FFFFFFF#32), (2#5, 0x80000000#32)] 3#5 0#32 = true := by decide

/-- T1 row 11. -/
theorem test_sltu : gives 0x002031B3 [(2#5, 1#32)] 3#5 1#32 = true := by decide

/-- T1 row 10. -/
theorem test_sltu_not : gives 0x0020B1B3 [(1#5, 0xFFFFFFFF#32), (2#5, 1#32)] 3#5 0#32 = true := by decide

/-- T1 row 12. -/
theorem test_xor : gives 0x0020C1B3 [(1#5, 0xF0F0F0F0#32), (2#5, 0xFF00FF00#32)] 3#5 0x0FF00FF0#32 = true := by decide

/-- T1 row 13. -/
theorem test_or : gives 0x0020E1B3 [(1#5, 0xF0F0F0F0#32), (2#5, 0xFF00FF00#32)] 3#5 0xFFF0FFF0#32 = true := by decide

/-- T1 row 14. -/
theorem test_and : gives 0x0020F1B3 [(1#5, 0xF0F0F0F0#32), (2#5, 0xFF00FF00#32)] 3#5 0xF000F000#32 = true := by decide

/-- T1 row 18. -/
theorem test_srl : gives 0x0020D1B3 [(1#5, 0x80000000#32), (2#5, 0x1F#32)] 3#5 1#32 = true := by decide

/-- T1 row 21. -/
theorem test_sra : gives 0x4020D1B3 [(1#5, 0x80000000#32), (2#5, 0x21#32)] 3#5 0xC0000000#32 = true := by decide

/-- T3 row 1. -/
theorem test_mul : gives 0x022081B3 [(1#5, 0x80000000#32), (2#5, 0xFFFFFFFF#32)] 3#5 0x80000000#32 = true := by decide

/-- T3 row 5. -/
theorem test_mulh : gives 0x022091B3 [(1#5, 0x80000000#32), (2#5, 0x80000000#32)] 3#5 0x40000000#32 = true := by decide

/-- T3 row 4. -/
theorem test_mulh_negative : gives 0x022091B3 [(1#5, 0xFFFFFFFF#32), (2#5, 0xFFFFFFFF#32)] 3#5 0#32 = true := by decide

/-- T3 row 7. -/
theorem test_mulhsu : gives 0x0220A1B3 [(1#5, 0xFFFFFFFF#32), (2#5, 0xFFFFFFFF#32)] 3#5 0xFFFFFFFF#32 = true := by decide

/-- T3 row 8. -/
theorem test_mulhsu_unsigned : gives 0x0220A1B3 [(1#5, 2#32), (2#5, 0x80000000#32)] 3#5 1#32 = true := by decide

/-- T3 row 6. -/
theorem test_mulhu : gives 0x0220B1B3 [(1#5, 0xFFFFFFFF#32), (2#5, 0xFFFFFFFF#32)] 3#5 0xFFFFFFFE#32 = true := by decide

/-- T3 row 9. -/
theorem test_div : gives 0x0220C1B3 [(1#5, 0xFFFFFFF9#32), (2#5, 2#32)] 3#5 0xFFFFFFFD#32 = true := by decide

/-- T3 row 10. -/
theorem test_div_overflow : gives 0x0220C1B3 [(1#5, 0x80000000#32), (2#5, 0xFFFFFFFF#32)] 3#5 0x80000000#32 = true := by decide

/-- T3 row 12. -/
theorem test_divu : gives 0x0220D1B3 [(1#5, 0xFFFFFFF9#32), (2#5, 2#32)] 3#5 0x7FFFFFFC#32 = true := by decide

/-- T3 row 13. -/
theorem test_divu_zero : gives 0x0200D1B3 [] 3#5 0xFFFFFFFF#32 = true := by decide

/-- T3 row 15. -/
theorem test_rem : gives 0x0220E1B3 [(1#5, 7#32), (2#5, 0xFFFFFFFE#32)] 3#5 1#32 = true := by decide

/-- T3 row 16. -/
theorem test_rem_overflow : gives 0x0220E1B3 [(1#5, 0x80000000#32), (2#5, 0xFFFFFFFF#32)] 3#5 0#32 = true := by decide

/-- T3 row 18. -/
theorem test_remu : gives 0x0220F1B3 [(1#5, 0xFFFFFFF9#32), (2#5, 0xFFFFFFFE#32)] 3#5 0xFFFFFFF9#32 = true := by decide

/-- T3 row 19. -/
theorem test_remu_zero : gives 0x0200F1B3 [(1#5, 7#32)] 3#5 7#32 = true := by decide

/-- T8 row 2. -/
theorem test_lui : gives 0xFFFFF1B7 [] 3#5 0xFFFFF000#32 = true := by decide

/-- T8 row 3. -/
theorem test_lui_x0 : gives 0x12345037 [] 0#5 0#32 = true := by decide

/-- T8 row 6. -/
theorem test_auipc : gives 0x80000197 [] 3#5 0#32 = true := by decide

/-- T6 row 7. -/
theorem test_beq : goesTo 0x00108463 [(1#5, 0xFFFFFFFF#32)] 0x80000008#32 = true := by decide

/-- T6 row 1. -/
theorem test_beq_not : goesTo 0x00208463 [(1#5, 0xFFFFFFFF#32), (2#5, 1#32)] 0x80000004#32 = true := by decide

/-- T6 row 2. -/
theorem test_bne : goesTo 0x00209463 [(1#5, 0xFFFFFFFF#32), (2#5, 1#32)] 0x80000008#32 = true := by decide

/-- T6 row 16. -/
theorem test_bne_not : goesTo 0x00001163 [] 0x80000004#32 = true := by decide

/-- T6 row 3. -/
theorem test_blt : goesTo 0x0020C463 [(1#5, 0xFFFFFFFF#32), (2#5, 1#32)] 0x80000008#32 = true := by decide

/-- T6 row 4. -/
theorem test_bge : goesTo 0x0020D463 [(1#5, 0xFFFFFFFF#32), (2#5, 1#32)] 0x80000004#32 = true := by decide

/-- T6 row 8. -/
theorem test_bge_equal : goesTo 0x0010D463 [(1#5, 0xFFFFFFFF#32)] 0x80000008#32 = true := by decide

/-- T6 row 5. -/
theorem test_bltu : goesTo 0x0020E463 [(1#5, 0xFFFFFFFF#32), (2#5, 1#32)] 0x80000004#32 = true := by decide

/-- T6 row 6. -/
theorem test_bgeu : goesTo 0x0020F463 [(1#5, 0xFFFFFFFF#32), (2#5, 1#32)] 0x80000008#32 = true := by decide

/-- T6 row 15. -/
theorem test_beq_below_ram : goesTo 0xFE000EE3 [] 0x7FFFFFFC#32 = true := by decide

/-- T7 row 3. -/
theorem test_jal : runs 0x7FFFF0EF State.reset (fun t => t.reg 1#5 == 0x80000004#32 && t.pc == 0x800FFFFE#32) = true := by decide

/-- T7 row 4: the last word of RAM. -/
theorem test_jal_backward : runs 0x800000EF { State.reset with pc := 0x8000FFFC#32 } (fun t => t.reg 1#5 == 0x80010000#32 && t.pc == 0x7FF0FFFC#32) = true := by decide

/-- T7 row 10: rd = rs1, the old x5 is used. -/
theorem test_jalr : runs 0x003282E7 (withRegs [(5#5, 0x80000101#32)]) (fun t => t.reg 5#5 == 0x80000004#32 && t.pc == 0x80000104#32) = true := by decide

/-- T7 row 13. -/
theorem test_jalr_wraps : runs 0xFFF100E7 State.reset (fun t => t.reg 1#5 == 0x80000004#32 && t.pc == 0xFFFFFFFE#32) = true := by decide

/-! ### Loads and stores -/

/-- T4 row 1. -/
theorem test_lb : runs 0x00408183 loadState (fun t => t.reg 3#5 == 0xFFFFFF80#32 && t.pc == 0x80000004#32 && t.dcache.misses == 1 && t.dcache.hits == 0) = true := by decide

/-- T4 row 2. -/
theorem test_lbu : runs 0x0040C183 loadState (fun t => t.reg 3#5 == 0x80#32 && t.pc == 0x80000004#32 && t.dcache.misses == 1 && t.dcache.hits == 0) = true := by decide

/-- T4 row 4. -/
theorem test_lb_lane : runs 0x00608183 loadState (fun t => t.reg 3#5 == 0x34#32 && t.pc == 0x80000004#32 && t.dcache.misses == 1 && t.dcache.hits == 0) = true := by decide

/-- T4 row 5. -/
theorem test_lh : runs 0x00409183 loadState (fun t => t.reg 3#5 == 0xFFFFFF80#32 && t.pc == 0x80000004#32 && t.dcache.misses == 1 && t.dcache.hits == 0) = true := by decide

/-- T4 row 6. -/
theorem test_lhu : runs 0x0040D183 loadState (fun t => t.reg 3#5 == 0xFF80#32 && t.pc == 0x80000004#32 && t.dcache.misses == 1 && t.dcache.hits == 0) = true := by decide

/-- T4 row 7. -/
theorem test_lh_lane : runs 0x00609183 loadState (fun t => t.reg 3#5 == 0x1234#32 && t.pc == 0x80000004#32 && t.dcache.misses == 1 && t.dcache.hits == 0) = true := by decide

/-- T4 row 8. -/
theorem test_lw : runs 0x0040A183 loadState (fun t => t.reg 3#5 == 0x1234FF80#32 && t.pc == 0x80000004#32 && t.dcache.misses == 1 && t.dcache.hits == 0) = true := by decide

/-- T4 row 9: rd = rs1. -/
theorem test_lw_same : runs 0x0040A083 loadState (fun t => t.reg 1#5 == 0x1234FF80#32) = true := by decide

/-- T4 row 11: the access is performed. -/
theorem test_load_to_x0 : runs 0x0040A003 loadState (fun t => t.reg 0#5 == 0#32 && t.pc == 0x80000004#32 && t.dcache.misses == 1) = true := by decide

/-- T4 row 12 (lw) and T5 row 5 (sh). -/
theorem test_misaligned_refused : step (loadState.withFetchWord 32 0x0050A183) = .refused .misalignedData ∧ step (loadState.withFetchWord 32 0x002092A3) = .refused .misalignedData := ⟨by rfl, by rfl⟩

/-- E9: lw x3, 4(x0) with a direct handler. -/
theorem test_load_fault : traps 0x00402183 (withCsrs [(0x305#12, 0x80000100#32)] State.reset) 0x80000100#32 0x80000000#32 5#32 4#32 0#32 .exception .loadFault = true := by decide

/-- T4 row 15. -/
theorem test_load_fault_above_ram : traps 0x00012183 (withRegs [(2#5, 0x80010000#32)]) 0#32 0x80000000#32 5#32 0x80010000#32 0#32 .exception .loadFault = true := by decide

/-- T10 row 23. -/
theorem test_store_fault_vectored : traps 0x00002023 (withCsrs [(0x305#12, 0x80000101#32), (0x300#12, 8#32)] State.reset) 0x8000011C#32 0x80000000#32 7#32 0#32 0x80#32 .exception .storeFault = true := by decide

/-- T5 row 1. -/
theorem test_sw : runs 0x0020A223 loadState (fun t => Memory.read t.mem 0x80000104 == 0xDD#8 && Memory.read t.mem 0x80000105 == 0xCC#8 && Memory.read t.mem 0x80000106 == 0xBB#8 && Memory.read t.mem 0x80000107 == 0xAA#8 && t.dcache.misses == 1 && t.pc == 0x80000004#32) = true := by decide

/-- T5 row 2. -/
theorem test_sh : runs 0x00209323 loadState (fun t => Memory.read t.mem 0x80000105 == 0xFF#8 && Memory.read t.mem 0x80000106 == 0xDD#8 && Memory.read t.mem 0x80000107 == 0xCC#8 && t.dcache.misses == 1 && t.pc == 0x80000004#32) = true := by decide

/-- T5 row 3. -/
theorem test_sb : runs 0x002082A3 loadState (fun t => Memory.read t.mem 0x80000104 == 0x80#8 && Memory.read t.mem 0x80000105 == 0xDD#8 && Memory.read t.mem 0x80000106 == 0x34#8 && t.dcache.misses == 1 && t.pc == 0x80000004#32) = true := by decide

/-- T5 row 8: a word store appends the low byte alone. -/
theorem test_uart_store : runs 0x0021A023 (withRegs [(2#5, 0xAABBCCDD#32), (3#5, 0x10000000#32)]) (fun t => t.dev.uartOut == [0xDD#8] && t.dev.plicPending == 0x400#32 && t.dcache.misses == 0) = true := by decide

/-- T5 row 9. -/
theorem test_uart_second_byte_faults : traps 0x002180A3 (withRegs [(2#5, 0xAABBCCDD#32), (3#5, 0x10000000#32)]) 0#32 0x80000000#32 7#32 0x10000001#32 0#32 .exception .storeFault = true := by decide

/-- T5 row 11. -/
theorem test_pending_byte_lane : runs 0x002180A3 (withRegs [(2#5, 0xAABBCCDD#32), (3#5, 0x0C001000#32)]) (fun t => t.dev.plicPending == 0xDD00#32) = true := by decide

/-- T5 row 14. -/
theorem test_mtimecmp_half : runs 0x00219223 (withRegs [(2#5, 0xAABBCCDD#32), (3#5, 0x02004000#32)]) (fun t => t.dev.mtimecmp == 0xCCDD00000000#64) = true := by decide

/-- T4 row 19. -/
theorem test_claim_load : answers (exec (.lw 3#5 2#5 4#12) { withRegs [(2#5, 0x0C200000#32)] with dev := { DevState.reset with plicPending := 0x404#32, plicEnable := 0x400#32 } }) (fun t => t.reg 3#5 == 10#32 && t.dev.plicPending == 4#32) = true := by decide

/-- T4 row 20. -/
theorem test_claim_load_none : answers (exec (.lw 3#5 2#5 4#12) { withRegs [(2#5, 0x0C200000#32)] with dev := { DevState.reset with plicPending := 0x404#32 } }) (fun t => t.reg 3#5 == 0#32 && t.dev.plicPending == 0x404#32) = true := by decide

/-- T5 row 12. -/
theorem test_claim_store_ignored : answers (exec (.sw 3#5 2#5 4#12) { withRegs [(2#5, 0xAABBCCDD#32), (3#5, 0x0C200000#32)] with dev := { DevState.reset with plicPending := 0x400#32, plicEnable := 0x400#32 } }) (fun t => decide (t.dev = { DevState.reset with plicPending := 0x400#32, plicEnable := 0x400#32 })) = true := by decide

/-- T4 rows 17 and 18. -/
theorem test_mtime_halves : answers (exec (.lw 3#5 2#5 0#12) { withRegs [(2#5, 0x0200BFF8#32)] with dev := { DevState.reset with mtime := 0x123456789#64 } }) (fun t => t.reg 3#5 == 0x23456789#32) = true ∧ answers (exec (.lw 3#5 2#5 4#12) { withRegs [(2#5, 0x0200BFF8#32)] with dev := { DevState.reset with mtime := 0x123456789#64 } }) (fun t => t.reg 3#5 == 1#32) = true := by decide

/-! ### System instructions -/

/-- T9 row 2: vectored. -/
theorem test_ecall : traps 0x00000073 (withCsrs [(0x305#12, 0x80000101#32)] State.reset) 0x8000012C#32 0x80000000#32 0xB#32 0#32 0#32 .exception .environmentCall = true := by decide

/-- T9 row 1: mie is 0, so no interrupt is taken with MIE = 1. -/
theorem test_ecall_direct : traps 0x00000073 { withCsrs [(0x305#12, 0x80000100#32), (0x300#12, 8#32)] State.reset with pc := 0x80000010#32 } 0x80000100#32 0x80000010#32 0xB#32 0#32 0x80#32 .exception .environmentCall = true := by decide

/-- T9 row 3. -/
theorem test_ebreak : runs 0x00100073 { State.reset with pc := 0x80000020#32 } (fun t => t.pc == 0x80000020#32 && !t.run && t.instret == 1 && t.traps.isEmpty) = true := by decide

/-- T9 row 4. -/
theorem test_mret : runs 0x30200073 (withCsrs [(0x341#12, 0x80000014#32), (0x300#12, 0x80#32)] State.reset) (fun t => t.pc == 0x80000014#32 && t.csr.mstatus == 0x88#32) = true := by decide

/-- T9 row 6. -/
theorem test_mret_misaligned : runs 0x30200073 (withCsrs [(0x341#12, 0x80000016#32)] State.reset) (fun t => t.pc == 0x80000016#32 && t.csr.mstatus == 0x80#32) = true := by decide

/-- T9 row 7. -/
theorem test_csrrw : runs 0x305091F3 (withCsrs [(0x305#12, 0x80000100#32)] (withRegs [(1#5, 0x88#32)])) (fun t => t.reg 3#5 == 0x80000100#32 && t.csr.mtvec == 0x88#32 && t.pc == 0x80000004#32) = true := by decide

/-- T9 row 14. -/
theorem test_csrrw_unknown : runs 0x340091F3 (withCsrs [] (withRegs [(1#5, 0x1234#32)])) (fun t => t.reg 3#5 == 0#32 && t.csr.read 0x340#12 == 0#32 && t.csr.mstatus == 0#32 && t.pc == 0x80000004#32) = true := by decide

/-- T9 row 11. -/
theorem test_csrrs : runs 0x3000A1F3 (withCsrs [(0x300#12, 0x80#32)] (withRegs [(1#5, 0x88#32)])) (fun t => t.reg 3#5 == 0x80#32 && t.csr.mstatus == 0x88#32 && t.pc == 0x80000004#32) = true := by decide

/-- T9 row 13. -/
theorem test_csrrs_unknown : runs 0xF14021F3 (withCsrs [] (withRegs [(1#5, 0#32)])) (fun t => t.reg 3#5 == 0#32 && t.csr.mepc == 0#32 && t.pc == 0x80000004#32) = true := by decide

/-- T9 row 16. -/
theorem test_csrrc : runs 0x3040B1F3 (withCsrs [(0x304#12, 0x888#32)] (withRegs [(1#5, 0x80#32)])) (fun t => t.reg 3#5 == 0x888#32 && t.csr.mie == 0x808#32 && t.pc == 0x80000004#32) = true := by decide

/-- T9 row 17. -/
theorem test_csrrwi : runs 0x3052D1F3 (withCsrs [(0x305#12, 0x80000100#32)] (withRegs [(1#5, 0#32)])) (fun t => t.reg 3#5 == 0x80000100#32 && t.csr.mtvec == 5#32 && t.pc == 0x80000004#32) = true := by decide

/-- T9 row 19. -/
theorem test_csrrsi : runs 0x30046073 (withCsrs [(0x300#12, 0x80#32)] (withRegs [(1#5, 0#32)])) (fun t => t.reg 3#5 == 0#32 && t.csr.mstatus == 0x88#32 && t.pc == 0x80000004#32) = true := by decide

/-- T9 row 22. -/
theorem test_csrrci : answers (exec (.csrrci 3#5 31#5 0x300#12) (withCsrs [(0x300#12, 0x9F#32)] State.reset)) (fun t => t.reg 3#5 == 0x9F#32 && t.csr.mstatus == 0x80#32) = true := by decide

/-- T9 row 9: rd = rs1 swaps. -/
theorem test_csrrw_swap : runs 0x341191F3 (withCsrs [(0x341#12, 0x80000300#32)] (withRegs [(3#5, 0x80000200#32)])) (fun t => t.reg 3#5 == 0x80000300#32 && t.csr.mepc == 0x80000200#32) = true := by decide

/-- T9 row 10. -/
theorem test_csrrw_mip_ignored : answers (exec (.csrrw 3#5 1#5 0x344#12) { withRegs [(1#5, 0xFFFFFFFF#32)] with csr := { CsrFile.reset with mip := 0x80#32 } }) (fun t => t.reg 3#5 == 0x80#32 && t.csr.mip == 0x80#32) = true := by decide

/-! ### Fetch and decode exceptions, interrupts -/

/-- T10 row 2: FENCE. -/
theorem test_illegal : traps 0x0000000F (withCsrs [(0x305#12, 0x80000100#32), (0x300#12, 8#32)] State.reset) 0x80000100#32 0x80000000#32 2#32 0xF#32 0x80#32 .exception .illegalInstruction = true := by decide

/-- T10 row 16. -/
theorem test_illegal_vectored : traps 0x00000000 (withCsrs [(0x305#12, 0x80000101#32), (0x300#12, 8#32)] State.reset) 0x80000108#32 0x80000000#32 2#32 0#32 0x80#32 .exception .illegalInstruction = true := by decide

/-- T10 row 21: misaligned and outside RAM. -/
theorem test_fetch_misaligned : answers (step { (withCsrs [(0x305#12, 0x80000100#32), (0x300#12, 8#32)] State.reset) with pc := 2#32 }) (fun t => t.pc == 0x80000100#32 && t.csr.mcause == 0#32 && t.csr.mtval == 2#32 && t.csr.mepc == 2#32) = true := by decide

/-- T10 row 20: a device address is not fetchable. -/
theorem test_fetch_fault : answers (step { (withCsrs [(0x305#12, 0x80000100#32), (0x300#12, 8#32)] State.reset) with pc := 0x10000000#32 }) (fun t => t.pc == 0x80000100#32 && t.csr.mcause == 1#32 && t.csr.mtval == 0x10000000#32) = true := by decide

/-- The software interrupt pending and enabled, with a word that is no instruction at the pc (T11 row 15). -/
def softwareState : State :=
  { withCsrs [(0x305#12, 0x80000101#32), (0x300#12, 0x88#32), (0x304#12, 8#32)] State.reset with
    dev := { DevState.reset with msip := 1#32, mtimecmp := 5#64 } }

/-- mip in terms of its three bits, whatever the timer draw. -/
theorem mip_beginCycle (s : State) :
    ∃ b, (beginCycle s).csr.mip
      = mipWord (s.dev.plicPending &&& s.dev.plicEnable &&& 0xFFFFFFFE#32 != 0#32) b (s.dev.msip != 0#32) := ⟨_, rfl⟩

/-- T11 rows 14 to 16: the software interrupt pre-empts an illegal word, vectored to base + 12, whatever the timer draw. -/
theorem test_software_interrupt :
    interruptPending (beginCycle softwareState).csr = true
    ∧ (takeInterrupt (beginCycle softwareState)).pc = 0x8000010C#32
    ∧ (takeInterrupt (beginCycle softwareState)).csr.mcause = 0x80000003#32
    ∧ (takeInterrupt (beginCycle softwareState)).csr.mepc = 0x80000000#32
    ∧ (takeInterrupt (beginCycle softwareState)).csr.mstatus = 0x80#32 := by
  obtain ⟨b, hb⟩ := mip_beginCycle softwareState
  unfold interruptPending takeInterrupt
  rw [hb]
  cases b <;> decide

/-- T11 row 8: external before timer before software. -/
theorem test_interrupt_priority :
    selectInterrupt 0x888#32 = .externalInterrupt ∧ selectInterrupt 0x88#32 = .timerInterrupt
    ∧ selectInterrupt 8#32 = .softwareInterrupt := by decide

/-- T11 rows 5 to 7, 10 and 11: the 64-bit compare, a source not enabled, and source 0. -/
theorem test_compute_mip :
    computeMip { DevState.reset with mtime := 4#64, mtimecmp := 5#64 } = 0#32
    ∧ computeMip { DevState.reset with mtime := 5#64, mtimecmp := 5#64 } = 0x80#32
    ∧ computeMip { DevState.reset with mtime := 0x100000000#64, mtimecmp := 0xFFFFFFFF#64 } = 0x80#32
    ∧ computeMip { DevState.reset with mtimecmp := 5#64, plicPending := 0x400#32 } = 0#32
    ∧ computeMip { DevState.reset with mtimecmp := 5#64, plicPending := 1#32, plicEnable := 1#32 } = 0#32
    ∧ computeMip { DevState.reset with mtimecmp := 5#64, plicPending := 0x400#32, plicEnable := 0x400#32 } = 0x800#32 := by
  decide

/-! ### The D-cache, T12 -/

/-- The bytes of T12 at the three blocks of set 0: byte a is (a >> 2) & 0xFF (the zero bytes are not listed). -/
def cacheMem : Memory :=
  Memory.writeBytes (Memory.writeBytes [] 0x80000080 0x20202020#32 4) 0x80000100 0x40404040#32 4

/-- The D-cache after the reads of T12's rows, in their order. -/
def readAll (as : List Word) : Cache := as.foldl (fun c a => (c.read cacheMem a).2) Cache.reset

/-- T12 rows 1 to 7: tags, recencies and counters after each read. -/
def cacheRow (c : Cache) : List (Bool × Nat × Nat) × Nat × Nat :=
  ([c.sets[0].line0, c.sets[0].line1].map (fun l => (l.valid, l.tag.toNat, l.recency)), c.hits, c.misses)

/-- T12 rows 3 and 4. -/
theorem test_cache_populates :
    cacheRow (readAll [0x80000000#32, 0x80000000#32, 0x80000080#32])
      = ([(true, 0x1000000, 1), (true, 0x1000001, 0)], 1, 2)
    ∧ cacheRow (readAll [0x80000000#32, 0x80000000#32, 0x80000080#32, 0x80000000#32])
      = ([(true, 0x1000000, 0), (true, 0x1000001, 1)], 2, 2) := by decide

/-- T12 rows 5 and 7. -/
theorem test_cache_evicts :
    cacheRow (readAll [0x80000000#32, 0x80000000#32, 0x80000080#32, 0x80000000#32, 0x80000100#32])
      = ([(true, 0x1000000, 1), (true, 0x1000002, 0)], 2, 3)
    ∧ cacheRow (readAll [0x80000000#32, 0x80000000#32, 0x80000080#32, 0x80000000#32, 0x80000100#32, 0x80000080#32,
        0x80000100#32]) = ([(true, 0x1000001, 1), (true, 0x1000002, 0)], 3, 4) := by decide

/-- T12 rows 8 and 9: a write hit touches its line and stores the word, a write miss only counts. -/
theorem test_cache_writes :
    cacheRow ((readAll [0x80000100#32, 0x80000080#32]).write 0x80000104#32 4 0x11223344#32)
      = ([(true, 0x1000002, 0), (true, 0x1000001, 1)], 1, 2)
    ∧ (((readAll [0x80000100#32]).write 0x80000104#32 4 0x11223344#32).read [] 0x80000104#32).1 = 0x11223344#32
    ∧ cacheRow ((readAll [0x80000100#32]).write 0x80000000#32 4 0x11223344#32)
      = ([(true, 0x1000002, 0), (false, 0, 1)], 0, 2) := by decide

/-- The words that T12 reads. -/
theorem test_cache_words :
    (Cache.reset.read cacheMem 0x80000080#32).1 = 0x20202020#32 ∧ (Cache.reset.read cacheMem 0x80000100#32).1 = 0x40404040#32
    ∧ ((readAll [0x80000100#32]).read [] 0x80000100#32).1 = 0x40404040#32 := by decide

/-! ### Witnesses: a state and operands that meet the hypotheses of each statement that has some -/

/-- x1 = 0x8000FFFF, x2 = 0x8000FFFE, x3 = 0x8000FFFC: the last byte, halfword and word of RAM; x4 = 0x80010000 is the first
address above it; x5 = 0x7FFFFFFF the last below. -/
def edgeState : State :=
  withRegs [(1#5, 0x8000FFFF#32), (2#5, 0x8000FFFE#32), (3#5, 0x8000FFFC#32), (4#5, 0x80010000#32), (5#5, 0x7FFFFFFF#32)]

/-- x1 = the last byte of PENDING, x2 = its upper halfword, x3 = CLAIM, x4 = the UART byte. -/
def deviceState : State :=
  withRegs [(1#5, 0x0C001003#32), (2#5, 0x0C001002#32), (3#5, 0x0C200004#32), (4#5, 0x10000000#32)]

/-- The reset state about to fetch `w`. -/
def about (w : Nat) : State := State.reset.withFetchWord 32 w

/-- The I-cache after the fetch of the reset state's first block. -/
def warmState : State := { State.reset with icache := (State.reset.icache.read [] 0x80000000#32).2 }

theorem ready_about (w : Nat) : Ready (about w) := ⟨rfl, rfl, by show configValid Config.test = true; decide⟩

theorem noInterrupt_about (w : Nat) : NoInterrupt (about w) := by
  unfold NoInterrupt interruptPending
  rw [show statusMie (beginCycle (about w)).csr.mstatus = false from (by decide : statusMie 0#32 = false), Bool.false_and]

theorem fetchable_about (w : Nat) : Fetchable (about w) :=
  ⟨by show Config.test.resetPc.toNat % 4 = 0; decide, by show inRam Config.test Config.test.resetPc.toNat 4 = true; decide⟩

/-- DivisionIdentity: the overflow pair, rd = rs1. -/
theorem witness_DivisionIdentity :
    (1#5 : Reg) ≠ 0#5 ∧ ∃ q r p m : State,
      exec (.div 1#5 1#5 2#5) (withRegs [(1#5, 0x80000000#32), (2#5, 0xFFFFFFFF#32)]) = .next q
      ∧ exec (.rem 1#5 1#5 2#5) (withRegs [(1#5, 0x80000000#32), (2#5, 0xFFFFFFFF#32)]) = .next r
      ∧ exec (.divu 1#5 1#5 2#5) (withRegs [(1#5, 0x80000000#32), (2#5, 0xFFFFFFFF#32)]) = .next p
      ∧ exec (.remu 1#5 1#5 2#5) (withRegs [(1#5, 0x80000000#32), (2#5, 0xFFFFFFFF#32)]) = .next m :=
  ⟨by decide, _, _, _, _, rfl, rfl, rfl, rfl⟩

/-- DivisionIdentity: a divisor of zero. -/
theorem witness_DivisionIdentity_zero :
    (31#5 : Reg) ≠ 0#5 ∧ (withRegs [(1#5, 0x80000000#32)]).reg 2#5 = 0#32 ∧ ∃ q r p m : State,
      exec (.div 31#5 1#5 2#5) (withRegs [(1#5, 0x80000000#32)]) = .next q
      ∧ exec (.rem 31#5 1#5 2#5) (withRegs [(1#5, 0x80000000#32)]) = .next r
      ∧ exec (.divu 31#5 1#5 2#5) (withRegs [(1#5, 0x80000000#32)]) = .next p
      ∧ exec (.remu 31#5 1#5 2#5) (withRegs [(1#5, 0x80000000#32)]) = .next m :=
  ⟨by decide, by decide, _, _, _, _, rfl, rfl, rfl, rfl⟩

/-- RegisterZeroIsInvariant: an instruction that completes and one that is refused. -/
theorem witness_RegisterZeroIsInvariant :
    (∃ t, exec (.addi 1#5 0#5 5#12) State.reset = .next t)
    ∧ exec (.lw 1#5 1#5 0#12) edgeState = .refused .misalignedData := ⟨⟨_, rfl⟩, rfl⟩

/-- OnlyDestinationRegisterChanges: the register beside rd, and any register of an instruction without rd. -/
theorem witness_OnlyDestinationRegisterChanges :
    (∃ t, exec (.addi 1#5 0#5 5#12) State.reset = .next t) ∧ (Instr.addi 1#5 0#5 5#12).dest ≠ some 2#5
    ∧ (∃ t, exec .ecall State.reset = .next t) ∧ Instr.ecall.dest ≠ some 31#5 :=
  ⟨⟨_, rfl⟩, by decide, ⟨_, rfl⟩, by decide⟩

/-- LoadsFromRam and StoresToRam: the last byte, halfword and word of RAM. -/
theorem witness_LoadsFromRam :
    Cache.coherent edgeState.dcache edgeState.mem
    ∧ RamAccess edgeState (effectiveAddress edgeState 1#5 0#12) 1
    ∧ RamAccess edgeState (effectiveAddress edgeState 2#5 0#12) 2
    ∧ RamAccess edgeState (effectiveAddress edgeState 3#5 0#12) 4 :=
  ⟨by decide, ⟨by decide, by decide, by decide⟩, ⟨by decide, by decide, by decide⟩, ⟨by decide, by decide, by decide⟩⟩

/-- LoadsFromRam: the first word of RAM, with the D-cache holding its block. -/
theorem witness_LoadsFromRam_hit :
    Cache.coherent (State.reset.dcache.read State.reset.mem 0x80000000#32).2 State.reset.mem
    ∧ Cache.holds (State.reset.dcache.read State.reset.mem 0x80000000#32).2 0x80000000#32
    ∧ RamAccess State.reset 0x80000000#32 4 := ⟨by decide, by unfold Cache.holds; decide, ⟨by decide, by decide, by decide⟩⟩

/-- StoresToRam: the first word of RAM and the last byte, halfword and word. -/
theorem witness_StoresToRam :
    RamAccess State.reset 0x80000000#32 4 ∧ RamAccess edgeState (effectiveAddress edgeState 1#5 0#12) 1
    ∧ RamAccess edgeState (effectiveAddress edgeState 2#5 0#12) 2
    ∧ RamAccess edgeState (effectiveAddress edgeState 3#5 0#12) 4 :=
  ⟨⟨by decide, by decide, by decide⟩, ⟨by decide, by decide, by decide⟩, ⟨by decide, by decide, by decide⟩,
    ⟨by decide, by decide, by decide⟩⟩

/-- StoreThenLoadByte: a word store to the last word of RAM, then a load of its last byte. -/
theorem witness_StoreThenLoadByte :
    Cache.unique edgeState.dcache ∧ Cache.coherent edgeState.dcache edgeState.mem
    ∧ RamAccess edgeState (effectiveAddress edgeState 3#5 0#12) Width.word.bytes
    ∧ ∃ t, exec (.sw 3#5 1#5 0#12) edgeState = .next t ∧ RamAccess t (effectiveAddress t 1#5 0#12) 1 :=
  ⟨by decide, by decide, ⟨by decide, by decide, by decide⟩, _, rfl, ⟨by decide, by decide, by decide⟩⟩

/-- LoadsFromDevices and StoresToDevices: the last byte and the upper halfword of PENDING, CLAIM as a word, the UART byte. -/
theorem witness_LoadsFromDevices :
    devAt deviceState.cfg (effectiveAddress deviceState 1#5 0#12) = some .pending
    ∧ devAt deviceState.cfg (effectiveAddress deviceState 2#5 0#12) = some .pending
    ∧ (effectiveAddress deviceState 2#5 0#12).toNat % 2 = 0
    ∧ devAt deviceState.cfg (effectiveAddress deviceState 3#5 0#12) = some .claim
    ∧ (effectiveAddress deviceState 3#5 0#12).toNat % 4 = 0 := by decide

/-- StoresToDevices: the UART byte stored to at every width, and the last byte of PENDING. -/
theorem witness_StoresToDevices :
    devAt deviceState.cfg (effectiveAddress deviceState 4#5 0#12) = some .uartThr
    ∧ (effectiveAddress deviceState 4#5 0#12).toNat % 2 = 0 ∧ (effectiveAddress deviceState 4#5 0#12).toNat % 4 = 0
    ∧ devAt deviceState.cfg (effectiveAddress deviceState 1#5 0#12) = some .pending := by decide

/-- DeviceReadValues: a register that is not CLAIM. -/
theorem witness_DeviceReadValues : DevReg.msip ≠ .claim := by decide

/-- DeviceWritesMerge: the last byte and the whole of a register, and a register beside it. -/
theorem witness_DeviceWritesMerge :
    3 + 1 ≤ 4 ∧ 0 + 4 ≤ 4 ∧ DevReg.mtimecmpHi ≠ .claim ∧ DevReg.mtimecmpHi ≠ .uartThr
    ∧ DevReg.mtimecmpLo ≠ DevReg.mtimecmpHi ∧ DevReg.mtimecmpLo ≠ .claim := by decide

/-- ClaimTakesLowestSource: source 1 and source 31 alone (source 0 pending beside them counts for nothing), and none. -/
theorem witness_ClaimTakesLowestSource :
    ((0xFFFFFFFF#32).getLsbD 1 = true ∧ (3#32).getLsbD 1 = true ∧ ∀ j, 1 ≤ j → j < 1 → ¬ ((0xFFFFFFFF#32).getLsbD j = true ∧ (3#32).getLsbD j = true))
    ∧ ((0x80000001#32).getLsbD 31 = true ∧ ∀ j < 31, 1 ≤ j → ¬ ((0x80000001#32).getLsbD j = true ∧ (0x80000001#32).getLsbD j = true))
    ∧ (∀ j < 32, 1 ≤ j → ¬ ((1#32).getLsbD j = true ∧ (1#32).getLsbD j = true)) :=
  ⟨⟨by decide, by decide, fun j h1 h2 => absurd h2 (by omega)⟩, by decide, by decide⟩

/-- UnmappedAccessesFault: the first word above RAM, the last byte below it, and an unmapped halfword. -/
theorem witness_UnmappedAccessesFault :
    UnmappedAccess edgeState (effectiveAddress edgeState 5#5 0#12) 1
    ∧ UnmappedAccess edgeState (effectiveAddress edgeState 4#5 0#12) 2
    ∧ UnmappedAccess edgeState (effectiveAddress edgeState 4#5 0#12) 4 :=
  ⟨⟨by decide, by decide, by decide⟩, ⟨by decide, by decide, by decide⟩, ⟨by decide, by decide, by decide⟩⟩

/-- AddressMapIsDisjoint: the last byte of a register, and an aligned access of each width. -/
theorem witness_AddressMapIsDisjoint :
    configValid Config.test = true ∧ DevReg.msip.offset Config.test 0x02000003#32 < DevReg.msip.size
    ∧ devAt Config.test 0x10000000#32 = some .uartThr ∧ (0x8000FFFC#32 : Word).toNat % 4 = 0
    ∧ (0x8000FFFE#32 : Word).toNat % 2 = 0 ∧ (0x8000FFFF#32 : Word).toNat % 1 = 0 := by decide

/-- CacheHitDeterminismAndLru (a): two memories that differ in the byte just above the block of the address. -/
theorem witness_CacheHitDeterminism :
    (∀ k : Fin 4, Memory.word [(0x80000010, 1#8)] ((blockBase 0x8000000F#32).toNat + 4 * k.val)
      = Memory.word [] ((blockBase 0x8000000F#32).toNat + 4 * k.val))
    ∧ ([(0x80000010, 1#8)] : Memory) ≠ [] := by decide

/-- CacheHitDeterminismAndLru (b): the three blocks of T12. -/
theorem witness_CacheHitDeterminismAndLru :
    setIndex 0x80000000#32 = setIndex 0x80000080#32 ∧ setIndex 0x80000100#32 = setIndex 0x80000080#32
    ∧ tagOf 0x80000000#32 ≠ tagOf 0x80000080#32 ∧ tagOf 0x80000100#32 ≠ tagOf 0x80000000#32
    ∧ tagOf 0x80000100#32 ≠ tagOf 0x80000080#32 := by decide

/-- CacheCountsEveryAccess and CacheFillsOnReadMissOnly: a cache that holds the address, and one that does not. -/
theorem witness_CacheCountsEveryAccess :
    warmState.icache.holds 0x8000000C#32 ∧ ¬ State.reset.icache.holds 0x8000000C#32 := by
  unfold Cache.holds
  decide

/-- CacheFillsOnReadMissOnly: the same two caches. -/
theorem witness_CacheFillsOnReadMissOnly :
    ¬ State.reset.icache.holds 0x80000004#32 ∧ warmState.icache.holds 0x80000004#32 := by
  unfold Cache.holds
  decide

/-- StoresDoNotReachTheInstructionCache: a store into the block at the next pc, which the I-cache holds. -/
theorem witness_StoresDoNotReachTheInstructionCache :
    ∃ t, exec (.sw 1#5 0#5 4#12) { warmState with regs := (State.reset.setReg 1#5 0x80000000#32).regs } = .next t
      ∧ Fetchable t ∧ warmState.icache.holds t.pc :=
  ⟨_, rfl, ⟨by decide, by decide⟩, by unfold Cache.holds; decide⟩

/-- StepRunsDecodedInstruction: the first instruction after reset, by the I-cache's word and by memory's bytes. -/
theorem witness_StepRunsDecodedInstruction :
    Ready (about 0x00500093) ∧ NoInterrupt (about 0x00500093) ∧ Fetchable (about 0x00500093)
    ∧ decodeWord ((about 0x00500093).icache.read (about 0x00500093).mem (about 0x00500093).pc).1 = .ok (.addi 1#5 0#5 5#12)
    ∧ ¬ (about 0x00500093).icache.holds (about 0x00500093).pc
    ∧ decodeBytes [Memory.read (about 0x00500093).mem 0x80000000, Memory.read (about 0x00500093).mem 0x80000001,
        Memory.read (about 0x00500093).mem 0x80000002, Memory.read (about 0x00500093).mem 0x80000003]
      = .ok (.addi 1#5 0#5 5#12, []) :=
  ⟨ready_about _, noInterrupt_about _, fetchable_about _, by decide, by unfold Cache.holds; decide, by decide⟩

/-- FetchAndDecodeExceptions, misaligned and outside RAM: the last address of all and the first above RAM. -/
theorem witness_FetchAndDecodeExceptions_fetch :
    Ready { State.reset with pc := 0xFFFFFFFF#32 } ∧ NoInterrupt { State.reset with pc := 0xFFFFFFFF#32 }
    ∧ (0xFFFFFFFF#32 : Word).toNat % 4 ≠ 0
    ∧ Ready { State.reset with pc := 0x80010000#32 } ∧ NoInterrupt { State.reset with pc := 0x80010000#32 }
    ∧ (0x80010000#32 : Word).toNat % 4 = 0 ∧ inRam Config.test 0x80010000 4 = false :=
  ⟨⟨rfl, rfl, by decide⟩, rfl, by decide, ⟨rfl, rfl, by decide⟩, rfl, by decide, by decide⟩

/-- FetchAndDecodeExceptions, illegal: the all-ones word after reset. -/
theorem witness_FetchAndDecodeExceptions_illegal :
    Ready (about 0xFFFFFFFF) ∧ NoInterrupt (about 0xFFFFFFFF) ∧ Fetchable (about 0xFFFFFFFF)
    ∧ ∀ i, decodeWord ((about 0xFFFFFFFF).icache.read (about 0xFFFFFFFF).mem (about 0xFFFFFFFF).pc).1 ≠ .ok i := by
  refine ⟨ready_about _, noInterrupt_about _, fetchable_about _, fun i h => ?_⟩
  have e : decodeWord ((about 0xFFFFFFFF).icache.read (about 0xFFFFFFFF).mem (about 0xFFFFFFFF).pc).1 = .error .opcode := by
    decide
  rw [e] at h
  cases h

/-- InterruptsAreTakenByPriority: the software interrupt, whatever the timer draw. -/
theorem witness_InterruptsAreTakenByPriority :
    Ready softwareState ∧ softwareState.csr.mstatus.getLsbD 3 = true
    ∧ (beginCycle softwareState).csr.mip &&& softwareState.csr.mie ≠ 0#32 := by
  refine ⟨⟨rfl, rfl, by decide⟩, by decide, ?_⟩
  obtain ⟨b, hb⟩ := mip_beginCycle softwareState
  rw [hb]
  cases b <;> decide

/-- The external interrupt pending and enabled beside the software interrupt. -/
def externalState : State :=
  { withCsrs [(0x300#12, 8#32), (0x304#12, 0x808#32)] State.reset with
    dev := { DevState.reset with msip := 1#32, plicPending := 0x80000000#32, plicEnable := 0x80000000#32 } }

/-- InterruptsAreTakenByPriority: the external interrupt (source 31) before the software interrupt. -/
theorem witness_InterruptsAreTakenByPriority_external :
    Ready externalState ∧ externalState.csr.mstatus.getLsbD 3 = true
    ∧ ((beginCycle externalState).csr.mip &&& externalState.csr.mie).getLsbD 11 = true
    ∧ (beginCycle externalState).csr.mip &&& externalState.csr.mie ≠ 0#32 := by
  refine ⟨⟨rfl, rfl, by decide⟩, by decide, ?_⟩
  obtain ⟨b, hb⟩ := mip_beginCycle externalState
  rw [hb]
  cases b <;> decide

/-- mip where the timer condition holds. -/
theorem computeMip_timer {d : DevState} (h : d.mtimecmp.toNat ≤ d.mtime.toNat) :
    computeMip d = mipWord (d.plicPending &&& d.plicEnable &&& 0xFFFFFFFE#32 != 0#32) true (d.msip != 0#32) := by
  unfold computeMip
  rw [decide_eq_true h]

/-- The timer interrupt enabled; mtimecmp = 0 makes it pending whatever the draw. -/
def timerState : State := withCsrs [(0x300#12, 8#32), (0x304#12, 0x80#32)] State.reset

/-- InterruptsAreTakenByPriority: the timer interrupt. -/
theorem witness_InterruptsAreTakenByPriority_timer :
    Ready timerState ∧ timerState.csr.mstatus.getLsbD 3 = true
    ∧ ((beginCycle timerState).csr.mip &&& timerState.csr.mie).getLsbD 11 = false
    ∧ ((beginCycle timerState).csr.mip &&& timerState.csr.mie).getLsbD 7 = true
    ∧ (beginCycle timerState).csr.mip &&& timerState.csr.mie ≠ 0#32 := by
  have h : (beginCycle timerState).csr.mip = mipWord false true false := by
    rw [State.beginCycle_csr]
    exact (computeMip_timer (Nat.zero_le _)).trans (by decide)
  rw [h]
  exact ⟨⟨rfl, rfl, by decide⟩, by decide, by decide, by decide, by decide⟩

/-- OnlyNamedStopsStop: a state for each stop, and one that steps. -/
theorem witness_OnlyNamedStopsStop :
    ({ State.reset with run := false } : State).run = false
    ∧ ({ State.reset with refused := some .misalignedData } : State).refused = some .misalignedData
    ∧ (powerOn { Config.test with ramSize := 8 } [] []).refused = some .badConfiguration
    ∧ configValid { Config.test with ramSize := 8 } = false
    ∧ Ready State.reset := ⟨rfl, rfl, by decide, by decide, ⟨rfl, rfl, by decide⟩⟩

/-- The step of the reset state that is about to fetch EBREAK. -/
theorem step_ebreak : ∃ t, step (about 0x00100073) = .next t ∧ t.run = false := ⟨_, rfl, rfl⟩

/-- TrapsArePrecise: a step that completes an instruction, and one that traps. -/
theorem witness_TrapsArePrecise :
    (∃ t, step (about 0x00500093) = .next t) ∧ ∃ t, step State.reset = .next t ∧ t.traps.length = 1 :=
  ⟨⟨_, rfl⟩, _, rfl, rfl⟩

/-- TrapRoundTrip: the handler's state is the trap's own. -/
theorem witness_TrapRoundTrip :
    (takeTrap .environmentCall 0#32 State.reset).csr.mepc = State.reset.pc
    ∧ (takeTrap .environmentCall 0#32 State.reset).csr.mstatus = trapStatus State.reset.csr.mstatus := by decide

/-- UnfetchableHandlerLoops: mtvec = 0 as after reset, and the pc there. -/
theorem witness_UnfetchableHandlerLoops : InTrapLoop { State.reset with pc := 0#32 } :=
  ⟨⟨rfl, rfl, by decide⟩, by decide, by decide, by decide, by decide⟩

/-- OnlyEbreakHalts: the step that runs EBREAK. -/
theorem witness_OnlyEbreakHalts : ∃ s t, step s = .next t ∧ t.run = false := ⟨_, step_ebreak⟩

/-- WhichEventChangesWhichCsr: a write of mtvec, a write of mepc, ECALL's trap entry, and MRET's change of mstatus without a
trap. -/
theorem witness_WhichEventChangesWhichCsr :
    (∃ t, exec (.csrrwi 0#5 5#5 0x305#12) State.reset = .next t ∧ t.csr.mtvec ≠ State.reset.csr.mtvec)
    ∧ (∃ t, exec (.csrrwi 0#5 5#5 0x341#12) State.reset = .next t ∧ t.csr.mepc ≠ State.reset.csr.mepc)
    ∧ (∃ t, exec .ecall State.reset = .next t ∧ t.csr.mcause ≠ State.reset.csr.mcause)
    ∧ (∃ t, exec .mret State.reset = .next t ∧ t.csr.mstatus ≠ State.reset.csr.mstatus ∧ t.traps = State.reset.traps)
    ∧ (Instr.csrrci 0#5 0#5 0x344#12).accessesCsr = true :=
  ⟨⟨_, rfl, by decide⟩, ⟨_, rfl, by decide⟩, ⟨_, rfl, by decide⟩, ⟨_, rfl, by decide, rfl⟩, rfl⟩

/-- ImmediateISignExtends: both signs, at 0x7FF and 0x800. -/
theorem witness_ImmediateISignExtends :
    ((0x7FF00193#32 : Word) >>> 20).getLsbD 11 = false ∧ ((0x80000193#32 : Word) >>> 20).getLsbD 11 = true := by decide

/-- DecodeUndoesEncode: the extreme even offsets. -/
theorem witness_DecodeUndoesEncode :
    (Instr.beq 31#5 31#5 0x1000#13).wellFormed = true ∧ (Instr.jal 31#5 0x0FFFFE#21).wellFormed = true := by decide

/-- EncodeUndoesDecode: a word that decodes. -/
theorem witness_EncodeUndoesDecode : decodeWord 0x00500093#32 = .ok (.addi 1#5 0#5 5#12) := by decide

/-- PowerOnLoadsImageOverDraw: a refused configuration, a refused image (the first address above RAM), and an accepted image
whose later byte wins over an earlier one and over the draw. -/
theorem witness_PowerOnLoadsImageOverDraw :
    configValid { Config.test with ramSize := 0 } = false
    ∧ (∃ c ∈ ([(0x80010000, 1#8)] : List Host.Cell), inRam Config.test c.1 1 = false)
    ∧ configValid Config.test = true
    ∧ (∀ c ∈ ([(0x8000FFFF, 1#8), (0x8000FFFF, 2#8)] : List Host.Cell), inRam Config.test c.1 1 = true)
    ∧ ([(0x8000FFFF, 1#8), (0x8000FFFF, 2#8)] : List Host.Cell).reverse.find? (fun c => decide (c.1 = 0x8000FFFF))
      = some (0x8000FFFF, 2#8)
    ∧ (∀ c ∈ ([(0x8000FFFF, 1#8)] : List Host.Cell), c.1 ≠ 0x80000000) ∧ inRam Config.test 0x80000000 1 = true
    ∧ ([(0x80000000, 7#8)] : List Host.Cell).reverse.find? (fun c => decide (c.1 = 0x80000000)) = some (0x80000000, 7#8) := by
  decide

/-- StepKeepsInvariant: the first step after reset. -/
theorem witness_StepKeepsInvariant : State.reset.Inv ∧ ∃ t, step State.reset = .next t := ⟨by decide, _, rfl⟩

/-- StepOnlyAddsToRecords: the first step after reset. -/
theorem witness_StepOnlyAddsToRecords : ∃ t, step State.reset = .next t := ⟨_, rfl⟩

/-- CountersAreInvisible: two different states with one visible part. -/
theorem witness_CountersAreInvisible :
    State.reset.visible = ({ State.reset with instret := 7 } : State).visible
    ∧ State.reset ≠ { State.reset with instret := 7 } := by decide

end Sys2Proof.Tests
end

section
/-! PROOF. Every step keeps the machine's invariant, and the states a run starts from meet it. -/

namespace Sys2Proof.Machine

/-! ### The parts of a cycle and the invariant -/

/-- Where RAM is a whole number of blocks, the block of an access in RAM lies in RAM (spec/00_scope.md R13). -/
theorem inRam_blockBase {cfg : Config} {a : Word} {n : Nat} (hv : configValid cfg = true)
    (ha : inRam cfg a.toNat n = true) (hn : 0 < n) : inRam cfg (blockBase a).toNat 16 = true := by
  simp only [configValid, Bool.and_eq_true, decide_eq_true_eq] at hv
  obtain ⟨⟨⟨⟨⟨hbase, hsize⟩, -⟩, -⟩, -⟩, -⟩ := hv
  simp only [inRam, Bool.and_eq_true, decide_eq_true_eq, toNat_blockBase] at ha ⊢
  omega

theorem Width.bytes_pos (n : Width) : 0 < n.bytes := by cases n <;> decide

/-- An aligned access does not cross the end of the word it starts in. -/
theorem Width.aligned_in_word {a : Nat} (n : Width) (h : a % n.bytes = 0) : a % 4 + n.bytes ≤ 4 := by
  cases n <;> simp only [Width.bytes] at h ⊢ <;> omega

/-- mip has only its three pending bits, whatever they are (spec/60_exceptions.md R381). -/
theorem mipShape_mipWord : ∀ meip mtip msip : Bool, mipShape (mipWord meip mtip msip) := by decide

theorem mipShape_computeMip (d : DevState) : mipShape (computeMip d) := mipShape_mipWord _ _ _

theorem beginCycle_keeps_inv {s : State} (h : s.Inv) : (beginCycle s).Inv := by
  obtain ⟨hwf, hwin, hiu, hdu, hiw, hdw, hco, -⟩ := h
  exact ⟨hwf, hwin, hiu, hdu, hiw, hdw, hco, mipShape_computeMip _⟩

/-- The invariant reads nothing that a trap entry writes. -/
@[simp] theorem takeTrap_inv (c : Cause) (tval : Word) (s : State) : (takeTrap c tval s).Inv ↔ s.Inv := Iff.rfl

/-- A fetch changes the I-cache alone, and fills it from RAM. -/
theorem fetch_keeps_inv {s u : State} {w : Word} (hv : configValid s.cfg = true) (h : s.Inv)
    (hf : fetch s = .ok (w, u)) : u.Inv := by
  obtain ⟨-, hram, -, rfl⟩ := fetch_ok hf
  obtain ⟨hwf, hwin, hiu, hdu, hiw, hdw, hco, hmip⟩ := h
  exact ⟨hwf, hwin, Cache.unique_read hiu, hdu, Cache.inWindow_read hiw (inRam_blockBase hv hram (by decide)), hdw, hco,
    hmip⟩

/-- An instruction keeps the invariant: a load fills the D-cache from RAM, a store writes the D-cache and memory alike. -/
theorem exec_keeps_inv {i : Instr} {s t : State} (hv : configValid s.cfg = true) (h : s.Inv)
    (he : exec i s = .next t) : t.Inv := by
  obtain ⟨hic, hcfg, hmip, -, -, effect⟩ := exec_effect he
  obtain ⟨hwf, hwin, hiu, hdu, hiw, hdw, hco, hshape⟩ := h
  unfold State.Inv
  rw [hic, hcfg, hmip]
  cases effect with
  | none hd hm =>
    rw [hd, hm]
    exact ⟨hwf, hwin, hiu, hdu, hiw, hdw, hco, hshape⟩
  | load ea n ram hd hm =>
    obtain ⟨-, -, hin⟩ := ram
    rw [hd, hm]
    exact ⟨hwf, hwin, hiu, Cache.unique_read hdu, hiw, Cache.inWindow_read hdw (inRam_blockBase hv hin n.bytes_pos),
      Cache.coherent_read hco, hshape⟩
  | store ea n v ram hd hm =>
    obtain ⟨hal, -, hin⟩ := ram
    rw [hd, hm]
    exact ⟨Memory.wf_writeBytes hwf _ _ _, Memory.inWindow_writeBytes hwin v hin _ le_rfl, hiu, Cache.unique_write hdu,
      hiw, Cache.inWindow_write hdw, Cache.coherent_write hdu hco (n.aligned_in_word hal), hshape⟩

/-- Settles O52, along the ways a cycle can end: an interrupt, an exception of fetch or decode, or the instruction. -/
theorem stepKeepsInvariant : Obligations.StepKeepsInvariant := by
  intro s t h hs
  obtain ⟨⟨-, -, hv⟩, ending⟩ := step_cases hs
  have hb := beginCycle_keeps_inv h
  have hvb : configValid (beginCycle s).cfg = true := hv
  obtain ⟨-, rfl⟩ | ⟨-, c, -, rfl⟩ | ⟨-, w, u, e, hf, -, rfl⟩ | ⟨-, w, u, i, hf, -, he⟩ := ending
  · exact hb
  · exact (takeTrap_inv _ _ _).mpr hb
  · exact (takeTrap_inv _ _ _).mpr (fetch_keeps_inv hvb hb hf)
  · refine exec_keeps_inv ?_ (fetch_keeps_inv hvb hb hf) he
    obtain ⟨-, -, -, rfl⟩ := fetch_ok hf
    exact hv

/-! ### The states a run starts from -/

/-- Every line of a cache after reset is R62's reset line, which is not valid (spec/10_state.md R62, R71). -/
theorem Cache.line_reset (i : Fin 8) (w : Way) : Cache.reset.sets[i].line w = CacheLine.reset := by
  have h : Cache.reset.sets[i] = ⟨CacheLine.reset, CacheLine.reset⟩ := Vector.getElem_replicate _
  rw [h]
  cases w <;> rfl

theorem Cache.unique_reset : Cache.unique Cache.reset := by
  rw [Cache.unique_iff]
  intro i
  rw [Cache.line_reset]
  exact fun ⟨hv, _⟩ => absurd hv (by decide)

/-- A property that every invalid line has holds of every line after reset. -/
theorem Cache.allLines_reset {P : Fin 8 → CacheLine → Prop} (h : ∀ i l, l.valid = false → P i l) :
    Cache.reset.allLines P := by
  intro i w
  rw [Cache.line_reset]
  exact h i _ rfl

theorem Cache.coherent_reset (m : Memory) : Cache.coherent Cache.reset m :=
  (Cache.coherent_iff _ _).mpr (Cache.allLines_reset fun _ _ hl hv => absurd (hl.symm.trans hv) (by decide))

theorem Cache.inWindow_reset (cfg : Config) : Cache.inWindow Cache.reset cfg :=
  (Cache.inWindow_iff _ _).mpr (Cache.allLines_reset fun _ _ hl hv => absurd (hl.symm.trans hv) (by decide))

theorem mipShape_reset : mipShape CsrFile.reset.mip := by decide

/-- The reset state of any configuration meets the invariant with any canonical memory inside RAM. -/
theorem resetWith_inv {cfg : Config} {m : Memory} (hwf : Memory.wf m) (hwin : Memory.inWindow m cfg) :
    (State.resetWith cfg m).Inv :=
  ⟨hwf, hwin, Cache.unique_reset, Cache.unique_reset, Cache.inWindow_reset cfg, Cache.inWindow_reset cfg,
    Cache.coherent_reset m, mipShape_reset⟩

theorem Memory.inWindow_nil (cfg : Config) : Memory.inWindow [] cfg := by simp

/-- Loading bytes of RAM addresses keeps memory inside RAM. -/
theorem Memory.inWindow_loadBytes {cfg : Config} {cells : List Host.Cell} (hc : ∀ c ∈ cells, inRam cfg c.1 1 = true)
    {m : Memory} (h : Memory.inWindow m cfg) : Memory.inWindow (loadBytes cells m) cfg := by
  induction cells generalizing m with
  | nil => exact h
  | cons c cells ih =>
    obtain ⟨hhead, htail⟩ := List.forall_mem_cons.mp hc
    exact ih htail (Memory.inWindow_write h _ hhead)

theorem Memory.inWindow_initialMemory {cfg : Config} {draw image : List Host.Cell}
    (hi : ∀ c ∈ image, inRam cfg c.1 1 = true) : Memory.inWindow (initialMemory cfg draw image) cfg :=
  Memory.inWindow_loadBytes hi
    (Memory.inWindow_loadBytes (fun _ hc => (List.mem_filter.mp hc).2) (Memory.inWindow_nil cfg))

/-- Settles O54: an accepted image puts bytes at RAM addresses alone, and a refused run has no memory listed. -/
theorem powerOnMeetsInvariant : Obligations.PowerOnMeetsInvariant := by
  intro cfg draw image
  unfold powerOn
  split
  case isTrue accepted =>
    obtain ⟨-, hi⟩ := Bool.and_eq_true_iff.mp accepted
    exact resetWith_inv (Memory.wf_initialMemory _ _ _) (Memory.inWindow_initialMemory (List.all_eq_true.mp hi))
  case isFalse => exact resetWith_inv (cfg := cfg) Memory.wf_nil (Memory.inWindow_nil cfg)

/-- Settles O53, as the reset state of the test configuration with nothing listed in memory. -/
theorem resetMeetsInvariant : Obligations.ResetMeetsInvariant :=
  resetWith_inv Memory.wf_nil (Memory.inWindow_nil _)

end Sys2Proof.Machine
end

section
/-! PROOF. What an instruction leaves of the registers, which stops a step has, and which records it only adds to. -/

namespace Sys2Proof.Machine

/-! ### Registers (spec/10_state.md R41, R42) -/

/-- A register write leaves every register that is not its rd. -/
theorem State.reg_setReg_of_ne {s : State} {q r : Reg} {v : Word} (h : some q ≠ some r) :
    (s.setReg q v).reg r = s.reg r := by
  rw [State.reg_setReg, if_neg]
  rintro ⟨rfl, -⟩
  exact h rfl

/-- A load that is done has written no register yet. -/
theorem memRead_keeps_regs {addr : Word} {n : Width} {s u : State} {v : Word} (h : memRead addr n s = .done v u) :
    u.regs = s.regs := by
  obtain ⟨_, -, -, -, rfl⟩ | ⟨-, -, rfl⟩ := memRead_done h <;> rfl

theorem memWrite_keeps_regs {addr : Word} {n : Width} {s u : State} {v : Word} {x : Unit}
    (h : memWrite addr n v s = .done x u) : u.regs = s.regs := by
  obtain ⟨_, -, -, rfl⟩ | ⟨-, rfl⟩ := memWrite_done h <;> rfl

theorem loadOp_keeps_reg {n : Width} {ext : Word → Word} {rd rs1 r : Reg} {imm : BitVec 12} {s t : State}
    (h : loadOp n ext rd rs1 imm s = .next t) (hr : some rd ≠ some r) : t.reg r = s.reg r := by
  obtain ⟨-, rfl⟩ | ⟨v, u, hm, rfl⟩ := loadOp_next h
  · rfl
  · rw [State.reg_complete, State.reg_setReg_of_ne hr]
    exact State.reg_congr (memRead_keeps_regs hm) r

theorem storeOp_keeps_reg {n : Width} {rs1 rs2 r : Reg} {imm : BitVec 12} {s t : State}
    (h : storeOp n rs1 rs2 imm s = .next t) : t.reg r = s.reg r := by
  obtain ⟨-, rfl⟩ | ⟨u, hm, rfl⟩ := storeOp_next h
  · rfl
  · exact State.reg_congr (memWrite_keeps_regs hm) r

/-- Settles O10, by the shape of the instruction: a load, a store, a branch, one without rd, or one that writes rd last. -/
theorem onlyDestinationRegisterChanges : Obligations.OnlyDestinationRegisterChanges := by
  intro i s t r he hr
  cases i with
  | lb | lh | lw | lbu | lhu => exact loadOp_keeps_reg he hr
  | sb | sh | sw => exact storeOp_keeps_reg he
  | beq | bne | blt | bge | bltu | bgeu =>
    simp only [exec, execBeq, execBne, execBlt, execBge, execBltu, execBgeu, branchOp_eq] at he
    cases he
    rfl
  | ecall | ebreak | mret =>
    cases he
    rfl
  | _ =>
    cases he
    exact State.reg_setReg_of_ne hr

/-! ### Stops (spec/10_state.md R66, R67, spec/30_encoding.md R175) -/

theorem step_halted {s : State} (h : s.run = false) : step s = .fault .halted := by
  simp only [step, frontEnd, if_pos h]

theorem step_refused {s : State} {r : RefuseReason} (hrun : s.run = true) (hr : s.refused = some r) :
    step s = .refused r.toRefusal := by
  simp [step, frontEnd, hrun, hr]

theorem step_badConfiguration {s : State} (hrun : s.run = true) (hr : s.refused = none) (hv : configValid s.cfg = false) :
    step s = .refused .badConfiguration := by
  simp [step, frontEnd, hrun, hr, hv, RefuseReason.toRefusal]

/-- Past its first checks, a cycle traps or hands an instruction to the execute stage. -/
theorem checkAndFetch_traps_or_executes (s : State) :
    (∃ t, checkAndFetch s = .trapped t) ∨ ∃ i t, checkAndFetch s = .execute i t := by
  unfold checkAndFetch fetchDecode
  split
  · exact .inl ⟨_, rfl⟩
  · split
    · exact .inl ⟨_, rfl⟩
    · split
      · exact .inl ⟨_, rfl⟩
      · exact .inr ⟨_, _, rfl⟩

/-- The step of a ready state is a next state or the answer of some instruction. -/
theorem step_ready {s : State} (h : Ready s) : (∃ t, step s = .next t) ∨ ∃ i t, step s = exec i t := by
  obtain ⟨hrun, hr, hv⟩ := h
  have front : frontEnd s = checkAndFetch (beginCycle s) := by simp [frontEnd, hrun, hr, hv]
  unfold step
  rw [front]
  obtain ⟨t, ht⟩ | ⟨i, t, ht⟩ := checkAndFetch_traps_or_executes (beginCycle s) <;> rw [ht]
  · exact .inl ⟨t, rfl⟩
  · exact .inr ⟨i, t, rfl⟩

theorem loadOp_next_or_misaligned (n : Width) (ext : Word → Word) (rd rs1 : Reg) (imm : BitVec 12) (s : State) :
    (∃ t, loadOp n ext rd rs1 imm s = .next t) ∨ loadOp n ext rd rs1 imm s = .refused .misalignedData := by
  unfold loadOp
  split
  · exact .inr rfl
  · exact .inl ⟨_, rfl⟩
  · exact .inl ⟨_, rfl⟩

theorem storeOp_next_or_misaligned (n : Width) (rs1 rs2 : Reg) (imm : BitVec 12) (s : State) :
    (∃ t, storeOp n rs1 rs2 imm s = .next t) ∨ storeOp n rs1 rs2 imm s = .refused .misalignedData := by
  unfold storeOp
  split
  · exact .inr rfl
  · exact .inl ⟨_, rfl⟩
  · exact .inl ⟨_, rfl⟩

/-- No instruction stops but a load or a store, and those for a misaligned address alone. -/
theorem exec_next_or_misaligned (i : Instr) (s : State) :
    (∃ t, exec i s = .next t) ∨ exec i s = .refused .misalignedData := by
  cases i with
  | lb | lh | lw | lbu | lhu => exact loadOp_next_or_misaligned ..
  | sb | sh | sw => exact storeOp_next_or_misaligned ..
  | beq | bne | blt | bge | bltu | bgeu =>
    simp only [exec, execBeq, execBne, execBlt, execBge, execBltu, execBgeu, branchOp_eq]
    exact .inl ⟨_, rfl⟩
  | _ => exact .inl ⟨_, rfl⟩

/-- Settles O38, by the first checks of the cycle and then by what the execute stage can answer. -/
theorem onlyNamedStopsStop : Obligations.OnlyNamedStopsStop := by
  intro s
  refine ⟨step_halted, step_refused, step_refused, step_badConfiguration, fun ready => ?_⟩
  obtain ht | ⟨i, t, hi⟩ := step_ready ready
  · exact .inl ht
  · rw [hi]
    exact exec_next_or_misaligned i t

/-- Settles O15, with the state after it halted. -/
theorem ebreakHalts : Obligations.EbreakHalts := fun _ => ⟨_, rfl, rfl, rfl, rfl, rfl, step_halted rfl⟩

/-! ### Records and counters (spec/10_state.md R68, R70, spec/20_memory.md R127) -/

/-- From `c` to `d` hits and misses do not fall, and one of them rises by one or neither does. -/
def Cache.CountsAtMostOne (c d : Cache) : Prop :=
  c.hits ≤ d.hits ∧ c.misses ≤ d.misses ∧ d.hits + d.misses ≤ c.hits + c.misses + 1

theorem Cache.countsAtMostOne_self (c : Cache) : c.CountsAtMostOne c := ⟨le_rfl, le_rfl, Nat.le_succ _⟩

theorem Cache.countsAtMostOne_countHit {c d : Cache} (hh : d.hits = c.hits) (hm : d.misses = c.misses) :
    c.CountsAtMostOne d.countHit := by
  simp only [Cache.CountsAtMostOne, Cache.countHit]
  omega

theorem Cache.countsAtMostOne_countMiss {c d : Cache} (hh : d.hits = c.hits) (hm : d.misses = c.misses) :
    c.CountsAtMostOne d.countMiss := by
  simp only [Cache.CountsAtMostOne, Cache.countMiss]
  omega

theorem Cache.countsAtMostOne_read (c : Cache) (m : Memory) (a : Word) : c.CountsAtMostOne (c.read m a).2 := by
  cases hw : (c.setOf a).hitWay (tagOf a) with
  | some w =>
    rw [Cache.read_hit hw]
    exact Cache.countsAtMostOne_countHit rfl rfl
  | none =>
    rw [Cache.read_miss hw]
    exact Cache.countsAtMostOne_countMiss rfl rfl

theorem Cache.countsAtMostOne_write (c : Cache) (a : Word) (n : Nat) (v : Word) : c.CountsAtMostOne (c.write a n v) := by
  cases hw : (c.setOf a).hitWay (tagOf a) with
  | some w =>
    rw [Cache.write_hit hw]
    exact Cache.countsAtMostOne_countHit rfl rfl
  | none =>
    rw [Cache.write_miss hw]
    exact Cache.countsAtMostOne_countMiss rfl rfl

/-- An instruction accesses the D-cache once at most. -/
theorem DataEffect.dcache_countsAtMostOne {s t : State} (h : DataEffect s t) : s.dcache.CountsAtMostOne t.dcache := by
  cases h with
  | none hd _ => rw [hd]; exact Cache.countsAtMostOne_self _
  | load ea n _ hd _ => rw [hd]; exact Cache.countsAtMostOne_read ..
  | store ea n v _ hd _ => rw [hd]; exact Cache.countsAtMostOne_write ..

/-- No load takes anything from the terminal output (spec/60_exceptions.md R421, R428). -/
theorem DevState.uartOut_afterRead (d : DevState) (r : DevReg) : (d.afterRead r).uartOut = d.uartOut := by
  unfold DevState.afterRead
  cases r with
  | claim => dsimp only; split <;> rfl
  | _ => rfl

/-- A device store leaves the terminal output or appends to it (spec/60_exceptions.md R433). -/
theorem DevState.uartOut_prefix_write (d : DevState) (cfg : Config) (r : DevReg) (k n : Nat) (v : Word) :
    d.uartOut <+: (d.write cfg r k n v).uartOut := by
  cases r with
  | uartThr => exact List.prefix_append _ _
  | _ => exact List.prefix_rfl

theorem loadOp_uartOut {n : Width} {ext : Word → Word} {rd rs1 : Reg} {imm : BitVec 12} {s t : State}
    (h : loadOp n ext rd rs1 imm s = .next t) : t.dev.uartOut = s.dev.uartOut := by
  obtain ⟨-, rfl⟩ | ⟨v, u, hm, rfl⟩ := loadOp_next h
  · rfl
  · obtain ⟨r, -, -, -, rfl⟩ | ⟨-, -, rfl⟩ := memRead_done hm
    · exact DevState.uartOut_afterRead _ r
    · rfl

theorem storeOp_uartOut_prefix {n : Width} {rs1 rs2 : Reg} {imm : BitVec 12} {s t : State}
    (h : storeOp n rs1 rs2 imm s = .next t) : s.dev.uartOut <+: t.dev.uartOut := by
  obtain ⟨-, rfl⟩ | ⟨u, hm, rfl⟩ := storeOp_next h
  · exact List.prefix_rfl
  · obtain ⟨r, -, -, rfl⟩ | ⟨-, rfl⟩ := memWrite_done hm
    · exact DevState.uartOut_prefix_write ..
    · exact List.prefix_rfl

theorem exec_uartOut_prefix {i : Instr} {s t : State} (h : exec i s = .next t) : s.dev.uartOut <+: t.dev.uartOut := by
  cases i with
  | lb | lh | lw | lbu | lhu => exact (loadOp_uartOut h).symm ▸ List.prefix_rfl
  | sb | sh | sw => exact storeOp_uartOut_prefix h
  | beq | bne | blt | bge | bltu | bgeu =>
    simp only [exec, execBeq, execBne, execBlt, execBge, execBltu, execBgeu, branchOp_eq] at h
    cases h
    exact List.prefix_rfl
  | _ =>
    cases h
    exact List.prefix_rfl

theorem exec_traps_prefix {i : Instr} {s t : State} (h : exec i s = .next t) : s.traps <+: t.traps := by
  obtain ⟨c, tval, rfl, -⟩ | ⟨htraps, -, -⟩ := exec_traps_or_completes h
  · exact List.prefix_append _ _
  · rw [htraps]

/-- An instruction counts itself once, or not at all where it traps. -/
theorem exec_instret {i : Instr} {s t : State} (h : exec i s = .next t) :
    s.instret ≤ t.instret ∧ t.instret ≤ s.instret + 1 := by
  obtain ⟨c, tval, rfl, -⟩ | ⟨-, hcount, -⟩ := exec_traps_or_completes h
  · exact ⟨le_rfl, Nat.le_succ _⟩
  · omega

/-- What a whole step leaves alone, grows or counts, from the state `s` that it started in. -/
structure AddsToRecords (s t : State) : Prop where
  cfg : t.cfg = s.cfg
  draws : t.draws = s.draws + 1
  refused : t.refused = s.refused
  traps : s.traps <+: t.traps
  uartOut : s.dev.uartOut <+: t.dev.uartOut
  instret : s.instret ≤ t.instret ∧ t.instret ≤ s.instret + 1
  icache : s.icache.CountsAtMostOne t.icache
  dcache : s.dcache.CountsAtMostOne t.dcache

theorem beginCycle_addsToRecords (s : State) : AddsToRecords s (beginCycle s) where
  cfg := rfl
  draws := rfl
  refused := rfl
  traps := List.prefix_rfl
  uartOut := List.prefix_rfl
  instret := ⟨le_rfl, Nat.le_succ _⟩
  icache := Cache.countsAtMostOne_self _
  dcache := Cache.countsAtMostOne_self _

/-- A trap that ends the cycle appends one record. -/
theorem AddsToRecords.after_takeTrap {s t : State} (h : AddsToRecords s t) (c : Cause) (tval : Word) :
    AddsToRecords s (takeTrap c tval t) :=
  { h with traps := h.traps.trans (List.prefix_append _ _) }

/-- The fetch of a cycle counts in the I-cache. -/
theorem fetch_addsToRecords {s u : State} {w : Word} (h : fetch (beginCycle s) = .ok (w, u)) : AddsToRecords s u := by
  obtain ⟨-, -, -, rfl⟩ := fetch_ok h
  exact { beginCycle_addsToRecords s with icache := Cache.countsAtMostOne_read .. }

/-- The execute stage adds to what the fetch left, where instret and the D-cache have not counted yet. -/
theorem exec_addsToRecords {s u t : State} {w : Word} {i : Instr} (hf : fetch (beginCycle s) = .ok (w, u))
    (he : exec i u = .next t) : AddsToRecords s t := by
  have hu := fetch_addsToRecords hf
  obtain ⟨hic, hcfg, -, href, hdraws, effect⟩ := exec_effect he
  have fetched : u.instret = s.instret ∧ u.dcache = s.dcache := by
    obtain ⟨-, -, -, rfl⟩ := fetch_ok hf
    exact ⟨rfl, rfl⟩
  obtain ⟨hcount, hdc⟩ := fetched
  exact {
    cfg := hcfg.trans hu.cfg
    draws := hdraws.trans hu.draws
    refused := href.trans hu.refused
    traps := hu.traps.trans (exec_traps_prefix he)
    uartOut := hu.uartOut.trans (exec_uartOut_prefix he)
    instret := hcount ▸ exec_instret he
    icache := hic.symm ▸ hu.icache
    dcache := hdc ▸ effect.dcache_countsAtMostOne }

theorem step_addsToRecords {s t : State} (h : step s = .next t) : AddsToRecords s t := by
  have hb := beginCycle_addsToRecords s
  obtain ⟨-, ⟨-, rfl⟩ | ⟨-, c, -, rfl⟩ | ⟨-, w, u, e, hf, -, rfl⟩ | ⟨-, w, u, i, hf, -, he⟩⟩ := step_cases h
  · exact hb.after_takeTrap _ _
  · exact hb.after_takeTrap _ _
  · exact (fetch_addsToRecords hf).after_takeTrap _ _
  · exact exec_addsToRecords hf he

/-- Settles O55, field by field of what a step adds. -/
theorem stepOnlyAddsToRecords : Obligations.StepOnlyAddsToRecords := by
  intro s t h
  obtain ⟨⟨hrun, href, -⟩, -⟩ := step_cases h
  obtain ⟨hcfg, hdraws, hkept, htraps, hout, ⟨hi, hi'⟩, ⟨ihit, imiss, isum⟩, dhit, dmiss, dsum⟩ := step_addsToRecords h
  exact ⟨hcfg, hdraws, hkept.trans href, hrun, htraps, hout, hi, hi', ihit, imiss, isum, dhit, dmiss, dsum⟩

/-! ### The reset state (spec/70_reset_and_hazards.md R450) -/

theorem reset_reg (r : Reg) : State.reset.reg r = 0#32 := by
  simp [State.reg, State.reset]

theorem CsrFile.read_reset (n : CsrNum) : CsrFile.reset.read n = 0#32 := by
  unfold CsrFile.read
  split <;> rfl

/-- After reset a cache holds no address. -/
theorem Cache.not_holds_reset (a : Word) : ¬ Cache.reset.holds a := by
  have invalid (w : Way) : ((Cache.reset.setOf a).line w).valid = false := by
    rw [Cache.setOf_eq, Cache.line_reset]
    rfl
  intro h
  obtain ⟨w, hw⟩ := Option.isSome_iff_exists.mp h
  obtain ⟨hvalid, -⟩ := CacheSet.hitWay_some hw
  exact absurd ((invalid w).symm.trans hvalid) (by decide)

/-- Every field of a line after reset, as spec/10_state.md R62 lists them. -/
theorem Cache.fields_line_reset (i : Fin 8) (w : Way) :
    (Cache.reset.sets[i].line w).valid = false ∧ (Cache.reset.sets[i].line w).tag = 0#25
      ∧ (∀ k : Fin 4, (Cache.reset.sets[i].line w).block[k] = 0#32) ∧ (Cache.reset.sets[i].line w).recency = 0 := by
  rw [Cache.line_reset]
  exact ⟨rfl, rfl, fun k => Vector.getElem_replicate k.isLt, rfl⟩

theorem DevState.value_reset (r : DevReg) : DevState.reset.value r = 0#32 := by
  cases r <;> decide

/-- Settles O50, each element by its own lemma or by computation. -/
theorem resetState : Obligations.ResetState :=
  ⟨reset_reg, rfl, CsrFile.read_reset, fun a => ⟨Cache.not_holds_reset a, Cache.not_holds_reset a⟩,
    Cache.fields_line_reset, rfl, rfl, rfl, rfl, DevState.value_reset, rfl, rfl, rfl, rfl, rfl, rfl, by decide⟩

end Sys2Proof.Machine
end

section
/-! PROOF. What a cache access counts, uses and keeps; hit determinism, LRU, and what a load and a fetch see after a store. -/

namespace Sys2Proof.Machine

/-! ### Which addresses a cache holds (spec/20_memory.md R121) -/

theorem Cache.holds_iff_hitWay (c : Cache) (a : Word) : c.holds a ↔ ∃ w, (c.setOf a).hitWay (tagOf a) = some w :=
  Option.isSome_iff_exists

theorem Cache.not_holds_iff_hitWay (c : Cache) (a : Word) : ¬ c.holds a ↔ (c.setOf a).hitWay (tagOf a) = none :=
  Option.not_isSome_iff_eq_none

theorem Cache.holds_iff_line (c : Cache) (a : Word) :
    c.holds a ↔ ∃ w, ((c.setOf a).line w).valid = true ∧ ((c.setOf a).line w).tag = tagOf a := by
  constructor
  · intro h
    obtain ⟨w, hw⟩ := (c.holds_iff_hitWay a).mp h
    exact ⟨w, CacheSet.hitWay_some hw⟩
  · rintro ⟨w, hv, ht⟩
    exact CacheSet.hitWay_isSome w hv ht

theorem Cache.setOf_congr (c : Cache) {a b : Word} (h : setIndex a = setIndex b) : c.setOf a = c.setOf b := by
  simp only [Cache.setOf, h]

/-! ### Counters (spec/20_memory.md R124, R125, R127) -/

theorem Cache.counts_read_of_holds {c : Cache} {a : Word} (h : c.holds a) (m : Memory) :
    (c.read m a).2.hits = c.hits + 1 ∧ (c.read m a).2.misses = c.misses := by
  obtain ⟨w, hw⟩ := (c.holds_iff_hitWay a).mp h
  rw [Cache.read_hit hw]
  exact ⟨rfl, rfl⟩

theorem Cache.counts_read_of_not_holds {c : Cache} {a : Word} (h : ¬ c.holds a) (m : Memory) :
    (c.read m a).2.hits = c.hits ∧ (c.read m a).2.misses = c.misses + 1 := by
  rw [Cache.read_miss ((c.not_holds_iff_hitWay a).mp h)]
  exact ⟨rfl, rfl⟩

theorem Cache.counts_write_of_holds {c : Cache} {a : Word} (h : c.holds a) (n : Nat) (v : Word) :
    (c.write a n v).hits = c.hits + 1 ∧ (c.write a n v).misses = c.misses := by
  obtain ⟨w, hw⟩ := (c.holds_iff_hitWay a).mp h
  rw [Cache.write_hit hw]
  exact ⟨rfl, rfl⟩

/-- A write miss counts itself and does nothing else (own choice D27). -/
theorem Cache.write_of_not_holds {c : Cache} {a : Word} (h : ¬ c.holds a) (n : Nat) (v : Word) :
    c.write a n v = c.countMiss :=
  Cache.write_miss ((c.not_holds_iff_hitWay a).mp h)

/-- Settles O31, by whether the cache holds the address. -/
theorem cacheCountsEveryAccess : Obligations.CacheCountsEveryAccess := by
  intro c m a v n
  constructor
  · intro h
    obtain ⟨rhits, rmisses⟩ := Cache.counts_read_of_holds h m
    obtain ⟨whits, wmisses⟩ := Cache.counts_write_of_holds h n v
    exact ⟨rhits, rmisses, whits, wmisses⟩
  · intro h
    obtain ⟨rhits, rmisses⟩ := Cache.counts_read_of_not_holds h m
    rw [Cache.write_of_not_holds h]
    exact ⟨rhits, rmisses, rfl, rfl⟩

/-! ### The way and the line that a read uses (spec/20_memory.md R121 to R124) -/

/-- The way that a read of tag `t` hits, or the victim that its miss fills. -/
def CacheSet.accessWay (set : CacheSet) (t : BitVec 25) : Way := (set.hitWay t).getD set.victim

/-- The line that a read of `a` returns its word from: the one that hits, or the one that its miss fills. -/
def Cache.accessLine (c : Cache) (m : Memory) (a : Word) : CacheLine :=
  (((c.setOf a).hitWay (tagOf a)).map (c.setOf a).line).getD (filledLine m a)

/-- The set that a read of `a` leaves, touched at the way that it used. -/
theorem Cache.setOf_read (c : Cache) (m : Memory) (a : Word) :
    (c.read m a).2.setOf a = ((c.setOf a).setLine ((c.setOf a).accessWay (tagOf a)) (c.accessLine m a)).touch
      ((c.setOf a).accessWay (tagOf a)) := by
  unfold CacheSet.accessWay Cache.accessLine
  cases hw : (c.setOf a).hitWay (tagOf a) with
  | some w =>
    have same : (c.setOf a).setLine w ((c.setOf a).line w) = c.setOf a := by cases w <;> rfl
    rw [Cache.read_hit hw, Cache.setOf_countHit, Cache.setOf_putSet, if_pos rfl, Option.map_some, Option.getD_some,
      Option.getD_some, same]
  | none =>
    rw [Cache.read_miss hw, Cache.setOf_countMiss, Cache.setOf_putSet, if_pos rfl]
    rfl

theorem Cache.accessLine_matches (c : Cache) (m : Memory) (a : Word) :
    (c.accessLine m a).valid = true ∧ (c.accessLine m a).tag = tagOf a := by
  unfold Cache.accessLine
  cases hw : (c.setOf a).hitWay (tagOf a) with
  | some w => exact CacheSet.hitWay_some hw
  | none => exact ⟨rfl, rfl⟩

theorem Cache.accessLine_of_not_holds {c : Cache} {a : Word} (h : ¬ c.holds a) (m : Memory) :
    c.accessLine m a = filledLine m a := by
  unfold Cache.accessLine
  rw [(c.not_holds_iff_hitWay a).mp h]
  rfl

theorem Cache.fst_read (c : Cache) (m : Memory) (a : Word) : (c.read m a).1 = (c.accessLine m a).word a := by
  unfold Cache.accessLine
  cases hw : (c.setOf a).hitWay (tagOf a) with
  | some w => rw [Cache.read_hit hw]; rfl
  | none => rw [Cache.read_miss hw]; rfl

/-- A line put into a way where no way had its tag is the one that hits. -/
theorem CacheSet.hitWay_setLine_of_none {set : CacheSet} {t : BitVec 25} (h : set.hitWay t = none) (w : Way)
    {l : CacheLine} (hv : l.valid = true) (ht : l.tag = t) : (set.setLine w l).hitWay t = some w := by
  have hl : l.matches t = true := by simp [CacheLine.matches, hv, ht]
  cases w with
  | way0 => exact if_pos hl
  | way1 =>
    have h0 : ¬ set.line0.matches t = true := fun e => by simp [CacheSet.hitWay, e] at h
    exact (if_neg h0).trans (if_pos hl)

/-- After a read of `a` the way that it used is the one that `a` hits. -/
theorem Cache.hitWay_read (c : Cache) (m : Memory) (a : Word) :
    ((c.read m a).2.setOf a).hitWay (tagOf a) = some ((c.setOf a).accessWay (tagOf a)) := by
  cases hw : (c.setOf a).hitWay (tagOf a) with
  | some w =>
    rw [Cache.read_hit hw, Cache.setOf_countHit, Cache.setOf_putSet, if_pos rfl, CacheSet.hitWay_touch, hw,
      CacheSet.accessWay, hw]
    rfl
  | none =>
    obtain ⟨hv, ht⟩ := c.accessLine_matches m a
    rw [Cache.setOf_read, CacheSet.hitWay_touch, CacheSet.hitWay_setLine_of_none hw _ hv ht]

theorem Cache.holds_read (c : Cache) (m : Memory) (a : Word) : (c.read m a).2.holds a :=
  ((c.read m a).2.holds_iff_hitWay a).mpr ⟨_, c.hitWay_read m a⟩

/-- A read that hits does not look at memory (own choice D28). -/
theorem Cache.read_eq_of_holds {c : Cache} {a : Word} (h : c.holds a) (m m' : Memory) : c.read m' a = c.read m a := by
  obtain ⟨w, hw⟩ := (c.holds_iff_hitWay a).mp h
  rw [Cache.read_hit hw, Cache.read_hit hw]

/-- After a read of `a`, a read of any address of its block returns the word of the line that the first read used, whatever
memory has become. -/
theorem Cache.fst_read_read (c : Cache) (m m' : Memory) {a b : Word} (hs : setIndex b = setIndex a)
    (ht : tagOf b = tagOf a) : ((c.read m a).2.read m' b).1 = (c.accessLine m a).word b := by
  have hit : ((c.read m a).2.setOf b).hitWay (tagOf b) = some ((c.setOf a).accessWay (tagOf a)) := by
    rw [Cache.setOf_congr _ hs, ht, Cache.hitWay_read]
  rw [Cache.read_hit hit, Cache.setOf_congr _ hs, Cache.setOf_read]
  obtain ⟨-, -, hblock⟩ := CacheSet.line_touch
    ((c.setOf a).setLine ((c.setOf a).accessWay (tagOf a)) (c.accessLine m a)) ((c.setOf a).accessWay (tagOf a))
    ((c.setOf a).accessWay (tagOf a))
  rw [CacheSet.line_setLine] at hblock
  simp only [CacheLine.word, hblock]

/-- Reading an address again is a hit that returns the same word, whatever memory has become. -/
theorem Cache.read_again (c : Cache) (m m' : Memory) (a : Word) :
    ((c.read m a).2.read m' a).1 = (c.read m a).1 ∧ ((c.read m a).2.read m' a).2.hits = (c.read m a).2.hits + 1
      ∧ ((c.read m a).2.read m' a).2.misses = (c.read m a).2.misses :=
  ⟨(c.fst_read_read m m' rfl rfl).trans (c.fst_read m a).symm, Cache.counts_read_of_holds (c.holds_read m a) m'⟩

/-! ### The words of a block (spec/20_memory.md R120, R124) -/

theorem toNat_blockBase_add (a : Word) (k : Fin 4) :
    (blockBase a + BitVec.ofNat 32 (4 * k.val)).toNat = a.toNat / 16 * 16 + 4 * k.val := by
  rw [BitVec.toNat_add, BitVec.toNat_ofNat, toNat_blockBase]
  have := a.isLt
  have := k.isLt
  omega

theorem setIndex_blockBase_add (a : Word) (k : Fin 4) :
    setIndex (blockBase a + BitVec.ofNat 32 (4 * k.val)) = setIndex a := by
  apply BitVec.eq_of_toNat_eq
  rw [toNat_setIndex, toNat_setIndex, toNat_blockBase_add]
  have := k.isLt
  omega

theorem tagOf_blockBase_add (a : Word) (k : Fin 4) : tagOf (blockBase a + BitVec.ofNat 32 (4 * k.val)) = tagOf a := by
  apply BitVec.eq_of_toNat_eq
  rw [toNat_tagOf, toNat_tagOf, toNat_blockBase_add]
  have := k.isLt
  omega

/-- A line filled by a miss of `a` holds memory's word at each place of the block. -/
theorem filledLine_word (m : Memory) (a : Word) (k : Fin 4) :
    (filledLine m a).word (blockBase a + BitVec.ofNat 32 (4 * k.val)) = Memory.word m ((blockBase a).toNat + 4 * k.val) := by
  have hk : (wordIndex (blockBase a + BitVec.ofNat 32 (4 * k.val))).toNat = k.val := by
    rw [toNat_wordIndex, toNat_blockBase_add]
    have := k.isLt
    omega
  have hword := filledLine_agrees m a rfl k
  rw [show (filledLine m a).tag = tagOf a from rfl, lineBase_tagOf] at hword
  simp only [CacheLine.word, hk]
  exact hword

/-! ### A write keeps which addresses are held (spec/20_memory.md R125) -/

/-- Which way hits depends on the valid bits and the tags alone. -/
theorem CacheSet.hitWay_setLine_storeBytes (set : CacheSet) (w : Way) (a v : Word) (n : Nat) (t : BitVec 25) :
    (set.setLine w ((set.line w).storeBytes a n v)).hitWay t = set.hitWay t := by
  cases w <;> rfl

theorem Cache.holds_write (c : Cache) (a v : Word) (n : Nat) (b : Word) : (c.write a n v).holds b ↔ c.holds b := by
  by_cases h : c.holds a
  · obtain ⟨w, hw⟩ := (c.holds_iff_hitWay a).mp h
    unfold Cache.holds
    rw [Cache.write_hit hw, Cache.setOf_countHit, Cache.setOf_putSet]
    split
    · rename_i hs
      rw [CacheSet.hitWay_touch, CacheSet.hitWay_setLine_storeBytes, Cache.setOf_congr c hs]
    · rfl
  · rw [Cache.write_of_not_holds h]
    exact Iff.rfl

/-- Settles O32, by the line that a read uses and by what a write does to the set. -/
theorem cacheFillsOnReadMissOnly : Obligations.CacheFillsOnReadMissOnly := by
  intro c m m' a v n
  refine ⟨c.holds_read m a, fun miss k => ?fill, fun hit => Cache.read_eq_of_holds hit m m', c.read_again m m' a,
    fun miss => ?allocate, c.holds_write a v n⟩
  case fill =>
    rw [Cache.fst_read_read _ _ _ (setIndex_blockBase_add a k) (tagOf_blockBase_add a k),
      Cache.accessLine_of_not_holds miss, filledLine_word]
  case allocate =>
    rw [Cache.write_of_not_holds miss]
    rfl

/-! ### Least recently used (spec/20_memory.md R122, R123, R128) -/

/-- The way of a set that is not `w`. -/
def Way.other : Way → Way
  | .way0 => .way1
  | .way1 => .way0

@[simp] theorem Way.other_other (w : Way) : w.other.other = w := by cases w <;> rfl

theorem Way.eq_or_eq_other (v w : Way) : v = w ∨ v = w.other := by cases v <;> cases w <;> decide

@[simp] theorem CacheSet.line_other_setLine (set : CacheSet) (w : Way) (l : CacheLine) :
    (set.setLine w l).line w.other = set.line w.other := by cases w <;> rfl

theorem CacheSet.recency_touch (set : CacheSet) (w : Way) :
    ((set.touch w).line w).recency = 0 ∧ ((set.touch w).line w.other).recency = (set.line w.other).recency + 1 := by
  cases w <;> exact ⟨rfl, rfl⟩

/-- Way `w` holds tag `t` and was touched last. -/
structure CacheSet.Youngest (set : CacheSet) (w : Way) (t : BitVec 25) : Prop where
  valid : (set.line w).valid = true
  tag : (set.line w).tag = t
  recency : (set.line w).recency = 0
  older : 0 < (set.line w.other).recency

theorem Cache.youngest_read (c : Cache) (m : Memory) (a : Word) :
    ((c.read m a).2.setOf a).Youngest ((c.setOf a).accessWay (tagOf a)) (tagOf a) := by
  obtain ⟨hv, ht⟩ := CacheSet.hitWay_some (c.hitWay_read m a)
  have touched := CacheSet.recency_touch
    ((c.setOf a).setLine ((c.setOf a).accessWay (tagOf a)) (c.accessLine m a)) ((c.setOf a).accessWay (tagOf a))
  rw [← Cache.setOf_read] at touched
  exact ⟨hv, ht, touched.1, by omega⟩

/-- The victim is never the way touched last. -/
theorem CacheSet.Youngest.victim_eq {set : CacheSet} {w : Way} {t : BitVec 25} (h : set.Youngest w t) :
    set.victim = w.other := by
  obtain ⟨hv, -, hr, ho⟩ := h
  unfold CacheSet.victim
  cases w <;> simp only [CacheSet.line, Way.other] at hv hr ho ⊢ <;> simp [hv, hr, ho]

/-- A read of another tag uses the way that was not touched last. -/
theorem CacheSet.Youngest.accessWay_eq {set : CacheSet} {w : Way} {t u : BitVec 25} (h : set.Youngest w t) (hu : u ≠ t) :
    set.accessWay u = w.other := by
  unfold CacheSet.accessWay
  cases hit : set.hitWay u with
  | none => exact h.victim_eq
  | some v =>
    obtain ⟨-, hv⟩ := CacheSet.hitWay_some hit
    obtain rfl | rfl := v.eq_or_eq_other w
    · exact absurd (hv.symm.trans h.tag) hu
    · rfl

/-- The tags `t` and `u` fill a set: `t` in way `w`, and `u` in the other, touched last. -/
structure CacheSet.FilledBy (set : CacheSet) (w : Way) (t u : BitVec 25) : Prop where
  valid : (set.line w).valid = true
  tag : (set.line w).tag = t
  youngest : set.Youngest w.other u

/-- A read of another tag keeps the way that was touched last and takes the other. -/
theorem Cache.filledBy_read {c : Cache} {a : Word} {w : Way} {t : BitVec 25} (h : (c.setOf a).Youngest w t)
    (ht : tagOf a ≠ t) (m : Memory) : ((c.read m a).2.setOf a).FilledBy w t (tagOf a) := by
  have young := c.youngest_read m a
  have hset := c.setOf_read m a
  rw [h.accessWay_eq ht] at young hset
  have kept : ((c.setOf a).setLine w.other (c.accessLine m a)).line w = (c.setOf a).line w := by
    simpa using (c.setOf a).line_other_setLine w.other (c.accessLine m a)
  obtain ⟨hvalid, htag, -⟩ := CacheSet.line_touch ((c.setOf a).setLine w.other (c.accessLine m a)) w.other w
  rw [← hset, kept] at hvalid htag
  exact ⟨hvalid.trans h.valid, htag.trans h.tag, young⟩

/-- A cache holds an address of a filled set exactly where its tag is one of the two. -/
theorem Cache.holds_iff_of_filledBy {c : Cache} {a : Word} {w : Way} {t u : BitVec 25}
    (h : (c.setOf a).FilledBy w t u) : c.holds a ↔ tagOf a = t ∨ tagOf a = u := by
  rw [Cache.holds_iff_line]
  constructor
  · rintro ⟨v, -, hv⟩
    obtain rfl | rfl := v.eq_or_eq_other w
    · exact .inl (hv.symm.trans h.tag)
    · exact .inr (hv.symm.trans h.youngest.tag)
  · rintro (ht | hu)
    · exact ⟨w, h.valid, h.tag.trans ht.symm⟩
    · exact ⟨w.other, h.youngest.valid, h.youngest.tag.trans hu.symm⟩

/-- Settles O30: (a) as a special case of any second read; (b) by the two tags that fill the set after each read. -/
theorem cacheHitDeterminismAndLru : Obligations.CacheHitDeterminismAndLru := by
  refine ⟨fun c m m' a _ => c.read_again m m' a, fun c m1 m2 m3 a b x hab hxb tab txa txb => ?_⟩
  have first := c.youngest_read m1 a
  rw [Cache.setOf_congr _ hab] at first
  have pair := Cache.filledBy_read first tab.symm m2
  have evicted := pair.youngest
  rw [← Cache.setOf_congr _ hxb] at evicted
  have after := Cache.filledBy_read evicted txb m3
  have before (y : Word) (hy : setIndex y = setIndex b) :
      ((c.read m1 a).2.read m2 b).2.holds y ↔ tagOf y = tagOf a ∨ tagOf y = tagOf b :=
    Cache.holds_iff_of_filledBy (by rwa [Cache.setOf_congr _ hy])
  have later (y : Word) (hy : setIndex y = setIndex b) :
      (((c.read m1 a).2.read m2 b).2.read m3 x).2.holds y ↔ tagOf y = tagOf b ∨ tagOf y = tagOf x :=
    Cache.holds_iff_of_filledBy (by rwa [Cache.setOf_congr _ (hy.trans hxb.symm)])
  have miss : ¬ ((c.read m1 a).2.read m2 b).2.holds x := by simp [before x hxb, txa, txb]
  exact ⟨(before a hab).mpr (.inl rfl), (before b rfl).mpr (.inr rfl), miss, (Cache.counts_read_of_not_holds miss m3).2,
    by simp [later a hab, tab, txa.symm], (later b rfl).mpr (.inl rfl), (later x hxb).mpr (.inr rfl)⟩

/-! ### The fetch after an instruction (spec/20_memory.md R102, R126, R131) -/

theorem fetch_of_fetchable {s : State} (h : Fetchable s) :
    fetch s = .ok ((s.icache.read s.mem s.pc).1, { s with icache := (s.icache.read s.mem s.pc).2 }) := by
  obtain ⟨hal, hram⟩ := h
  have lane : s.pc.extractLsb' 0 2 = 0#2 := BitVec.eq_of_toNat_eq ((byteLane_eq s.pc).trans hal)
  simp [fetch, lane, hram]

/-- Settles O33: the I-cache is not among an instruction's effects, and a fetch that hits does not look at memory. -/
theorem storesDoNotReachTheInstructionCache : Obligations.StoresDoNotReachTheInstructionCache := by
  intro i s t he
  obtain ⟨hic, -⟩ := exec_effect he
  refine ⟨hic, fun hfetch hheld => ⟨_, _, fetch_of_fetchable hfetch, ?_, fun m => ?_⟩⟩
  · rw [hic, Cache.read_eq_of_holds hheld s.mem]
  · have hm : Fetchable { t with mem := m } := hfetch
    rw [fetch_of_fetchable hm, Cache.read_eq_of_holds (hic ▸ hheld) t.mem m]

/-! ### A byte load after a store (spec/20_memory.md R95, R97, R130) -/

theorem byteOfWord_eq_ofNat (w : Word) (k : Nat) : byteOfWord w k = BitVec.ofNat 8 (w.toNat / 2 ^ (8 * k)) := by
  rw [byteOfWord, BitVec.extractLsb', Nat.shiftRight_eq_div_pow]

/-- Memory after a store reads as `storedByte` says. -/
theorem Memory.read_writeBytes_eq_storedByte (m : Memory) (ea v : Word) (n a : Nat) :
    Memory.read (Memory.writeBytes m ea.toNat v n) a = storedByte m ea n v a := by
  rw [Memory.read_writeBytes, storedByte, byteOfWord_eq_ofNat]

/-- One byte taken from a word is that byte, zero-extended. -/
theorem takeBytes_one (w : Word) (k : Nat) : takeBytes w k 1 = (byteOfWord w k).setWidth 32 := by
  apply BitVec.eq_of_getLsbD_eq
  intro i hi
  rw [takeBytes, BitVec.getLsbD_and, getLsbD_byteMask, BitVec.getLsbD_ushiftRight, BitVec.getLsbD_setWidth,
    getLsbD_byteOfWord]
  simp [hi, Bool.and_comm]

/-- Byte `k` of memory's word at `q` is memory's byte at `q + k`. -/
theorem Memory.byteOfWord_word (m : Memory) (q : Nat) {k : Nat} (hk : k < 4) :
    byteOfWord (Memory.word m q) k = Memory.read m (q + k) := by
  apply BitVec.eq_of_getLsbD_eq
  intro i hi
  rw [getLsbD_byteOfWord, Memory.word, getLsbD_wordOfBytes]
  interval_cases k
  · simp [hi]
  · simp [hi, show 8 + i < 16 by omega]
  · simp [hi, show ¬ 16 + i < 8 by omega, show ¬ 16 + i < 16 by omega, show 16 + i < 24 by omega]
  · simp [hi, show ¬ 24 + i < 8 by omega, show ¬ 24 + i < 16 by omega, show ¬ 24 + i < 24 by omega]

/-- A byte read through a D-cache that agrees with memory is memory's byte. -/
theorem Cache.takeBytes_read_coherent {c : Cache} {m : Memory} (h : Cache.coherent c m) (a : Word) :
    takeBytes (c.read m a).1 (byteLane a) 1 = BitVec.ofNat 32 (Memory.read m a.toNat).toNat := by
  have lane : a.toNat / 4 * 4 + a.toNat % 4 = a.toNat := by omega
  rw [Cache.read_coherent h, byteLane_eq, takeBytes_one, Memory.byteOfWord_word _ _ (Nat.mod_lt _ (by decide)), lane,
    BitVec.ofNat_toNat]

/-- LBU of a RAM byte writes that byte to x[rd] where the D-cache agrees with memory (spec/42_loadstore.md R268). -/
theorem execLbu_ram {rd base : Reg} {off : BitVec 12} {s : State} (hco : Cache.coherent s.dcache s.mem)
    (ram : RamAccess s (effectiveAddress s base off) 1) :
    ∃ u, execLbu rd base off s = .next u
      ∧ WritesReg s u rd (BitVec.ofNat 32 (Memory.read s.mem (effectiveAddress s base off).toNat).toNat) := by
  have read := memRead_ram (n := .byte) ram
  rw [Width.bytes, Cache.takeBytes_read_coherent hco] at read
  refine ⟨_, by rw [execLbu, loadOp, read]; rfl, fun r => ?_⟩
  rw [State.reg_complete, State.reg_setReg]
  rfl

/-- A store to RAM leaves the D-cache and memory as `Cache.write` and `Memory.writeBytes` say. -/
theorem storeOp_ram {n : Width} {rs1 rs2 : Reg} {imm : BitVec 12} {s t : State}
    (ram : RamAccess s (effectiveAddress s rs1 imm) n.bytes) (h : storeOp n rs1 rs2 imm s = .next t) :
    t.dcache = s.dcache.write (effectiveAddress s rs1 imm) n.bytes (s.reg rs2)
      ∧ t.mem = Memory.writeBytes s.mem (effectiveAddress s rs1 imm).toNat (s.reg rs2) n.bytes := by
  rw [storeOp, memWrite_ram ram] at h
  cases h
  exact ⟨rfl, rfl⟩

/-- Settles O21: the store keeps the D-cache's agreement with memory, so the load reads memory's byte. -/
theorem storeThenLoadByte : Obligations.StoreThenLoadByte := by
  intro rd rs1 rs2 base imm off s t n hu hco hst he hld
  have store : storeOp n rs1 rs2 imm s = .next t := by cases n <;> exact he
  obtain ⟨hd, hm⟩ := storeOp_ram hst store
  have agrees : Cache.coherent t.dcache t.mem := by
    rw [hd, hm]
    exact Cache.coherent_write hu hco (n.aligned_in_word hst.1)
  rw [← Memory.read_writeBytes_eq_storedByte, ← hm]
  exact execLbu_ram agrees hld

end Sys2Proof.Machine
end

section
/-! PROOF. A cycle as fetch, decode and execute: what it runs, its exceptions and the one word that halts; register shifts, the I-immediate and the spec's words. -/

namespace Sys2Proof.Machine

/-! ### Fetch (spec/20_memory.md R102) -/

theorem extractLsb'_two_eq_zero_iff (a : Word) : a.extractLsb' 0 2 = 0#2 ↔ a.toNat % 4 = 0 := by
  rw [← byteLane_eq, byteLane, ← BitVec.toNat_inj]
  rfl

theorem fetch_misaligned {s : State} (h : s.pc.toNat % 4 ≠ 0) : fetch s = .error .instructionMisaligned :=
  if_pos (mt (extractLsb'_two_eq_zero_iff _).mp h)

theorem fetch_outsideRam {s : State} (hal : s.pc.toNat % 4 = 0) (hram : inRam s.cfg s.pc.toNat 4 = false) :
    fetch s = .error .instructionFault := by
  simp [fetch, (extractLsb'_two_eq_zero_iff _).mpr hal, hram]

/-- A fetch that answers a word had a fetchable pc. -/
theorem fetchable_of_fetch {s u : State} {w : Word} (h : fetch s = .ok (w, u)) : Fetchable s := by
  obtain ⟨hal, hram, -, -⟩ := fetch_ok h
  exact ⟨(extractLsb'_two_eq_zero_iff _).mp hal, hram⟩

/-- A read that misses answers memory's word, because the line is filled before it answers (R124). -/
theorem Cache.fst_read_of_not_holds {c : Cache} {a : Word} (h : ¬ c.holds a) (m : Memory) :
    (c.read m a).1 = Memory.word m (a.toNat / 4 * 4) := by
  rw [← Cache.read_coherent (Cache.coherent_reset m), Cache.fst_read, Cache.fst_read, Cache.accessLine_of_not_holds h,
    Cache.accessLine_of_not_holds (Cache.not_holds_reset a)]

/-! ### The step of a ready state that takes no interrupt (spec/30_encoding.md R170 to R174) -/

theorem fetchDecode_fetchError {s : State} {c : Cause} (h : fetch s = .error c) :
    fetchDecode s = .trapped (takeTrap c s.pc s) := by
  rw [fetchDecode, h]

theorem fetchDecode_illegal {s u : State} {w : Word} {e : Illegal} (hf : fetch s = .ok (w, u))
    (hd : decodeWord w = .error e) : fetchDecode s = .trapped (takeTrap .illegalInstruction w u) := by
  simp only [fetchDecode, hf, hd]

theorem fetchDecode_legal {s u : State} {w : Word} {i : Instr} (hf : fetch s = .ok (w, u)) (hd : decodeWord w = .ok i) :
    fetchDecode s = .execute i u := by
  simp only [fetchDecode, hf, hd]

section
variable {s : State} (ready : Ready s) (quiet : NoInterrupt s)
include ready quiet

theorem step_of_trapped {t : State} (h : fetchDecode (beginCycle s) = .trapped t) : step s = .next t := by
  rw [step, frontEnd_ready ready quiet, h]

theorem step_of_execute {i : Instr} {u : State} (h : fetchDecode (beginCycle s) = .execute i u) : step s = exec i u := by
  rw [step, frontEnd_ready ready quiet, h]

/-- A fetch that fails ends the step in the trap entry of its exception, with the pc as trap value (own choice D9). -/
theorem step_fetchError {c : Cause} (h : fetch (beginCycle s) = .error c) :
    ∃ t, step s = .next t ∧ TrapEntered (beginCycle s) t c.mcause s.pc (handlerAddress s.csr.mtvec c.code.toNat) :=
  ⟨_, step_of_trapped ready quiet (fetchDecode_fetchError h), takeTrap_entered c s.pc (beginCycle s)⟩

end

/-- The fetch of a cycle reads the I-cache and memory of the state that the cycle starts from. -/
theorem fetch_beginCycle {s : State} (h : Fetchable s) :
    fetch (beginCycle s)
      = .ok ((s.icache.read s.mem s.pc).1, { beginCycle s with icache := (s.icache.read s.mem s.pc).2 }) :=
  fetch_of_fetchable (s := beginCycle s) h

theorem step_eq_exec {s : State} {i : Instr} (ready : Ready s) (quiet : NoInterrupt s) (hf : Fetchable s)
    (hd : decodeWord (s.icache.read s.mem s.pc).1 = .ok i) :
    step s = exec i { beginCycle s with icache := (s.icache.read s.mem s.pc).2 } :=
  step_of_execute ready quiet (fetchDecode_legal (fetch_beginCycle hf) hd)

/-- Settles O35: the two errors of a fetch, and the word that decodes to nothing, each end in the trap entry. -/
theorem fetchAndDecodeExceptions : Obligations.FetchAndDecodeExceptions := by
  intro s ready quiet
  refine ⟨fun misaligned => ?_, fun aligned outside => ?_, fun fetchable illegal => ?_⟩
  · exact step_fetchError ready quiet (fetch_misaligned misaligned)
  · exact step_fetchError ready quiet (fetch_outsideRam aligned outside)
  · cases hd : decodeWord (s.icache.read s.mem s.pc).1 with
    | ok i => exact absurd hd (illegal i)
    | error e =>
      exact ⟨_, step_of_trapped ready quiet (fetchDecode_illegal (fetch_beginCycle fetchable) hd),
        takeTrap_entered .illegalInstruction _ { beginCycle s with icache := (s.icache.read s.mem s.pc).2 }⟩

/-- The four bytes of a word decode as the word (R150). -/
theorem decodeWord_of_decodeBytes {b0 b1 b2 b3 : Byte} {i : Instr} (h : decodeBytes [b0, b1, b2, b3] = .ok (i, [])) :
    decodeWord (wordOfBytes b0 b1 b2 b3) = .ok i := by
  simp only [decodeBytes] at h
  split at h
  case h_1 j hd =>
    cases h
    exact hd
  case h_2 => cases h

/-- Settles O34: the word of an I-cache miss is memory's at the aligned pc, and the rest is the execute stage. -/
theorem stepRunsDecodedInstruction : Obligations.StepRunsDecodedInstruction := by
  intro s i ready quiet fetchable
  refine ⟨step_eq_exec ready quiet fetchable, fun miss hb => step_eq_exec ready quiet fetchable ?_⟩
  have aligned : s.pc.toNat / 4 * 4 = s.pc.toNat := by
    have := fetchable.1
    omega
  rw [Cache.fst_read_of_not_holds miss, aligned]
  exact decodeWord_of_decodeBytes hb

/-! ### The word that halts (spec/30_encoding.md R161, R175) -/

theorem decodeSystemWord_ebreak {w : Word} (h : decodeSystemWord w = .ok .ebreak) : w = 0x00100073#32 := by
  unfold decodeSystemWord at h
  split at h
  case h_2 => rfl
  all_goals cases h

theorem decodeSystem_ebreak {w : Word} (h : decodeSystem w = .ok .ebreak) : w = 0x00100073#32 := by
  unfold decodeSystem at h
  split at h
  case h_1 => exact decodeSystemWord_ebreak h
  all_goals cases h

/-- No other word is an EBREAK: of the opcodes only SYSTEM has it. -/
theorem decodeWord_ebreak {w : Word} (h : decodeWord w = .ok .ebreak) : w = 0x00100073#32 := by
  unfold decodeWord at h
  split at h
  case h_10 => exact decodeSystem_ebreak h
  case h_3 | h_6 | h_9 | h_11 => cases h
  all_goals
    simp only [decodeLoad, decodeOpImm, decodeStore, decodeOp, decodeOpBase, decodeOpM, decodeOpAlt, decodeBranch,
      decodeJalr] at h
    repeat' split at h
    all_goals cases h

/-- Settles O42: a trap entry keeps run, so the step that clears it completed an EBREAK. -/
theorem onlyEbreakHalts : Obligations.OnlyEbreakHalts := by
  intro s t hs halted
  obtain ⟨⟨running, -, -⟩, ending⟩ := step_cases hs
  have kept {u : State} (hu : u.run = s.run) : u.run ≠ false := by simp [hu, running]
  obtain ⟨-, rfl⟩ | ⟨-, c, -, rfl⟩ | ⟨-, w, u, e, hf, -, rfl⟩ | ⟨quiet, w, u, i, hf, hd, he⟩ := ending
  · exact absurd halted (kept rfl)
  · exact absurd halted (kept rfl)
  · obtain ⟨-, -, -, rfl⟩ := fetch_ok hf
    exact absurd halted (kept rfl)
  · obtain ⟨-, -, rfl, rfl⟩ := fetch_ok hf
    obtain ⟨c, tval, rfl, -⟩ | ⟨-, -, same | rfl⟩ := exec_traps_or_completes he
    · exact absurd halted (kept rfl)
    · exact absurd halted (kept same)
    · cases he
      exact ⟨quiet, fetchable_of_fetch (s := beginCycle s) hf, decodeWord_ebreak hd, rfl, rfl⟩

/-! ### Register shifts (spec/40_alu.md R212, R216, R217, R221) -/

/-- An instruction that ends in one register write computes that value and changes nothing else. -/
theorem computesReg_of_writeResult {i : Instr} {s : State} {rd : Reg} {v : Word} (h : exec i s = writeResult rd v s) :
    ComputesReg i s rd v :=
  ⟨_, h, fun r => State.reg_setReg s rd v r, ⟨rfl, rfl⟩, rfl, rfl, rfl, fun _ => rfl, rfl, rfl, rfl, rfl, rfl, rfl⟩

theorem toNat_shiftAmount (v : Word) : (shiftAmount v).toNat = v.toNat % 32 := by
  rw [shiftAmount, BitVec.extractLsb'_toNat, Nat.shiftRight_zero]

theorem shiftLeft_eq (a : Word) (n : BitVec 5) : shiftLeft a n = BitVec.ofNat 32 (a.toNat * 2 ^ n.toNat) := by
  apply BitVec.eq_of_toNat_eq
  rw [shiftLeft, BitVec.toNat_shiftLeft, BitVec.toNat_ofNat, Nat.shiftLeft_eq]

theorem shiftRightLogical_eq (a : Word) (n : BitVec 5) :
    shiftRightLogical a n = BitVec.ofNat 32 (a.toNat / 2 ^ n.toNat) := by
  rw [shiftRightLogical, ← Nat.shiftRight_eq_div_pow, ← BitVec.toNat_ushiftRight, BitVec.ofNat_toNat, BitVec.setWidth_eq]

theorem shiftRightArith_eq (a : Word) (n : BitVec 5) : shiftRightArith a n = BitVec.ofInt 32 (a.toInt / 2 ^ n.toNat) := by
  rw [shiftRightArith, BitVec.sshiftRight, Int.shiftRight_eq_div_pow, Nat.cast_pow, Nat.cast_ofNat]

/-- Settles O4: each shift is one register write, by an amount that is the low five bits of x[rs2]. -/
theorem registerShifts : Obligations.RegisterShifts := by
  intro rd rs1 rs2 s
  rw [← toNat_shiftAmount, ← shiftLeft_eq, ← shiftRightLogical_eq, ← shiftRightArith_eq]
  exact ⟨computesReg_of_writeResult rfl, computesReg_of_writeResult rfl, computesReg_of_writeResult rfl⟩

/-! ### The I-immediate and the spec's words (spec/30_encoding.md R153, R154) -/

/-- The bits of an extended I-immediate: w[31:20], and bit 31 above them. -/
theorem getLsbD_sext12_immI (w : Word) {i : Nat} (hi : i < 32) :
    (sext12 (Field.immI w)).getLsbD i = if i < 12 then w.getLsbD (20 + i) else w.getLsbD 31 := by
  have sign : (Field.immI w).msb = w.getLsbD 31 := by simp [BitVec.msb_eq_getLsbD_last, Field.immI]
  rw [sext12, BitVec.getLsbD_signExtend, sign, Field.immI, BitVec.getLsbD_extractLsb']
  by_cases low : i < 12 <;> simp [hi, low]

theorem getLsbD_upperMask : ∀ i < 32, (0xFFFFF000#32 : Word).getLsbD i = decide (12 ≤ i) := by decide

/-- Settles O44, bit by bit: below bit 12 the two sides read the same bits of the word, above it the sign. -/
theorem immediateISignExtends : Obligations.ImmediateISignExtends := by
  intro w
  rw [BitVec.getLsbD_ushiftRight]
  refine ⟨fun sign => BitVec.eq_of_getLsbD_eq fun i hi => ?_, fun sign => BitVec.eq_of_getLsbD_eq fun i hi => ?_⟩
  · rw [getLsbD_sext12_immI w hi, sign, BitVec.getLsbD_ushiftRight]
    split
    · rfl
    · rw [BitVec.getLsbD_of_ge w _ (by omega)]
  · rw [getLsbD_sext12_immI w hi, sign, BitVec.getLsbD_or, BitVec.getLsbD_ushiftRight, getLsbD_upperMask i hi]
    split
    case isTrue low => simp [low]
    case isFalse high => simp [Nat.le_of_not_lt high]

/-- Settles O46, each word by computation. -/
theorem specWordsDecode : Obligations.SpecWordsDecode :=
  ⟨rfl, rfl, rfl, rfl, rfl, rfl, rfl, rfl, rfl, rfl, rfl, rfl, rfl, rfl, rfl, rfl⟩

end Sys2Proof.Machine
end

section
/-! PROOF. The immediate and register forms of the ALU compute the exact results of spec/40_alu.md. -/

namespace Sys2Proof.Machine

/-! ### Immediate and register arithmetic (spec/40_alu.md R200 to R208, R210 to R219) -/

theorem ofInt_toNat (a : Word) : BitVec.ofInt 32 a.toNat = a := by
  rw [BitVec.ofInt_natCast, BitVec.ofNat_toNat, BitVec.setWidth_eq]

/-- Adding a sign-extended immediate is the exact integer sum, taken modulo 2^32. -/
theorem add_signExtend_eq {k : Nat} (a : Word) (imm : BitVec k) :
    a + imm.signExtend 32 = BitVec.ofInt 32 (a.toNat + imm.toInt) := by
  rw [BitVec.ofInt_add, ofInt_toNat, BitVec.signExtend]

theorem sub_eq_ofInt (a b : Word) : a - b = BitVec.ofInt 32 (a.toNat - b.toNat) := by
  rw [Int.sub_eq_add_neg, BitVec.ofInt_add, BitVec.ofInt_neg, ofInt_toNat, ofInt_toNat, BitVec.sub_eq_add_neg]

theorem sext12_eq_ofInt (imm : BitVec 12) : sext12 imm = BitVec.ofInt 32 imm.toInt := rfl

theorem toInt_sext12 (imm : BitVec 12) : (sext12 imm).toInt = imm.toInt := BitVec.toInt_signExtend_of_le (by decide)

theorem toNat_zext12 (imm : BitVec 12) : (zext12 imm).toNat = imm.toNat := BitVec.toNat_setWidth_of_le (by decide)

theorem lessSigned_eq (a b : Word) : lessSigned a b = if a.toInt < b.toInt then 1#32 else 0#32 := by
  simp only [lessSigned, boolWord, decide_eq_true_eq]

theorem lessUnsigned_eq (a b : Word) : lessUnsigned a b = if a.toNat < b.toNat then 1#32 else 0#32 := by
  simp only [lessUnsigned, boolWord, decide_eq_true_eq]

/-- Settles O1: each is one register write; the immediate is sign-extended, but SLTIU's zero-extended (R159). -/
theorem immediateArithmetic : Obligations.ImmediateArithmetic := by
  intro rd rs1 imm s
  rw [← add_signExtend_eq, ← sext12_eq_ofInt, ← toInt_sext12, ← lessSigned_eq, ← toNat_zext12, ← lessUnsigned_eq]
  refine ⟨?_, ?_, ?_, ?_, ?_, ?_⟩ <;> exact computesReg_of_writeResult rfl

/-- Settles O2: each is one register write, by the instruction's own amount. -/
theorem immediateShifts : Obligations.ImmediateShifts := by
  intro rd rs1 shamt s
  rw [← shiftLeft_eq, ← shiftRightLogical_eq, ← shiftRightArith_eq]
  refine ⟨?_, ?_, ?_⟩ <;> exact computesReg_of_writeResult rfl

/-- Settles O3: each is one register write, whose operands are read before it (R173). -/
theorem registerArithmetic : Obligations.RegisterArithmetic := by
  intro rd rs1 rs2 s
  rw [← BitVec.add_def, ← sub_eq_ofInt, ← lessSigned_eq, ← lessUnsigned_eq]
  refine ⟨?_, ?_, ?_, ?_, ?_, ?_, ?_⟩ <;> exact computesReg_of_writeResult rfl

end Sys2Proof.Machine
end

section
/-! PROOF. Multiplication, division and remainder compute the exact results of spec/41_muldiv.md. -/

namespace Sys2Proof.Machine

/-! ### The words of an exact product (spec/41_muldiv.md R240) -/

theorem productLow_natCast (m n : Nat) : productLow (m * n) = BitVec.ofNat 32 (m * n) := by
  rw [productLow, ← Int.natCast_mul, BitVec.ofInt_natCast]

/-- The model shifts by an integer amount; the library's laws speak of a natural one. -/
theorem productHigh_eq_shiftRight (p : Int) : productHigh p = BitVec.ofInt 32 (p >>> (32 : Nat)) := by
  cases p <;> rfl

/-- The arithmetic shift by 32 is the division by 2^32 that rounds down. -/
theorem productHigh_eq (p : Int) : productHigh p = BitVec.ofInt 32 (p / 2 ^ 32) := by
  rw [productHigh_eq_shiftRight, Int.shiftRight_eq_div_pow, Nat.cast_pow, Nat.cast_ofNat]

theorem productHigh_natCast (m n : Nat) : productHigh (m * n) = BitVec.ofNat 32 (m * n / 2 ^ 32) := by
  rw [productHigh_eq, ← BitVec.ofInt_natCast, Int.natCast_ediv, Nat.cast_mul, Nat.cast_pow, Nat.cast_ofNat]

/-- Settles O5: each is one register write, of the low or the high word of its exact product. -/
theorem multiply : Obligations.Multiply := by
  intro rd rs1 rs2 s
  rw [← productLow_natCast, ← productHigh_eq, ← productHigh_eq, ← productHigh_natCast]
  refine ⟨?_, ?_, ?_, ?_⟩ <;> exact computesReg_of_writeResult rfl

/-! ### Division and remainder (spec/41_muldiv.md R241, R242) -/

/-- What the truncated quotient leaves is the truncated remainder, which has the dividend's sign. -/
theorem remainderSigned_eq (a b : Word) :
    remainderSigned a b
      = if b = 0#32 then a
        else if a = 0x80000000#32 ∧ b = 0xFFFFFFFF#32 then 0#32
        else BitVec.ofInt 32 (Int.tmod a.toInt b.toInt) := by
  rw [remainderSigned, Int.tmod_def, Int.mul_comm]

/-- Settles O6: each is one register write; only the signed remainder is written otherwise in the model. -/
theorem divide : Obligations.Divide := by
  intro rd rs1 rs2 s
  rw [← remainderSigned_eq]
  refine ⟨?_, ?_, ?_, ?_⟩ <;> exact computesReg_of_writeResult rfl

end Sys2Proof.Machine
end

section
/-! PROOF. Loads, stores and faults of spec/42_loadstore.md, and the address map of a valid configuration. -/

namespace Sys2Proof.Machine

/-! ### The address map (spec/00_scope.md R13, spec/42_loadstore.md R274) -/

theorem DevReg.mem_all (r : DevReg) : r ∈ DevReg.all := by cases r <;> decide

/-- The constraints of R13 that place RAM and the registers. -/
theorem configValid_map {cfg : Config} (h : configValid cfg = true) :
    (cfg.ramBase.toNat % 16 = 0 ∧ cfg.ramSize % 16 = 0)
    ∧ (∀ r : DevReg, disjointRanges cfg.ramBase cfg.ramSize (r.address cfg) r.size = true)
    ∧ DevReg.all.Pairwise (fun r q => disjointRanges (r.address cfg) r.size (q.address cfg) q.size = true) := by
  simp only [configValid, Bool.and_eq_true, decide_eq_true_eq, List.all_eq_true] at h
  obtain ⟨⟨⟨⟨⟨hbase, hsize⟩, -⟩, -⟩, hram⟩, hregs⟩ := h
  exact ⟨⟨hbase, hsize⟩, fun r => hram r r.mem_all, hregs⟩

theorem disjointRanges_comm (a : Word) (m : Nat) (b : Word) (n : Nat) :
    disjointRanges a m b n = disjointRanges b n a m := Bool.and_comm _ _

/-- No address lies in both of two disjoint ranges. -/
theorem disjointRanges_not_both {a b x : Word} {m n : Nat} (h : disjointRanges a m b n = true)
    (ha : (x - a).toNat < m) : ¬ (x - b).toNat < n := by
  simp only [disjointRanges, Bool.and_eq_true, decide_eq_true_eq] at h
  obtain ⟨hm, hn⟩ := h
  bv_omega

/-- Under the constraints no byte belongs to two device registers. -/
theorem DevReg.eq_of_covers {cfg : Config} {a : Word} {r q : DevReg} (hv : configValid cfg = true)
    (hr : r.offset cfg a < r.size) (hq : q.offset cfg a < q.size) : r = q := by
  obtain ⟨-, -, hregs⟩ := configValid_map hv
  have symmetric : Std.Symm fun r q : DevReg => disjointRanges (r.address cfg) r.size (q.address cfg) q.size = true :=
    ⟨fun r q h => by rwa [disjointRanges_comm]⟩
  by_contra hne
  exact disjointRanges_not_both (hregs.forall r.mem_all q.mem_all hne) hr hq

theorem DevReg.covers_of_devAt {cfg : Config} {a : Word} {r : DevReg} (h : devAt cfg a = some r) :
    r.offset cfg a < r.size := by
  simpa using List.find?_some h

/-- A byte of RAM is less than RAM's size away from its base. -/
theorem sub_ramBase_lt {cfg : Config} {a : Word} (h : inRam cfg a.toNat 1 = true) :
    (a - cfg.ramBase).toNat < cfg.ramSize := by
  simp only [inRam, Bool.and_eq_true, decide_eq_true_eq] at h
  bv_omega

/-- Under the constraints the byte of a device register is not in RAM. -/
theorem inRam_of_devAt {cfg : Config} {a : Word} {r : DevReg} (hv : configValid cfg = true)
    (h : devAt cfg a = some r) : inRam cfg a.toNat 1 = false := by
  obtain ⟨-, hram, -⟩ := configValid_map hv
  by_contra inside
  exact disjointRanges_not_both (hram r) (sub_ramBase_lt (by simpa using inside)) (DevReg.covers_of_devAt h)

/-- RAM is whole 16-byte blocks: an access that stays in one block lies in RAM exactly where any byte of the block does. -/
theorem inRam_eq_of_same_block {cfg : Config} {a b n : Nat} (hv : configValid cfg = true) (hn : 0 < n)
    (within : b % 16 + n ≤ 16) (same : b / 16 = a / 16) : inRam cfg b n = inRam cfg a 1 := by
  obtain ⟨⟨hbase, hsize⟩, -, -⟩ := configValid_map hv
  rw [Bool.eq_iff_iff]
  simp only [inRam, Bool.and_eq_true, decide_eq_true_eq]
  omega

/-- Settles O29: the ranges are disjoint on the address circle, and RAM is a whole number of blocks. -/
theorem addressMapIsDisjoint : Obligations.AddressMapIsDisjoint := by
  intro cfg a hv
  refine ⟨fun r q => DevReg.eq_of_covers hv, fun r => inRam_of_devAt hv, fun n hn aligned => ?_, ?_⟩
  · have within : a.toNat % 16 + n ≤ 16 := by
      obtain rfl | rfl | rfl := hn <;> omega
    exact inRam_eq_of_same_block hv (by omega) within rfl
  · rw [toNat_blockBase]
    exact inRam_eq_of_same_block hv (by decide) (by omega) (by omega)

/-! ### The bytes that a load takes (spec/20_memory.md R95, R100) -/

theorem toNat_takeBytes (w : Word) (k : Nat) {n : Nat} (hn : n ≤ 4) :
    (takeBytes w k n).toNat = w.toNat / 2 ^ (8 * k) % 2 ^ (8 * n) := by
  have mask : (byteMask n).toNat = 2 ^ (8 * n) - 1 := by
    interval_cases n <;> rfl
  rw [takeBytes, BitVec.toNat_and, mask, Nat.and_two_pow_sub_one_eq_mod, BitVec.toNat_ushiftRight,
    Nat.shiftRight_eq_div_pow]

theorem toNat_takeBytes_lt (w : Word) (k : Nat) {n : Nat} (hn : n ≤ 4) : (takeBytes w k n).toNat < 2 ^ (8 * n) := by
  rw [toNat_takeBytes w k hn]
  exact Nat.mod_lt _ (Nat.two_pow_pos _)

/-- One byte more is the next byte of the word, above those already taken. -/
theorem toNat_takeBytes_succ (w : Word) (k : Nat) {n : Nat} (hn : n < 4) :
    (takeBytes w k (n + 1)).toNat = (takeBytes w k n).toNat + (byteOfWord w (k + n)).toNat * 2 ^ (8 * n) := by
  rw [toNat_takeBytes w k hn, toNat_takeBytes w k hn.le, byteOfWord_eq_ofNat, BitVec.toNat_ofNat, Nat.mul_succ,
    Nat.pow_add, Nat.mod_mul, Nat.div_div_eq_div_mul, ← Nat.pow_add, ← Nat.mul_add, Nat.mul_comm (2 ^ (8 * n))]

/-- The bytes of memory's word at `q` from byte `k` up are memory's bytes from `q + k` up. -/
theorem Memory.toNat_takeBytes_word (m : Memory) (q k : Nat) {n : Nat} (h : k + n ≤ 4) :
    (takeBytes (Memory.word m q) k n).toNat = bytesValue m (q + k) n := by
  induction n with
  | zero => simp [toNat_takeBytes, bytesValue, Nat.mod_one]
  | succ n ih =>
    rw [toNat_takeBytes_succ _ _ (by omega), ih (by omega), Memory.byteOfWord_word _ _ (by omega), bytesValue,
      Nat.add_assoc]

/-- What a read inside one word takes from a D-cache that agrees with memory is memory's bytes (spec/20_memory.md R130). -/
theorem Cache.toNat_takeBytes_read_coherent {c : Cache} {m : Memory} {a : Word} {n : Nat} (h : Cache.coherent c m)
    (within : a.toNat % 4 + n ≤ 4) :
    (takeBytes (c.read m a).1 (byteLane a) n).toNat = bytesValue m a.toNat n := by
  have lane : a.toNat / 4 * 4 + a.toNat % 4 = a.toNat := by omega
  rw [Cache.read_coherent h, byteLane_eq, Memory.toNat_takeBytes_word _ _ _ within, lane]

/-! ### Load extension (spec/42_loadstore.md R264) -/

theorem signExtend_eq_signExtended {n : Nat} (hn : n ≤ 4) (x : BitVec (8 * n)) :
    x.signExtend 32 = signExtended n x.toNat := by
  have bound : 2 ^ (8 * n) ≤ 2 ^ 32 := Nat.pow_le_pow_right (by decide) (by omega)
  have lt := x.isLt
  apply BitVec.eq_of_toNat_eq
  rw [BitVec.toNat_signExtend, BitVec.toNat_setWidth_of_le (by omega), BitVec.msb_eq_decide, signExtended,
    BitVec.toNat_ofNat]
  by_cases positive : x.toNat < 2 ^ (8 * n - 1)
  · rw [if_pos positive, if_neg (by simpa using positive), Nat.mod_eq_of_lt (by omega), Nat.add_zero]
  · rw [if_neg positive, if_pos (by simpa using positive), Nat.mod_eq_of_lt (by omega)]
    omega

/-- Sign-extending the low bytes of a word that has no others. -/
theorem signExtend_low_eq {n : Nat} (hn : n ≤ 4) {w : Word} (h : w.toNat < 2 ^ (8 * n)) :
    (w.extractLsb' 0 (8 * n)).signExtend 32 = signExtended n w.toNat := by
  rw [signExtend_eq_signExtended hn, BitVec.extractLsb'_toNat, Nat.shiftRight_zero, Nat.mod_eq_of_lt h]

theorem sext8_eq_signExtended (w : Word) (h : w.toNat < 2 ^ 8) : sext8 w = signExtended 1 w.toNat :=
  signExtend_low_eq (n := 1) (by decide) h

theorem sext16_eq_signExtended (w : Word) (h : w.toNat < 2 ^ 16) : sext16 w = signExtended 2 w.toNat :=
  signExtend_low_eq (n := 2) (by decide) h

theorem Width.bytes_le_four (n : Width) : n.bytes ≤ 4 := by cases n <;> decide

/-! ### Loads (spec/42_loadstore.md R261, R262, R265 to R269) -/

section
variable {i : Instr} {n : Width} {ext : Word → Word} {rd rs1 : Reg} {imm : BitVec 12} {s : State}
  (load : exec i s = loadOp n ext rd rs1 imm s)
include load

/-- A load whose access is done writes the extended value to x[rd], and otherwise changes what the access did. -/
theorem loadCompletes_of_memRead {v : Word} {dcache : Cache} {dev : DevState}
    (access : memRead (effectiveAddress s rs1 imm) n s = .done v { s with dcache := dcache, dev := dev }) :
    LoadCompletes i s rd (ext v) dcache dev := by
  have answer : exec i s = writeResult rd (ext v) { s with dcache := dcache, dev := dev } := by
    rw [load, loadOp, access]
  exact ⟨_, answer, fun r => State.reg_setReg _ rd _ r, ⟨rfl, rfl⟩, rfl, rfl, rfl, fun _ => rfl, rfl, rfl, rfl, rfl, rfl,
    rfl⟩

/-- A load from RAM through a D-cache that agrees with memory: `value` says what the extension makes of `n` bytes. -/
theorem loadCompletes_ram {value : Nat → Word}
    (extension : ∀ w : Word, w.toNat < 2 ^ (8 * n.bytes) → ext w = value w.toNat)
    (hco : Cache.coherent s.dcache s.mem) (ram : RamAccess s (effectiveAddress s rs1 imm) n.bytes) :
    LoadCompletes i s rd (value (bytesValue s.mem (effectiveAddress s rs1 imm).toNat n.bytes))
      (s.dcache.read s.mem (effectiveAddress s rs1 imm)).2 s.dev := by
  rw [← Cache.toNat_takeBytes_read_coherent hco (n.aligned_in_word ram.1),
    ← extension _ (toNat_takeBytes_lt _ _ n.bytes_le_four)]
  exact loadCompletes_of_memRead load (memRead_ram ram)

/-- A load outside RAM and every device takes LoadFault with its address as trap value. -/
theorem raisesLoadFault (unmapped : UnmappedAccess s (effectiveAddress s rs1 imm) n.bytes) :
    RaisesException i s 5 (effectiveAddress s rs1 imm) :=
  ⟨_, by rw [load, loadOp, memRead_unmapped unmapped], takeTrap_entered .loadFault _ s⟩

end

/-- Settles O19: each load takes the bytes of an access inside one word, and extends them as R264 says. -/
theorem loadsFromRam : Obligations.LoadsFromRam := by
  intro rd rs1 imm s hco
  have unsigned (n : Nat) (w : Word) (_ : w.toNat < n) : w = BitVec.ofNat 32 w.toNat := by
    rw [BitVec.ofNat_toNat, BitVec.setWidth_eq]
  refine ⟨fun ram => ⟨?_, ?_⟩, fun ram => ⟨?_, ?_⟩, fun ram => ?_⟩
  · exact loadCompletes_ram (n := .byte) rfl sext8_eq_signExtended hco ram
  · exact loadCompletes_ram (n := .byte) rfl (unsigned _) hco ram
  · exact loadCompletes_ram (n := .half) rfl sext16_eq_signExtended hco ram
  · exact loadCompletes_ram (n := .half) rfl (unsigned _) hco ram
  · exact loadCompletes_ram (n := .word) rfl (unsigned _) hco ram

/-! ### Stores (spec/42_loadstore.md R263, R270 to R272) -/

section
variable {i : Instr} {n : Width} {rs1 rs2 : Reg} {imm : BitVec 12} {s : State}
  (store : exec i s = storeOp n rs1 rs2 imm s)
include store

/-- A store whose access is done changes what the access did, the pc and instret alone. -/
theorem storeCompletes_of_memWrite {mem : Memory} {dcache : Cache} {dev : DevState}
    (access : memWrite (effectiveAddress s rs1 imm) n (s.reg rs2) s
      = .done () { s with dcache := dcache, mem := mem, dev := dev }) :
    StoreCompletes i s (Memory.read mem) dcache dev := by
  have answer : exec i s = .next { s with dcache := dcache, mem := mem, dev := dev : State }.complete := by
    rw [store, storeOp, access]
  exact ⟨_, answer, fun _ => rfl, fun _ => rfl, ⟨rfl, rfl⟩, rfl, rfl, rfl, rfl, rfl, rfl, rfl, rfl, rfl⟩

theorem storeCompletes_ram (ram : RamAccess s (effectiveAddress s rs1 imm) n.bytes) :
    StoreCompletes i s (storedByte s.mem (effectiveAddress s rs1 imm) n.bytes (s.reg rs2))
      (s.dcache.write (effectiveAddress s rs1 imm) n.bytes (s.reg rs2)) s.dev := by
  rw [← funext (Memory.read_writeBytes_eq_storedByte s.mem (effectiveAddress s rs1 imm) (s.reg rs2) n.bytes)]
  exact storeCompletes_of_memWrite store (memWrite_ram ram)

/-- A store outside RAM and every device takes StoreFault with its address as trap value. -/
theorem raisesStoreFault (unmapped : UnmappedAccess s (effectiveAddress s rs1 imm) n.bytes) :
    RaisesException i s 7 (effectiveAddress s rs1 imm) :=
  ⟨_, by rw [store, storeOp, memWrite_unmapped unmapped], takeTrap_entered .storeFault _ s⟩

end

/-- Settles O20: each store is the write of its width, whose bytes memory then reads. -/
theorem storesToRam : Obligations.StoresToRam := by
  intro rs1 rs2 imm s
  exact ⟨storeCompletes_ram (n := .byte) rfl, storeCompletes_ram (n := .half) rfl, storeCompletes_ram (n := .word) rfl⟩

/-- Settles O27: the access paths fault there, and the shapes of load and store turn the fault into the trap entry. -/
theorem unmappedAccessesFault : Obligations.UnmappedAccessesFault := by
  intro rd rs1 rs2 imm s
  refine ⟨fun unmapped => ⟨?_, ?_, ?_⟩, fun unmapped => ⟨?_, ?_, ?_⟩, fun unmapped => ⟨?_, ?_⟩⟩
  · exact raisesLoadFault (n := .byte) rfl unmapped
  · exact raisesLoadFault (n := .byte) rfl unmapped
  · exact raisesStoreFault (n := .byte) rfl unmapped
  · exact raisesLoadFault (n := .half) rfl unmapped
  · exact raisesLoadFault (n := .half) rfl unmapped
  · exact raisesStoreFault (n := .half) rfl unmapped
  · exact raisesLoadFault (n := .word) rfl unmapped
  · exact raisesStoreFault (n := .word) rfl unmapped

end Sys2Proof.Machine
end

section
/-! PROOF. The branches of spec/43_branch.md complete: the comparison decides the pc, and nothing else but instret changes. -/

namespace Sys2Proof.Machine

/-! ### Conditional branches (spec/43_branch.md R290, R292 to R298) -/

/-- A branch on the comparison `p` redirects the pc where `p` holds of its operands, and has no other effect (R292). -/
theorem onlyMovesPc_of_branchOp {i : Instr} {rs1 rs2 : Reg} {imm : BitVec 13} {s : State} (p : Word → Word → Prop)
    [DecidableRel p] (branch : exec i s = branchOp (fun a b => decide (p a b)) rs1 rs2 imm s) :
    OnlyMovesPc i s (if p (s.reg rs1) (s.reg rs2) then branchTarget s imm else linkAddress s) := by
  simp only [branchOp_eq, decide_eq_true_eq] at branch
  exact ⟨_, branch, rfl, rfl, fun _ => rfl, rfl, rfl, rfl, fun _ => rfl, rfl, rfl, rfl, rfl, rfl, rfl⟩

/-- Settles O12: each is a branch on its comparison; of one register with itself, = and ≤ hold, ≠ and < do not. -/
theorem branchesCompareAndMoveOnlyPc : Obligations.BranchesCompareAndMoveOnlyPc := by
  refine (and_iff_left_of_imp fun compare r imm s => ?sameRegister).mpr fun rs1 rs2 imm s => ?compare
  case compare =>
    exact ⟨onlyMovesPc_of_branchOp (fun a b => a = b) rfl,
      onlyMovesPc_of_branchOp (fun a b => a ≠ b) rfl,
      onlyMovesPc_of_branchOp (fun a b => a.toInt < b.toInt) rfl,
      onlyMovesPc_of_branchOp (fun a b => b.toInt ≤ a.toInt) rfl,
      onlyMovesPc_of_branchOp (fun a b => a.toNat < b.toNat) rfl,
      onlyMovesPc_of_branchOp (fun a b => b.toNat ≤ a.toNat) rfl⟩
  case sameRegister =>
    obtain ⟨beq, bne, blt, bge, bltu, bgeu⟩ := compare r r imm s
    rw [if_pos rfl] at beq
    rw [if_neg (not_not_intro rfl)] at bne
    rw [if_neg (lt_irrefl _)] at blt bltu
    rw [if_pos le_rfl] at bge bgeu
    exact ⟨beq, bge, bgeu, bne, blt, bltu⟩

end Sys2Proof.Machine
end

section
/-! PROOF. The jumps of spec/44_jump.md complete: the link in x[rd], the target in the pc, and nothing else but instret changes. -/

namespace Sys2Proof.Machine

/-! ### Unconditional jumps (spec/44_jump.md R310 to R312) -/

/-- A jump's one register write is the link, and its target is a value of the state before that write, so that rd may be
the register the target is computed from (R310, R312). -/
theorem jumpsAndLinks_of_jumpOp {i : Instr} {s : State} {rd : Reg} {target : Word} (jump : exec i s = jumpOp rd target s) :
    JumpsAndLinks i s rd target := by
  have link : WritesReg s ((s.setReg rd (linkAddress s)).completeAt target) rd (linkAddress s) := fun r => by
    rw [State.reg_completeAt, State.reg_setReg]
  exact ⟨_, jump, rfl, link, rfl, rfl, rfl, rfl, fun _ => rfl, rfl, rfl, rfl, rfl, rfl, rfl⟩

/-- Settles O13: JAL and JALR are jumps that differ in their target alone. -/
theorem jumpsLinkAndRedirect : Obligations.JumpsLinkAndRedirect := by
  intro rd rs1 imm off s
  exact ⟨jumpsAndLinks_of_jumpOp rfl, jumpsAndLinks_of_jumpOp rfl⟩

end Sys2Proof.Machine
end

section
/-! PROOF. LUI and AUIPC of spec/45_upper_imm.md write the exact upper immediate, alone or added to the pc. -/

namespace Sys2Proof.Machine

/-! ### The upper immediate (spec/30_encoding.md R157, spec/45_upper_imm.md R320, R321) -/

/-- Twelve zero bits below the immediate multiply it by 2^12, and the product fits in a word. -/
theorem upperImm_eq (imm : BitVec 20) : upperImm imm = BitVec.ofNat 32 (imm.toNat * 4096) := by
  apply BitVec.eq_of_toNat_eq
  rw [upperImm, BitVec.toNat_append, BitVec.toNat_zero, Nat.or_zero, Nat.shiftLeft_eq, BitVec.toNat_ofNat]
  omega

/-- Adding the upper immediate is the exact sum, taken modulo 2^32 (own choice D35). -/
theorem add_upperImm_eq (a : Word) (imm : BitVec 20) :
    a + upperImm imm = BitVec.ofNat 32 (a.toNat + imm.toNat * 4096) := by
  rw [upperImm_eq, BitVec.ofNat_add, BitVec.ofNat_toNat, BitVec.setWidth_eq]

/-- Settles O8: each is one register write, of the upper immediate alone or added to the instruction's own pc. -/
theorem upperImmediates : Obligations.UpperImmediates := by
  intro rd imm s
  rw [← upperImm_eq, ← add_upperImm_eq]
  exact ⟨computesReg_of_writeResult rfl, computesReg_of_writeResult rfl⟩

end Sys2Proof.Machine
end

section
/-! PROOF. The CSR accesses of spec/46_system.md R334 to R340, and MRET as the return from a trap. -/

namespace Sys2Proof.Machine

/-! ### The CSR file (spec/10_state.md R51 to R53) -/

/-- mip and unknown numbers ignore a write (R53). -/
theorem CsrFile.write_of_not_writable {n : CsrNum} (h : n ∉ writableCsrs) (c : CsrFile) (v : Word) : c.write n v = c := by
  unfold CsrFile.write
  split
  case h_7 => rfl
  all_goals exact absurd (by decide) h

/-- A read after a write that is kept: the written word at its own number, the old value at every other (R53). -/
theorem CsrFile.read_write_of_writable {n : CsrNum} (h : n ∈ writableCsrs) (c : CsrFile) (v : Word) (m : CsrNum) :
    (c.write n v).read m = if m = n then v else c.read m := by
  by_cases same : m = n
  · subst same
    fin_cases h <;> rfl
  · rw [if_neg same]
    fin_cases h <;> (unfold CsrFile.read; split <;> simp_all [CsrFile.write])

theorem CsrFile.read_write (c : CsrFile) (n : CsrNum) (v : Word) (m : CsrNum) :
    (c.write n v).read m = if m = n ∧ n ∈ writableCsrs then v else c.read m := by
  by_cases h : n ∈ writableCsrs
  · simp only [read_write_of_writable h, h, and_true]
  · simp only [write_of_not_writable h, h, and_false, if_false]

/-! ### CSR instructions (spec/46_system.md R334 to R340) -/

/-- A CSR read-modify-write takes its operand and the old value from the state before both of its writes (R334). -/
theorem accessesCsr_of_csrOp {i : Instr} {s : State} {f : Word → Word → Word} {rd : Reg} {src : Word} {n : CsrNum}
    (access : exec i s = csrOp f rd src n s) : AccessesCsr i s rd n (f (s.csr.read n) src) := by
  refine ⟨_, access, fun r => ?_, ⟨rfl, rfl⟩, ⟨rfl, rfl, fun _ => rfl, rfl, rfl, rfl, rfl, rfl, rfl⟩,
    CsrFile.read_write _ _ _⟩
  rw [State.reg_complete, State.reg_setReg, State.reg_setCsr]

theorem zext5_eq_ofNat (u : BitVec 5) : zext5 u = BitVec.ofNat 32 u.toNat := (BitVec.ofNat_toNat 32 u).symm

/-- Settles O17: each form is a CSR read-modify-write, of a register or of the zero-extended immediate (R159). -/
theorem csrInstructions : Obligations.CsrInstructions := by
  intro rd rs1 u n s
  rw [← zext5_eq_ofNat]
  exact ⟨accessesCsr_of_csrOp (f := fun _ v => v) rfl, accessesCsr_of_csrOp (f := (· ||| ·)) rfl,
    accessesCsr_of_csrOp (f := fun old v => old &&& ~~~v) rfl, accessesCsr_of_csrOp (f := fun _ v => v) rfl,
    accessesCsr_of_csrOp (f := (· ||| ·)) rfl, accessesCsr_of_csrOp (f := fun old v => old &&& ~~~v) rfl⟩

/-! ### Trap return (spec/46_system.md R332, R333) -/

/-- mstatus after MRET bit by bit: MIE takes MPIE, MPIE is set (R332). -/
theorem getLsbD_returnStatus (m : Word) {i : Nat} (hi : i < 32) :
    (returnStatus m).getLsbD i = if i = 7 then true else if i = 3 then m.getLsbD 7 else m.getLsbD i := by
  rw [returnStatus, statusMpie, getLsbD_setBit _ _ _ _ hi, getLsbD_setBit _ _ _ _ hi]

/-- Settles O40: the entry keeps the pc in mepc and MIE in MPIE, where MRET takes them back from. -/
theorem trapRoundTrip : Obligations.TrapRoundTrip := by
  intro c tval s h hmepc hmstatus
  obtain ⟨-, mepc, -, -, mstatus, -⟩ := takeTrap_entered c tval s
  refine ⟨_, rfl, hmepc.trans mepc, ?mie⟩
  calc (returnStatus h.csr.mstatus).getLsbD 3
      = h.csr.mstatus.getLsbD 7 := getLsbD_returnStatus _ (by decide)
    _ = (takeTrap c tval s).csr.mstatus.getLsbD 7 := by rw [hmstatus]
    _ = s.csr.mstatus.getLsbD 3 := mstatus 7 (by decide)

end Sys2Proof.Machine
end

section
/-! PROOF. No program can see instret, the cache counters, the trap records or the terminal output: each part of a cycle gives the same visible part from a state as from its visible part alone. -/

namespace Sys2Proof.Machine

/-! ### The caches without their counters (spec/20_memory.md R124, R125, R127) -/

theorem Cache.read_uncounted (c : Cache) (m : Memory) (a : Word) :
    (c.uncounted.read m a).1 = (c.read m a).1 ∧ (c.uncounted.read m a).2.uncounted = (c.read m a).2.uncounted := by
  cases hw : (c.setOf a).hitWay (tagOf a) with
  | some w =>
    rw [Cache.read_hit hw, Cache.read_hit (c := c.uncounted) hw]
    exact ⟨rfl, rfl⟩
  | none =>
    rw [Cache.read_miss hw, Cache.read_miss (c := c.uncounted) hw]
    exact ⟨rfl, rfl⟩

theorem Cache.write_uncounted (c : Cache) (a : Word) (n : Nat) (v : Word) :
    (c.uncounted.write a n v).uncounted = (c.write a n v).uncounted := by
  cases hw : (c.setOf a).hitWay (tagOf a) with
  | some w =>
    rw [Cache.write_hit hw, Cache.write_hit (c := c.uncounted) hw]
    rfl
  | none =>
    rw [Cache.write_miss hw, Cache.write_miss (c := c.uncounted) hw]
    rfl

/-! ### The devices without the terminal output (spec/60_exceptions.md R421, R428, R433) -/

/-- The devices as `State.visible` has them. -/
def DevState.silent (d : DevState) : DevState := { d with uartOut := [] }

/-- No register's value shows the terminal output: the UART's reads 0 (own choice D25). -/
theorem DevState.value_silent (d : DevState) (r : DevReg) : d.silent.value r = d.value r := by
  cases r <;> rfl

/-- A load of CLAIM changes the pending bits alone, by the pending and the enable bits. -/
theorem DevState.afterRead_claim (d : DevState) :
    d.afterRead .claim
      = { d with
          plicPending :=
            ((claimSource d.plicPending d.plicEnable).map (setBit d.plicPending · false)).getD d.plicPending } := by
  unfold DevState.afterRead
  dsimp only
  cases claimSource d.plicPending d.plicEnable <;> rfl

theorem DevState.afterRead_silent (d : DevState) (r : DevReg) : (d.silent.afterRead r).silent = (d.afterRead r).silent := by
  cases r with
  | claim =>
    rw [afterRead_claim, afterRead_claim]
    rfl
  | _ => rfl

/-- A store to the UART appends to the terminal output and looks at nothing in it. -/
theorem DevState.write_silent (d : DevState) (cfg : Config) (r : DevReg) (k n : Nat) (v : Word) :
    (d.silent.write cfg r k n v).silent = (d.write cfg r k n v).silent := by
  cases r <;> rfl

/-! ### States and answers with the same visible part -/

theorem State.visible_with_icache {c d : Cache} (h : c.uncounted = d.uncounted) (s : State) :
    ({ s.visible with icache := c } : State).visible = ({ s with icache := d } : State).visible :=
  congrArg (fun c => { s.visible with icache := c }) h

theorem State.visible_with_dcache {c d : Cache} (h : c.uncounted = d.uncounted) (s : State) :
    ({ s.visible with dcache := c } : State).visible = ({ s with dcache := d } : State).visible :=
  congrArg (fun c => { s.visible with dcache := c }) h

theorem State.visible_with_dev {d e : DevState} (h : d.silent = e.silent) (s : State) :
    ({ s.visible with dev := d } : State).visible = ({ s with dev := e } : State).visible :=
  congrArg (fun d => { s.visible with dev := d }) h

/-- An answer with the visible part of its next state. -/
def visibleAnswer : Result → Result
  | .next s => .next s.visible
  | .fault f => .fault f
  | .refused r => .refused r

theorem sameVisible_iff (a b : Result) : SameVisible a b ↔ visibleAnswer a = visibleAnswer b := by
  cases a <;> cases b <;> simp [SameVisible, visibleAnswer]

/-- What is the same of a state and of its visible part is the same of any two states with one visible part. -/
theorem eq_of_visible_eq {α : Type} {f : State → α} (blind : ∀ s, f s.visible = f s) {s t : State}
    (h : s.visible = t.visible) : f s = f t := by
  rw [← blind s, ← blind t, h]

section
variable {s t : State} (h : s.visible = t.visible)
include h

theorem takeTrap_congr (c : Cause) (tval : Word) : (takeTrap c tval s).visible = (takeTrap c tval t).visible :=
  eq_of_visible_eq (f := fun s => (takeTrap c tval s).visible) (fun _ => rfl) h

theorem complete_congr : s.complete.visible = t.complete.visible :=
  eq_of_visible_eq (f := fun s => s.complete.visible) (fun _ => rfl) h

theorem writeResult_congr (rd : Reg) (v : Word) :
    visibleAnswer (writeResult rd v s) = visibleAnswer (writeResult rd v t) :=
  eq_of_visible_eq (f := fun s => visibleAnswer (writeResult rd v s)) (fun _ => rfl) h

end

/-! ### Loads and stores (spec/20_memory.md R99 to R101) -/

/-- The four ways of an access: misaligned, a device register, RAM, or nothing there. -/
theorem access_cases (s : State) (ea : Word) (n : Nat) :
    ea.toNat % n ≠ 0 ∨ (ea.toNat % n = 0 ∧ ∃ r, devAt s.cfg ea = some r) ∨ RamAccess s ea n ∨ UnmappedAccess s ea n := by
  by_cases aligned : ea.toNat % n = 0
  · cases device : devAt s.cfg ea with
    | some r => exact .inr (.inl ⟨aligned, r, rfl⟩)
    | none =>
      cases ram : inRam s.cfg ea.toNat n with
      | true => exact .inr (.inr (.inl ⟨aligned, device, ram⟩))
      | false => exact .inr (.inr (.inr ⟨aligned, device, ram⟩))
  · exact .inl aligned

theorem loadOp_visible (n : Width) (ext : Word → Word) (rd rs1 : Reg) (imm : BitVec 12) (s : State) :
    visibleAnswer (loadOp n ext rd rs1 imm s.visible) = visibleAnswer (loadOp n ext rd rs1 imm s) := by
  have address : effectiveAddress s.visible rs1 imm = effectiveAddress s rs1 imm := rfl
  rw [loadOp, loadOp, address]
  generalize effectiveAddress s rs1 imm = ea
  obtain misaligned | ⟨aligned, r, device⟩ | ram | unmapped := access_cases s ea n.bytes
  · rw [memRead_misaligned misaligned, memRead_misaligned misaligned]
  · have value : s.visible.dev.value r = s.dev.value r := s.dev.value_silent r
    rw [memRead_device aligned device, memRead_device (s := s.visible) aligned device, value]
    exact writeResult_congr (State.visible_with_dev (s.dev.afterRead_silent r) s) rd _
  · obtain ⟨word, cache⟩ := s.dcache.read_uncounted s.mem ea
    have value : (s.visible.dcache.read s.visible.mem ea).1 = (s.dcache.read s.mem ea).1 := word
    rw [memRead_ram ram, memRead_ram (s := s.visible) ram, value]
    exact writeResult_congr (State.visible_with_dcache cache s) rd _
  · rw [memRead_unmapped unmapped, memRead_unmapped (s := s.visible) unmapped]
    rfl

theorem storeOp_visible (n : Width) (rs1 rs2 : Reg) (imm : BitVec 12) (s : State) :
    visibleAnswer (storeOp n rs1 rs2 imm s.visible) = visibleAnswer (storeOp n rs1 rs2 imm s) := by
  have address : effectiveAddress s.visible rs1 imm = effectiveAddress s rs1 imm := rfl
  have data : s.visible.reg rs2 = s.reg rs2 := rfl
  rw [storeOp, storeOp, address, data]
  generalize effectiveAddress s rs1 imm = ea, s.reg rs2 = v
  obtain misaligned | ⟨aligned, r, device⟩ | ram | unmapped := access_cases s ea n.bytes
  · rw [memWrite_misaligned misaligned, memWrite_misaligned misaligned]
  · rw [memWrite_device aligned device, memWrite_device (s := s.visible) aligned device]
    exact congrArg Host.Outcome.next
      (complete_congr (State.visible_with_dev (s.dev.write_silent s.cfg r (r.offset s.cfg ea) n.bytes v) s))
  · rw [memWrite_ram ram, memWrite_ram (s := s.visible) ram]
    exact congrArg Host.Outcome.next
      (complete_congr (State.visible_with_dcache (s.dcache.write_uncounted ea n.bytes v)
        { s with mem := Memory.writeBytes s.mem ea.toNat v n.bytes }))
  · rw [memWrite_unmapped unmapped, memWrite_unmapped (s := s.visible) unmapped]
    rfl

/-! ### The parts of a cycle (spec/30_encoding.md R170 to R174) -/

/-- An instruction gives the same visible part from a state as from its visible part: loads and stores because the accesses
do, the others because they read nothing else. -/
theorem exec_visible (i : Instr) (s : State) : visibleAnswer (exec i s.visible) = visibleAnswer (exec i s) := by
  cases i with
  | lb | lh | lw | lbu | lhu => exact loadOp_visible ..
  | sb | sh | sw => exact storeOp_visible ..
  | beq | bne | blt | bge | bltu | bgeu =>
    simp only [exec, execBeq, execBne, execBlt, execBge, execBltu, execBgeu, branchOp_eq]
    rfl
  | _ => rfl

/-- A front outcome with the visible part of its state. -/
def FrontOutcome.visible : FrontOutcome → FrontOutcome
  | .halted => .halted
  | .refused r => .refused r
  | .trapped s => .trapped s.visible
  | .execute i s => .execute i s.visible

theorem fetchDecode_visible_of_fetchable {s : State} (h : Fetchable s) :
    (fetchDecode s.visible).visible = (fetchDecode s).visible := by
  obtain ⟨same, cache⟩ := s.icache.read_uncounted s.mem s.pc
  have word : (s.visible.icache.read s.visible.mem s.visible.pc).1 = (s.icache.read s.mem s.pc).1 := same
  have fetched := fetch_of_fetchable h
  have fetchedVisible := fetch_of_fetchable (s := s.visible) h
  rw [word] at fetchedVisible
  have after := State.visible_with_icache cache s
  cases decoded : decodeWord (s.icache.read s.mem s.pc).1 with
  | error e =>
    rw [fetchDecode_illegal fetched decoded, fetchDecode_illegal fetchedVisible decoded]
    exact congrArg FrontOutcome.trapped (takeTrap_congr after .illegalInstruction _)
  | ok i =>
    rw [fetchDecode_legal fetched decoded, fetchDecode_legal fetchedVisible decoded]
    exact congrArg (FrontOutcome.execute i) after

theorem fetchDecode_visible (s : State) : (fetchDecode s.visible).visible = (fetchDecode s).visible := by
  by_cases aligned : s.pc.toNat % 4 = 0
  case neg =>
    rw [fetchDecode_fetchError (fetch_misaligned aligned),
      fetchDecode_fetchError (fetch_misaligned (s := s.visible) aligned)]
    rfl
  case pos =>
    cases ram : inRam s.cfg s.pc.toNat 4 with
    | false =>
      rw [fetchDecode_fetchError (fetch_outsideRam aligned ram),
        fetchDecode_fetchError (fetch_outsideRam (s := s.visible) aligned ram)]
      rfl
    | true => exact fetchDecode_visible_of_fetchable ⟨aligned, ram⟩

theorem checkAndFetch_visible (s : State) : (checkAndFetch s.visible).visible = (checkAndFetch s).visible := by
  have pending : interruptPending s.visible.csr = interruptPending s.csr := rfl
  rw [checkAndFetch, checkAndFetch, pending]
  split
  · rfl
  · exact fetchDecode_visible s

/-- mip and the timer do not depend on the terminal output. -/
theorem beginCycle_visible (s : State) : (beginCycle s.visible).visible = (beginCycle s).visible := rfl

/-- The answer of a step whose front had the outcome. -/
def FrontOutcome.answer : FrontOutcome → Result
  | .halted => .fault .halted
  | .refused r => .refused r.toRefusal
  | .trapped t => .next t
  | .execute i t => exec i t

theorem FrontOutcome.answer_visible (o : FrontOutcome) : visibleAnswer o.visible.answer = visibleAnswer o.answer := by
  cases o with
  | execute i s => exact exec_visible i s
  | _ => rfl

theorem step_of_ready {s : State} (h : Ready s) : step s = (checkAndFetch (beginCycle s)).answer := by
  obtain ⟨running, accepted, valid⟩ := h
  have front : frontEnd s = checkAndFetch (beginCycle s) := by simp [frontEnd, running, accepted, valid]
  rw [step, front]
  rfl

theorem step_visible_of_ready {s : State} (h : Ready s) : visibleAnswer (step s.visible) = visibleAnswer (step s) := by
  have front : (checkAndFetch (beginCycle s.visible)).visible = (checkAndFetch (beginCycle s)).visible :=
    eq_of_visible_eq (f := fun s => (checkAndFetch s).visible) checkAndFetch_visible (beginCycle_visible s)
  rw [step_of_ready h, step_of_ready (s := s.visible) h, ← FrontOutcome.answer_visible, front,
    FrontOutcome.answer_visible]

/-- A step gives the same visible part from a state as from its visible part alone, or stops alike. -/
theorem step_visible (s : State) : visibleAnswer (step s.visible) = visibleAnswer (step s) := by
  cases running : s.run with
  | false => rw [step_halted running, step_halted (s := s.visible) running]
  | true =>
    cases refused : s.refused with
    | some r => rw [step_refused running refused, step_refused (s := s.visible) running refused]
    | none =>
      cases valid : configValid s.cfg with
      | false =>
        rw [step_badConfiguration running refused valid,
          step_badConfiguration (s := s.visible) running refused valid]
      | true => exact step_visible_of_ready ⟨running, refused, valid⟩

/-- Settles O56: a step is the same seen from a state and from its visible part, which the two states share. -/
theorem countersAreInvisible : Obligations.CountersAreInvisible := by
  intro s t h
  rw [sameVisible_iff]
  exact eq_of_visible_eq (f := fun s => visibleAnswer (step s)) step_visible h

end Sys2Proof.Machine
end

section
/-! PROOF. Interrupts by priority, precise traps, and the trap loop of an unfetchable handler (spec/60_exceptions.md). -/

namespace Sys2Proof.Machine

/-! ### Interrupts (spec/60_exceptions.md R383 to R385) -/

/-- The step of a ready state with an interrupt to take is the entry of that interrupt, before any fetch. -/
theorem step_interrupt {s : State} (h : Ready s) (pending : interruptPending (beginCycle s).csr = true) :
    step s = .next (takeInterrupt (beginCycle s)) := by
  rw [step_of_ready h, checkAndFetch, if_pos pending]
  rfl

theorem interruptPending_iff (c : CsrFile) :
    interruptPending c = true ↔ c.mstatus.getLsbD 3 = true ∧ c.mip &&& c.mie ≠ 0#32 := by
  simp [interruptPending, statusMie]

theorem selectInterrupt_isInterrupt (p : Word) : (selectInterrupt p).isInterrupt = true := by
  unfold selectInterrupt
  split_ifs <;> rfl

/-- The codes of the three interrupts in the order of their priority (own choice D8). -/
theorem selectInterrupt_code (p : Word) :
    (selectInterrupt p).code.toNat = if p.getLsbD 11 then 11 else if p.getLsbD 7 then 7 else 3 := by
  unfold selectInterrupt
  split_ifs <;> rfl

/-- mcause of an interrupt is its code with bit 31 set. -/
theorem Cause.mcause_of_isInterrupt {c : Cause} (h : c.isInterrupt = true) :
    c.mcause = BitVec.ofNat 32 (2 ^ 31 + c.code.toNat) := by
  cases c with
  | softwareInterrupt | timerInterrupt | externalInterrupt => rfl
  | _ => cases h

/-- Settles O36: the step is the trap entry of the selected interrupt in the state that the cycle's start left. -/
theorem interruptsAreTakenByPriority : Obligations.InterruptsAreTakenByPriority := by
  intro s ready enabled p code pending
  have entered := takeTrap_entered (selectInterrupt p) 0#32 (beginCycle s)
  rw [Cause.mcause_of_isInterrupt (selectInterrupt_isInterrupt p), selectInterrupt_code] at entered
  exact ⟨_, step_interrupt ready ((interruptPending_iff _).mpr ⟨enabled, pending⟩), entered⟩

/-! ### Precise traps (spec/60_exceptions.md R373, R385, R397) -/

theorem Cause.trapClass_eq_interrupt_iff (c : Cause) : c.trapClass = .interrupt ↔ c.isInterrupt = true := by
  cases c <;> decide

theorem fetch_error_isInterrupt {s : State} {c : Cause} (h : fetch s = .error c) : c.isInterrupt = false := by
  obtain ⟨-, rfl⟩ | ⟨-, -, rfl⟩ := fetch_error h <;> rfl

/-- `t` is one trap entry in the state that the cycle's start and possibly the fetch of `s` left. -/
def EntersOneTrap (s t : State) : Prop :=
  ∃ r : TrapRecord, t.traps = s.traps ++ [r] ∧ t.run = true
    ∧ TrapEntered { beginCycle s with icache := t.icache } t r.cause r.tval
        (handlerAddress s.csr.mtvec (r.cause.toNat % 2 ^ 31))
    ∧ (t.icache = s.icache ∨ Fetchable s ∧ t.icache = (s.icache.read s.mem s.pc).2)
    ∧ (r.cls = .interrupt →
      s.csr.mstatus.getLsbD 3 = true ∧ (beginCycle s).csr.mip &&& s.csr.mie ≠ 0#32 ∧ t.icache = s.icache)

/-- Taking a trap after the start of a cycle and possibly its fetch enters one trap. -/
theorem takeTrap_entersOneTrap {s : State} {c : Cause} {ic : Cache} (tval : Word) (running : s.run = true)
    (fetched : ic = s.icache ∨ Fetchable s ∧ ic = (s.icache.read s.mem s.pc).2)
    (interrupt : c.isInterrupt = true →
      s.csr.mstatus.getLsbD 3 = true ∧ (beginCycle s).csr.mip &&& s.csr.mie ≠ 0#32 ∧ ic = s.icache) :
    EntersOneTrap s (takeTrap c tval { beginCycle s with icache := ic }) := by
  have entered := takeTrap_entered c tval { beginCycle s with icache := ic }
  rw [← mcause_code] at entered
  exact ⟨_, rfl, running, entered, fetched, fun cls => interrupt (c.trapClass_eq_interrupt_iff.mp cls)⟩

/-- An exception asks nothing of the interrupt bits. -/
theorem exception_entersOneTrap {s : State} {c : Cause} {ic : Cache} (tval : Word) (running : s.run = true)
    (fetched : ic = s.icache ∨ Fetchable s ∧ ic = (s.icache.read s.mem s.pc).2) (exception : c.isInterrupt = false) :
    EntersOneTrap s (takeTrap c tval { beginCycle s with icache := ic }) :=
  takeTrap_entersOneTrap tval running fetched fun h => absurd (h.symm.trans exception) (by decide)

/-- Settles O39, along the ways a cycle can end: every one but a completed instruction is one trap entry. -/
theorem trapsArePrecise : Obligations.TrapsArePrecise := by
  intro s t hs
  obtain ⟨⟨running, -, -⟩, ending⟩ := step_cases hs
  obtain ⟨pending, rfl⟩ | ⟨-, c, hf, rfl⟩ | ⟨-, w, u, e, hf, -, rfl⟩ | ⟨-, w, u, i, hf, -, he⟩ := ending
  · obtain ⟨enabled, requested⟩ := (interruptPending_iff _).mp pending
    exact .inr (takeTrap_entersOneTrap 0#32 running (.inl rfl) fun _ => ⟨enabled, requested, rfl⟩)
  · exact .inr (exception_entersOneTrap s.pc running (.inl rfl) (fetch_error_isInterrupt hf))
  · have fetchable : Fetchable s := fetchable_of_fetch (s := beginCycle s) hf
    obtain ⟨-, -, -, rfl⟩ := fetch_ok hf
    exact .inr (exception_entersOneTrap w running (.inr ⟨fetchable, rfl⟩) rfl)
  · have fetchable : Fetchable s := fetchable_of_fetch (s := beginCycle s) hf
    obtain ⟨-, -, -, rfl⟩ := fetch_ok hf
    obtain ⟨c, tval, rfl, exception⟩ | ⟨traps, instret, -⟩ := exec_traps_or_completes he
    · exact .inr (exception_entersOneTrap tval running (.inr ⟨fetchable, rfl⟩) exception)
    · exact .inl ⟨traps, instret⟩

/-! ### The trap loop of an unfetchable handler (spec/60_exceptions.md R395) -/

/-- In direct mode every code has the handler address mtvec with bits 1:0 cleared (own choice D14). -/
theorem handlerAddress_direct {m : Word} (direct : m.getLsbD 0 = false) (code : Nat) :
    handlerAddress m code = m &&& 0xFFFFFFFC#32 := by
  rw [handlerAddress, direct, if_neg (by decide), Nat.add_zero, and_mtvecBase]

theorem mtvecBase_aligned (m : Word) : (m &&& 0xFFFFFFFC#32).toNat % 4 = 0 := by
  rw [and_mtvecBase, BitVec.toNat_ofNat]
  omega

theorem noInterrupt_of_disabled {s : State} (h : s.csr.mstatus.getLsbD 3 = false) : NoInterrupt s := by
  refine Bool.eq_false_iff.mpr fun pending => ?_
  obtain ⟨enabled, -⟩ := (interruptPending_iff _).mp pending
  exact absurd (enabled.symm.trans h) (by decide)

/-- A trap entry keeps the machine ready. -/
theorem TrapEntered.ready {s t : State} {cause tval target : Word} (h : TrapEntered s t cause tval target)
    (ready : Ready s) : Ready t := by
  obtain ⟨-, -, -, -, -, -, -, -, -, -, -, -, -, -, -, run, refused, cfg, -⟩ := h
  obtain ⟨running, accepted, valid⟩ := ready
  exact ⟨run.trans running, refused.trans accepted, cfg ▸ valid⟩

/-- Settles O41: the fetch at the handler address faults, and the entry of that fault leads to the same address with
interrupts off. -/
theorem unfetchableHandlerLoops : Obligations.UnfetchableHandlerLoops := by
  rintro s ⟨ready, direct, disabled, hpc, outside⟩
  have aligned : s.pc.toNat % 4 = 0 := hpc ▸ mtvecBase_aligned _
  obtain ⟨t, hstep, entered⟩ :=
    step_fetchError ready (noInterrupt_of_disabled disabled) (fetch_outsideRam (s := beginCycle s) aligned outside)
  rw [handlerAddress_direct direct, ← hpc] at entered
  have readyAfter : Ready t := entered.ready ready
  obtain ⟨pc, mepc, mcause, mtval, mstatus, -, mtvec, -, ⟨r, traps, -⟩, instret, -, -, -, -, -, -, -, cfg, -⟩ := entered
  have loops : InTrapLoop t := by
    refine ⟨readyAfter, mtvec ▸ direct, mstatus 3 (by decide), ?_, ?_⟩
    · rw [pc, mtvec]
      exact hpc
    · rw [pc, cfg]
      exact outside
  have oneMore : t.traps.length = s.traps.length + 1 := by
    rw [traps]
    exact List.length_append
  exact ⟨t, hstep, loops, pc, mepc, mtval, mcause, mtvec, oneMore, instret⟩

end Sys2Proof.Machine
end

section
/-! PROOF. Decoder and encoder: each undoes the other, the decoder accepts the rows of the opcode table and nothing else. -/

namespace Sys2Proof

/-! ### Decoding an encoded instruction (spec/30_encoding.md R160 to R164) -/

/-- Settles O47, by format and opcode: the fields of the encoded word are the operands, where the offset of a branch or jump
is even, and opcode, funct3 and funct7 lead back to the instruction. -/
theorem decodeUndoesEncode : Obligations.DecodeUndoesEncode := by
  intro i wf
  cases i with
  | addi | slti | sltiu | xori | ori | andi | slli | srli | srai => simp [encode, decodeWord, decodeOpImm]
  | add | sll | slt | sltu | xor | srl | or | and => simp [encode, decodeWord, decodeOp, decodeOpBase]
  | sub | sra => simp [encode, decodeWord, decodeOp, decodeOpAlt]
  | mul | mulh | mulhsu | mulhu | div | divu | rem | remu => simp [encode, decodeWord, decodeOp, decodeOpM]
  | lb | lh | lw | lbu | lhu => simp [encode, decodeWord, decodeLoad]
  | sb | sh | sw => simp [encode, decodeWord, decodeStore]
  | beq | bne | blt | bge | bltu | bgeu =>
    simp [encode, decodeWord, decodeBranch, Field.immB_encodeB _ _ _ _ _ wf]
  | jal => simp [encode, decodeWord, Field.immJ_encodeJ _ _ _ wf]
  | jalr => simp [encode, decodeWord, decodeJalr]
  | lui | auipc => simp [encode, decodeWord]
  | ecall | ebreak | mret => rfl
  | csrrw | csrrs | csrrc | csrrwi | csrrsi | csrrci => simp [encode, decodeWord, decodeSystem]

/-! ### Encoding a decoded word -/

section
variable {w : Word} {f7 op : BitVec 7} {f3 : BitVec 3} (hop : Field.opcode w = op) (h3 : Field.funct3 w = f3)
include hop h3

theorem encodeR_of_fields (h7 : Field.funct7 w = f7) :
    encodeR f7 (Field.rs2 w) (Field.rs1 w) f3 (Field.rd w) op = w := by
  rw [← hop, ← h3, ← h7, encodeR_fields]

theorem encodeI_of_fields : encodeI (Field.immI w) (Field.rs1 w) f3 (Field.rd w) op = w := by
  rw [← hop, ← h3, encodeI_fields]

theorem encodeS_of_fields : encodeS (Field.immS w) (Field.rs2 w) (Field.rs1 w) f3 op = w := by
  rw [← hop, ← h3, encodeS_fields]

theorem encodeB_of_fields : encodeB (Field.immB w) (Field.rs2 w) (Field.rs1 w) f3 op = w := by
  rw [← hop, ← h3, encodeB_fields]

end

theorem encodeU_of_fields {w : Word} {op : BitVec 7} (hop : Field.opcode w = op) :
    encodeU (Field.immU w) (Field.rd w) op = w := by
  rw [← hop, encodeU_fields]

theorem encodeJ_of_fields {w : Word} {op : BitVec 7} (hop : Field.opcode w = op) :
    encodeJ (Field.immJ w) (Field.rd w) op = w := by
  rw [← hop, encodeJ_fields]

/-- `i` stands for the word `w` and has an encoding. -/
def Instr.Encodes (i : Instr) (w : Word) : Prop := encode i = w ∧ i.wellFormed = true

/-- The funct3 that a dispatch with seven arms leaves to its default. -/
theorem funct3_eq_seven : ∀ x : BitVec 3, x ≠ 0#3 → x ≠ 1#3 → x ≠ 2#3 → x ≠ 3#3 → x ≠ 4#3 → x ≠ 5#3 → x ≠ 6#3 → x = 7#3 := by
  intros
  bv_omega

/-- The funct3 that OP-IMM's dispatch leaves to its default. -/
theorem funct3_eq_five : ∀ x : BitVec 3, x ≠ 0#3 → x ≠ 2#3 → x ≠ 3#3 → x ≠ 4#3 → x ≠ 6#3 → x ≠ 7#3 → x ≠ 1#3 → x = 5#3 := by
  intros
  bv_omega

theorem encodes_of_decodeLoad {w : Word} {i : Instr} (hop : Field.opcode w = 0b0000011#7) (h : decodeLoad w = .ok i) :
    i.Encodes w := by
  unfold decodeLoad at h
  split at h
  case h_6 => cases h
  all_goals
    rename_i h3
    cases h
    exact ⟨encodeI_of_fields hop h3, rfl⟩

theorem encodes_of_decodeOpImm {w : Word} {i : Instr} (hop : Field.opcode w = 0b0010011#7)
    (h : decodeOpImm w = .ok i) : i.Encodes w := by
  unfold decodeOpImm at h
  split at h
  case h_7 h3 =>
    split at h
    case h_1 h7 =>
      cases h
      exact ⟨encodeR_of_fields hop h3 h7, rfl⟩
    case h_2 => cases h
  case h_8 n0 n2 n3 n4 n6 n7 n1 =>
    have h3 := funct3_eq_five _ n0 n2 n3 n4 n6 n7 n1
    split at h
    case h_3 => cases h
    all_goals
      rename_i h7
      cases h
      exact ⟨encodeR_of_fields hop h3 h7, rfl⟩
  all_goals
    rename_i h3
    cases h
    exact ⟨encodeI_of_fields hop h3, rfl⟩

theorem encodes_of_decodeStore {w : Word} {i : Instr} (hop : Field.opcode w = 0b0100011#7)
    (h : decodeStore w = .ok i) : i.Encodes w := by
  unfold decodeStore at h
  split at h
  case h_4 => cases h
  all_goals
    rename_i h3
    cases h
    exact ⟨encodeS_of_fields hop h3, rfl⟩

theorem encodes_decodeOpBase {w : Word} (hop : Field.opcode w = 0b0110011#7) (h7 : Field.funct7 w = 0b0000000#7) :
    (decodeOpBase w).Encodes w := by
  unfold decodeOpBase
  split
  case h_8 n0 n1 n2 n3 n4 n5 n6 =>
    exact ⟨encodeR_of_fields hop (funct3_eq_seven _ n0 n1 n2 n3 n4 n5 n6) h7, rfl⟩
  all_goals
    rename_i h3
    exact ⟨encodeR_of_fields hop h3 h7, rfl⟩

theorem encodes_decodeOpM {w : Word} (hop : Field.opcode w = 0b0110011#7) (h7 : Field.funct7 w = 0b0000001#7) :
    (decodeOpM w).Encodes w := by
  unfold decodeOpM
  split
  case h_8 n0 n1 n2 n3 n4 n5 n6 =>
    exact ⟨encodeR_of_fields hop (funct3_eq_seven _ n0 n1 n2 n3 n4 n5 n6) h7, rfl⟩
  all_goals
    rename_i h3
    exact ⟨encodeR_of_fields hop h3 h7, rfl⟩

theorem encodes_of_decodeOpAlt {w : Word} {i : Instr} (hop : Field.opcode w = 0b0110011#7)
    (h7 : Field.funct7 w = 0b0100000#7) (h : decodeOpAlt w = .ok i) : i.Encodes w := by
  unfold decodeOpAlt at h
  split at h
  case h_3 => cases h
  all_goals
    rename_i h3
    cases h
    exact ⟨encodeR_of_fields hop h3 h7, rfl⟩

theorem encodes_of_decodeOp {w : Word} {i : Instr} (hop : Field.opcode w = 0b0110011#7) (h : decodeOp w = .ok i) :
    i.Encodes w := by
  unfold decodeOp at h
  split at h
  case h_1 h7 =>
    cases h
    exact encodes_decodeOpBase hop h7
  case h_2 h7 =>
    cases h
    exact encodes_decodeOpM hop h7
  case h_3 h7 => exact encodes_of_decodeOpAlt hop h7 h
  case h_4 => cases h

theorem encodes_of_decodeBranch {w : Word} {i : Instr} (hop : Field.opcode w = 0b1100011#7)
    (h : decodeBranch w = .ok i) : i.Encodes w := by
  unfold decodeBranch at h
  split at h
  case h_7 => cases h
  all_goals
    rename_i h3
    cases h
    exact ⟨encodeB_of_fields hop h3, evenOffset_immB w⟩

theorem encodes_of_decodeJalr {w : Word} {i : Instr} (hop : Field.opcode w = 0b1100111#7) (h : decodeJalr w = .ok i) :
    i.Encodes w := by
  unfold decodeJalr at h
  split at h
  case h_1 h3 =>
    cases h
    exact ⟨encodeI_of_fields hop h3, rfl⟩
  case h_2 => cases h

theorem encodes_of_decodeSystemWord {w : Word} {i : Instr} (h : decodeSystemWord w = .ok i) : i.Encodes w := by
  unfold decodeSystemWord at h
  split at h
  case h_4 => cases h
  all_goals
    cases h
    exact ⟨rfl, rfl⟩

theorem encodes_of_decodeSystem {w : Word} {i : Instr} (hop : Field.opcode w = 0b1110011#7)
    (h : decodeSystem w = .ok i) : i.Encodes w := by
  unfold decodeSystem at h
  split at h
  case h_1 => exact encodes_of_decodeSystemWord h
  case h_8 => cases h
  all_goals
    rename_i h3
    cases h
    exact ⟨encodeI_of_fields hop h3, rfl⟩

/-- Settles O48, opcode by opcode: the instruction holds every field of the word that the dispatch did not fix. -/
theorem encodeUndoesDecode : Obligations.EncodeUndoesDecode := by
  intro w i h
  unfold decodeWord at h
  split at h
  case h_1 hop => exact encodes_of_decodeLoad hop h
  case h_2 hop => exact encodes_of_decodeOpImm hop h
  case h_3 hop | h_6 hop =>
    cases h
    exact ⟨encodeU_of_fields hop, rfl⟩
  case h_4 hop => exact encodes_of_decodeStore hop h
  case h_5 hop => exact encodes_of_decodeOp hop h
  case h_7 hop => exact encodes_of_decodeBranch hop h
  case h_8 hop => exact encodes_of_decodeJalr hop h
  case h_9 hop =>
    cases h
    exact ⟨encodeJ_of_fields hop, evenOffset_immJ w⟩
  case h_10 hop => exact encodes_of_decodeSystem hop h
  case h_11 => cases h

/-! ### The decoder and the opcode table (spec/opcode_table.json) -/

/-- The word of every instruction lies in the instruction's own row. -/
theorem encode_masked (i : Instr) : encode i &&& i.row.1 = i.row.2 := by
  cases i with
  | addi | slti | sltiu | xori | ori | andi | lb | lh | lw | lbu | lhu | jalr => exact Laws.TableRow.maskedI ..
  | csrrw | csrrs | csrrc | csrrwi | csrrsi | csrrci => exact Laws.TableRow.maskedI ..
  | sb | sh | sw => exact Laws.TableRow.maskedS ..
  | beq | bne | blt | bge | bltu | bgeu => exact Laws.TableRow.maskedB ..
  | jal => exact Laws.TableRow.maskedJ ..
  | lui | auipc => exact Laws.TableRow.maskedU ..
  | ecall => exact Laws.TableRow.ecall
  | ebreak => exact Laws.TableRow.ebreak
  | mret => exact Laws.TableRow.mret
  | _ => exact Laws.TableRow.maskedR ..

theorem Instr.row_mem_opcodeRows (i : Instr) : i.row ∈ opcodeRows := by
  cases i <;> simp [Instr.row, opcodeRows]

/-- A row fixes the bits of opcode, funct3 and funct7 that its mask covers. -/
theorem fields_of_masked {w mask m : Word} (h : w &&& mask = m) :
    Field.opcode w &&& Field.opcode mask = Field.opcode m
    ∧ Field.funct3 w &&& Field.funct3 mask = Field.funct3 m
    ∧ Field.funct7 w &&& Field.funct7 mask = Field.funct7 m := by
  subst h
  simp only [Field.opcode, Field.funct3, Field.funct7, BitVec.extractLsb'_and, and_self]

/-- A word in some row is accepted: each row's mask covers every field that the dispatch to its instruction looks at, and
the whole word for ECALL, EBREAK and MRET. -/
theorem decodeWord_of_row {w : Word} {row : Word × Word} (hrow : row ∈ opcodeRows) (h : w &&& row.1 = row.2) :
    ∃ i, decodeWord w = .ok i := by
  have covers7 : ∀ x : BitVec 7, x &&& 0x7F#7 = x := fun _ => BitVec.and_allOnes
  have covers3 : ∀ x : BitVec 3, x &&& 0x7#3 = x := fun _ => BitVec.and_allOnes
  have covers32 : ∀ x : Word, x &&& 0xFFFFFFFF#32 = x := fun _ => BitVec.and_allOnes
  fin_cases hrow
  all_goals
    obtain ⟨hop, h3, h7⟩ := fields_of_masked h
    simp only [Field.opcode, Field.funct3, Field.funct7, BitVec.reduceExtractLsb', covers7, covers3, covers32,
      BitVec.and_zero] at h hop h3 h7
    simp [decodeWord, decodeLoad, decodeOpImm, decodeStore, decodeOp, decodeOpBase, decodeOpM, decodeOpAlt, decodeBranch,
      decodeJalr, decodeSystem, decodeSystemWord, Field.opcode, Field.funct3, Field.funct7, hop, h3, h7, h]

/-- Some bit that both masks cover has to be 0 for one row and 1 for the other. -/
def RowsDisagree (r q : Word × Word) : Prop := r.1 &&& q.1 &&& (r.2 ^^^ q.2) ≠ 0#32

theorem opcodeRows_disagree : opcodeRows.Pairwise RowsDisagree := by
  unfold RowsDisagree
  decide

theorem RowsDisagree.not_both {r q : Word × Word} (h : RowsDisagree r q) {w : Word} (hr : w &&& r.1 = r.2)
    (hq : w &&& q.1 = q.2) : False := by
  refine h (BitVec.eq_of_getLsbD_eq fun i _ => ?_)
  rw [← hr, ← hq]
  simp only [BitVec.getLsbD_and, BitVec.getLsbD_xor, BitVec.getLsbD_zero]
  cases r.1.getLsbD i <;> cases q.1.getLsbD i <;> simp

/-- Of elements that pairwise exclude each other at most one passes a test. -/
theorem length_filter_le_one {α : Type} {R : α → α → Prop} {p : α → Bool} {l : List α} (pairwise : l.Pairwise R)
    (excl : ∀ a b, R a b → p a = true → p b = true → False) : (l.filter p).length ≤ 1 := by
  match hl : l.filter p with
  | [] => exact Nat.zero_le _
  | [_] => exact le_rfl
  | a :: b :: rest =>
    have passes : ∀ x ∈ l.filter p, p x = true := fun x hx => (List.mem_filter.mp hx).2
    have apart : R a b := by
      have := pairwise.filter p
      rw [hl] at this
      exact (List.pairwise_cons.mp this).1 b (by simp)
    exact (excl a b apart (passes a (by simp [hl])) (passes b (by simp [hl]))).elim

/-- Settles O49: a decoded word is the encoding of its instruction and so in that one's row, a word in a row is accepted,
and two rows disagree on a bit that both masks cover. -/
theorem decoderAcceptsExactlyTheTable : Obligations.DecoderAcceptsExactlyTheTable := by
  refine ⟨fun w => ⟨?accepted, ?inRow⟩, fun w => ?atMostOne⟩
  case accepted =>
    rintro ⟨i, hi⟩
    obtain ⟨word, -⟩ := encodeUndoesDecode w i hi
    exact ⟨i.row, i.row_mem_opcodeRows, word ▸ encode_masked i⟩
  case inRow =>
    rintro ⟨row, hrow, h⟩
    exact decodeWord_of_row hrow h
  case atMostOne =>
    exact length_filter_le_one opcodeRows_disagree fun r q disagree hr hq =>
      disagree.not_both (by simpa using hr) (by simpa using hq)

end Sys2Proof
end

section
/-! PROOF. The S, B, U and J immediates bit by bit, the range of branch and jump offsets, and the addresses that wrap modulo 2^32. -/

namespace Sys2Proof.Machine

/-! ### The bits of an immediate (spec/30_encoding.md R155 to R158) -/

/-- Above an immediate, sign extension repeats its last bit. -/
theorem getLsbD_signExtend_word {k : Nat} (x : BitVec k) {i : Nat} (hi : i < 32) :
    (x.signExtend 32).getLsbD i = if i < k then x.getLsbD i else x.getLsbD (k - 1) := by
  rw [BitVec.getLsbD_signExtend, BitVec.msb_eq_getLsbD_last, decide_eq_true hi, Bool.true_and]

theorem getLsbD_immS (w : Word) {i : Nat} (hi : i < 12) :
    (Field.immS w).getLsbD i = if i < 5 then w.getLsbD (i + 7) else w.getLsbD (i + 20) := by
  show (w.extractLsb' 25 7 ++ w.extractLsb' 7 5).getLsbD i = _
  simp only [BitVec.getLsbD_append, BitVec.getLsbD_extractLsb']
  interval_cases i <;> simp

theorem getLsbD_immB (w : Word) {i : Nat} (hi : i < 13) :
    (Field.immB w).getLsbD i = if i = 0 then false else if i < 5 then w.getLsbD (i + 7) else
      if i < 11 then w.getLsbD (i + 20) else if i = 11 then w.getLsbD 7 else w.getLsbD 31 := by
  show (w.extractLsb' 31 1 ++ w.extractLsb' 7 1 ++ w.extractLsb' 25 6 ++ w.extractLsb' 8 4 ++ 0#1).getLsbD i = _
  simp only [BitVec.getLsbD_append, BitVec.getLsbD_extractLsb', BitVec.getLsbD_zero]
  interval_cases i <;> simp

theorem getLsbD_immJ (w : Word) {i : Nat} (hi : i < 21) :
    (Field.immJ w).getLsbD i = if i = 0 then false else if i < 11 then w.getLsbD (i + 20) else
      if i = 11 then w.getLsbD 20 else if i < 20 then w.getLsbD i else w.getLsbD 31 := by
  show (w.extractLsb' 31 1 ++ w.extractLsb' 12 8 ++ w.extractLsb' 20 1 ++ w.extractLsb' 21 10 ++ 0#1).getLsbD i = _
  simp only [BitVec.getLsbD_append, BitVec.getLsbD_extractLsb', BitVec.getLsbD_zero]
  interval_cases i <;> simp

theorem getLsbD_sext12_immS (w : Word) {i : Nat} (hi : i < 32) :
    (sext12 (Field.immS w)).getLsbD i =
      if i < 5 then w.getLsbD (i + 7) else if i < 12 then w.getLsbD (i + 20) else w.getLsbD 31 := by
  rw [sext12, getLsbD_signExtend_word _ hi]
  split
  case isTrue low => rw [getLsbD_immS w low]
  case isFalse high =>
    rw [getLsbD_immS w (i := 11) (by decide)]
    simp [show ¬ i < 5 by omega]

theorem getLsbD_sext13_immB (w : Word) {i : Nat} (hi : i < 32) :
    (sext13 (Field.immB w)).getLsbD i = if i = 0 then false else if i < 5 then w.getLsbD (i + 7) else
      if i < 11 then w.getLsbD (i + 20) else if i = 11 then w.getLsbD 7 else w.getLsbD 31 := by
  rw [sext13, getLsbD_signExtend_word _ hi]
  split
  case isTrue low => rw [getLsbD_immB w low]
  case isFalse high =>
    rw [getLsbD_immB w (i := 12) (by decide)]
    simp [show ¬ i = 0 by omega, show ¬ i < 5 by omega, show ¬ i < 11 by omega, show ¬ i = 11 by omega]

theorem getLsbD_upperImm_immU (w : Word) {i : Nat} (hi : i < 32) :
    (upperImm (Field.immU w)).getLsbD i = if i < 12 then false else w.getLsbD i := by
  rw [upperImm, BitVec.getLsbD_append, BitVec.getLsbD_zero]
  by_cases low : i < 12
  · simp [low]
  · simp [low, Field.immU, show i - 12 < 20 by omega, show 12 + (i - 12) = i by omega]

theorem getLsbD_sext21_immJ (w : Word) {i : Nat} (hi : i < 32) :
    (sext21 (Field.immJ w)).getLsbD i = if i = 0 then false else if i < 11 then w.getLsbD (i + 20) else
      if i = 11 then w.getLsbD 20 else if i < 20 then w.getLsbD i else w.getLsbD 31 := by
  rw [sext21, getLsbD_signExtend_word _ hi]
  split
  case isTrue low => rw [getLsbD_immJ w low]
  case isFalse high =>
    rw [getLsbD_immJ w (i := 20) (by decide)]
    simp [show ¬ i = 0 by omega, show ¬ i < 11 by omega, show ¬ i = 11 by omega, show ¬ i < 20 by omega]

/-! ### The values of an offset (spec/30_encoding.md R156, R158) -/

/-- Bit 0 alone decides whether a signed value is even. -/
theorem toInt_mod_two_of_evenOffset {k : Nat} {x : BitVec (k + 1)} (even : evenOffset x = true) : x.toInt % 2 = 0 := by
  have low : x.toNat % 2 = 0 := by
    simpa [evenOffset, BitVec.getLsbD, Nat.testBit_zero] using even
  rw [BitVec.toInt_eq_toNat_cond, Nat.pow_succ]
  split <;> omega

theorem toInt_sext13 (x : BitVec 13) : (sext13 x).toInt = x.toInt := BitVec.toInt_signExtend_of_le (by decide)

theorem toInt_sext21 (x : BitVec 21) : (sext21 x).toInt = x.toInt := BitVec.toInt_signExtend_of_le (by decide)

/-- Settles O45: the bits field by field, and the range of an even number of 13 or of 21 bits. -/
theorem immediatesBitByBit : Obligations.ImmediatesBitByBit := by
  intro w
  have evenB := toInt_mod_two_of_evenOffset (evenOffset_immB w)
  have evenJ := toInt_mod_two_of_evenOffset (evenOffset_immJ w)
  have lowB := (Field.immB w).le_toInt
  have highB := (Field.immB w).toInt_lt
  have lowJ := (Field.immJ w).le_toInt
  have highJ := (Field.immJ w).toInt_lt
  rw [toInt_sext13, toInt_sext21]
  exact ⟨fun _ => getLsbD_sext12_immS w, fun _ => getLsbD_sext13_immB w, fun _ => getLsbD_upperImm_immU w,
    fun _ => getLsbD_sext21_immJ w, evenB, by omega, by omega, evenJ, by omega, by omega⟩

/-! ### Addresses and targets (spec/42_loadstore.md R260, spec/43_branch.md R290, spec/44_jump.md R310 to R312) -/

/-- Clearing bit 0 rounds the exact value down to an even number. -/
theorem clearBitZero_ofInt (z : Int) : BitVec.ofInt 32 z &&& 0xFFFFFFFE#32 = BitVec.ofInt 32 (z / 2 * 2) := by
  have shifts (a : Word) : a &&& 0xFFFFFFFE#32 = (a >>> 1) <<< 1 := by
    apply BitVec.eq_of_getLsbD_eq
    intro i hi
    interval_cases i <;> simp
  apply BitVec.eq_of_toNat_eq
  rw [shifts]
  simp only [BitVec.toNat_shiftLeft, BitVec.toNat_ushiftRight, BitVec.toNat_ofInt, Nat.shiftRight_eq_div_pow,
    Nat.shiftLeft_eq]
  omega

/-- Settles O11: each sum with a sign-extended immediate is the exact one modulo 2^32, and JALR rounds it down. -/
theorem addressesWrap : Obligations.AddressesWrap := by
  intro s rs1 imm off far
  have jalr : jalrTarget s rs1 imm = BitVec.ofInt 32 (((s.reg rs1).toNat + imm.toInt) / 2 * 2) := by
    rw [← clearBitZero_ofInt, ← add_signExtend_eq]
    rfl
  have link : linkAddress s = BitVec.ofNat 32 (s.pc.toNat + 4) := by
    rw [BitVec.ofNat_add, BitVec.ofNat_toNat, BitVec.setWidth_eq, linkAddress]
  exact ⟨add_signExtend_eq _ imm, add_signExtend_eq _ off, add_signExtend_eq _ far, jalr, link⟩

end Sys2Proof.Machine
end

section
/-! PROOF. Power-on loads the image over the draw (spec/70_reset_and_hazards.md R450, R452). -/

namespace Sys2Proof.Machine

/-! ### Loading bytes from outside -/

/-- The last byte that `cells` lists for the address `a` (own choice D42). -/
def lastByte (cells : List Host.Cell) (a : Nat) : Option Byte :=
  (cells.reverse.find? fun c => decide (c.1 = a)).map Prod.snd

theorem lastByte_cons (c : Host.Cell) (cells : List Host.Cell) (a : Nat) :
    lastByte (c :: cells) a = (lastByte cells a).or (if a = c.1 then some c.2 else none) := by
  rw [lastByte, List.reverse_cons, List.find?_append, Option.map_or, lastByte, List.find?_singleton]
  by_cases same : a = c.1
  · simp [same]
  · simp [same, Ne.symm same]

theorem lastByte_of_find {cells : List Host.Cell} {a : Nat} {x : Host.Cell}
    (h : cells.reverse.find? (fun c => decide (c.1 = a)) = some x) : lastByte cells a = some x.2 := by
  rw [lastByte, h, Option.map_some]

theorem lastByte_of_unlisted {cells : List Host.Cell} {a : Nat} (h : ∀ c ∈ cells, c.1 ≠ a) : lastByte cells a = none := by
  simpa [lastByte] using fun x y hxy => h (x, y) hxy

/-- Dropping the cells of other addresses does not change the last byte for an address that is kept. -/
theorem lastByte_filter {p : Nat → Bool} {a : Nat} (kept : p a = true) (cells : List Host.Cell) :
    lastByte (cells.filter fun c => p c.1) a = lastByte cells a := by
  have same : (fun c : Host.Cell => decide (p c.1 = true ∧ decide (c.1 = a) = true)) = fun c => decide (c.1 = a) := by
    funext c
    by_cases h : c.1 = a <;> simp [h, kept]
  rw [lastByte, ← List.filter_reverse, List.find?_filter, same, lastByte]

/-- After a load an address reads the last byte given for it, or what memory held. -/
theorem Memory.read_loadBytes (cells : List Host.Cell) (m : Memory) (a : Nat) :
    Memory.read (loadBytes cells m) a = (lastByte cells a).getD (Memory.read m a) := by
  induction cells generalizing m with
  | nil => rfl
  | cons c cells ih =>
    have first : loadBytes (c :: cells) m = loadBytes cells (Memory.write m c.1 c.2) := rfl
    rw [first, ih, Memory.read_write, lastByte_cons]
    cases lastByte cells a with
    | some b => rfl
    | none => by_cases same : a = c.1 <;> simp [same]

theorem Memory.read_initialMemory (cfg : Config) (draw image : List Host.Cell) (a : Nat) :
    Memory.read (initialMemory cfg draw image) a
      = (lastByte image a).getD ((lastByte (draw.filter fun c => inRam cfg c.1 1) a).getD (Memory.unlisted a)) := by
  rw [initialMemory, Memory.read_loadBytes, Memory.read_loadBytes]
  rfl

/-! ### Power-on -/

theorem powerOn_accepted {cfg : Config} {image : List Host.Cell} (valid : configValid cfg = true)
    (inside : ∀ c ∈ image, inRam cfg c.1 1 = true) (draw : List Host.Cell) :
    powerOn cfg draw image = State.resetWith cfg (initialMemory cfg draw image) := by
  rw [powerOn, valid, List.all_eq_true.mpr inside]
  rfl

theorem powerOn_refused {cfg : Config} {image : List Host.Cell}
    (bad : configValid cfg = false ∨ ∃ c ∈ image, inRam cfg c.1 1 = false) (draw : List Host.Cell) :
    powerOn cfg draw image = { State.resetWith cfg [] with refused := some .badConfiguration } := by
  refine if_neg fun accepted => ?_
  obtain ⟨valid, inside⟩ := Bool.and_eq_true_iff.mp accepted
  obtain invalid | ⟨c, hc, outside⟩ := bad
  · exact absurd (valid.symm.trans invalid) (by decide)
  · exact absurd ((List.all_eq_true.mp inside c hc).symm.trans outside) (by decide)

/-- Settles O51: a violation refuses the run, and an accepted image is loaded over the bytes of the draw that lie in RAM. -/
theorem powerOnLoadsImageOverDraw : Obligations.PowerOnLoadsImageOverDraw := by
  intro cfg draw image
  refine ⟨fun bad => ?refused, fun valid inside => ?accepted⟩
  case refused =>
    rw [powerOn_refused bad draw]
    exact ⟨rfl, step_refused (r := .badConfiguration) rfl rfl⟩
  case accepted =>
    rw [powerOn_accepted valid inside draw]
    refine ⟨rfl, fun a x last => ?image, fun a x unlisted ram last => ?draw⟩
    case image =>
      rw [State.resetWith_mem, Memory.read_initialMemory, lastByte_of_find last, Option.getD_some]
    case draw =>
      rw [State.resetWith_mem, Memory.read_initialMemory, lastByte_of_unlisted unlisted, Option.getD_none,
        lastByte_filter (p := fun a => inRam cfg a 1) ram, lastByte_of_find last, Option.getD_some]

end Sys2Proof.Machine
end

section
/-! PROOF. Quotient and remainder give the dividend back (spec/41_muldiv.md R241). -/

namespace Sys2Proof.Machine

/-! ### The division identity -/

/-- Signed: the divisor 0 leaves the dividend as remainder, the overflow pair multiplies back modulo 2^32 (own choice D4), and
every other pair is the identity of the integers. -/
theorem divideSigned_mul_add_remainderSigned (a b : Word) : divideSigned a b * b + remainderSigned a b = a := by
  unfold divideSigned remainderSigned
  split_ifs with zero overflow
  · rw [zero, BitVec.mul_zero, BitVec.zero_add]
  · obtain ⟨rfl, rfl⟩ := overflow
    rfl
  · rw [Int.sub_eq_add_neg, BitVec.ofInt_add, BitVec.ofInt_neg, BitVec.ofInt_mul, BitVec.ofInt_toInt, BitVec.ofInt_toInt,
      BitVec.add_comm a, ← BitVec.add_assoc, BitVec.add_right_neg, BitVec.zero_add]

theorem divideUnsigned_mul_add_remainderUnsigned (a b : Word) : divideUnsigned a b * b + remainderUnsigned a b = a := by
  unfold divideUnsigned remainderUnsigned
  split_ifs with zero
  · rw [zero, BitVec.mul_zero, BitVec.zero_add]
  · apply BitVec.eq_of_toNat_eq
    simp [BitVec.toNat_add, BitVec.toNat_mul, Nat.div_add_mod', Nat.mod_eq_of_lt a.isLt]

/-- What an instruction that ends in one register write leaves in a register other than x0. -/
theorem reg_of_writeResult {i : Instr} {s t : State} {rd : Reg} {v : Word} (shape : exec i s = writeResult rd v s)
    (hrd : rd ≠ 0#5) (h : exec i s = .next t) : t.reg rd = v := by
  cases shape.symm.trans h
  rw [State.reg_complete, State.reg_setReg, if_pos ⟨rfl, hrd⟩]

/-- Settles O7: the four instructions write the quotients and remainders, for which the identity holds at every divisor. -/
theorem divisionIdentity : Obligations.DivisionIdentity := by
  intro rd rs1 rs2 s q r p m hrd hq hr hp hm
  rw [reg_of_writeResult rfl hrd hq, reg_of_writeResult rfl hrd hr, reg_of_writeResult rfl hrd hp,
    reg_of_writeResult rfl hrd hm, divideSigned_mul_add_remainderSigned, divideUnsigned_mul_add_remainderUnsigned]
  exact ⟨rfl, rfl⟩

end Sys2Proof.Machine
end

section
/-! PROOF. x0 reads 0, drops a write, and as a destination takes nothing else away from an instruction (spec/10_state.md R41). -/

namespace Sys2Proof.Machine

/-! ### An instruction with rd = x0 (own choice D34) -/

theorem State.setReg_zero (s : State) (v : Word) : s.setReg 0#5 v = s := rfl

theorem dest_withDest (i : Instr) (q : Reg) : (i.withDest q).dest = none ∨ (i.withDest q).dest = some q := by
  cases i <;> simp [Instr.withDest, Instr.dest]

/-- With rd = x0 an instruction leaves every register. -/
theorem sameRegs_of_withDest_zero {i : Instr} {s t : State} (h : exec (i.withDest 0#5) s = .next t) : SameRegs s t := by
  intro r
  by_cases hr : r = 0#5
  · rw [hr, State.reg_zero, State.reg_zero]
  · refine onlyDestinationRegisterChanges _ s t r h ?_
    obtain hd | hd := dest_withDest i 0#5 <;> simp [hd, Ne.symm hr]

/-- An answer without the registers of its next state. -/
def withoutRegs : Result → Result
  | .next s => .next { s with regs := Vector.replicate 32 0#32 }
  | .fault f => .fault f
  | .refused r => .refused r

theorem loadOp_dest (n : Width) (ext : Word → Word) (q rd rs1 : Reg) (imm : BitVec 12) (s : State) :
    withoutRegs (loadOp n ext q rs1 imm s) = withoutRegs (loadOp n ext rd rs1 imm s) := by
  unfold loadOp
  split <;> rfl

/-- The destination decides about the registers alone: a load makes the same access for every rd, and the other instructions
write rd last. -/
theorem exec_withDest (i : Instr) (q : Reg) (s : State) : withoutRegs (exec (i.withDest q) s) = withoutRegs (exec i s) := by
  cases i with
  | lb | lh | lw | lbu | lhu => exact loadOp_dest ..
  | _ => rfl

/-- Settles O9, from what the destination decides about and from the register rules. -/
theorem registerZeroIsInvariant : Obligations.RegisterZeroIsInvariant := by
  refine ⟨fun i s t => ⟨State.reg_zero s, fun _ => State.reg_zero t⟩, State.setReg_zero, fun i s => ?_⟩
  have same := exec_withDest i 0#5 s
  obtain ⟨t, ht⟩ | hi := exec_next_or_misaligned i s <;> obtain ⟨u, hu⟩ | hz := exec_next_or_misaligned (i.withDest 0#5) s
  case inl.inl =>
    rw [ht, hu] at same ⊢
    have fields := Host.Outcome.next.inj same
    refine ⟨fun t' h => ⟨u, rfl, sameRegs_of_withDest_zero hu, ?_⟩, fun r => by simp, fun f => by simp⟩
    cases h
    exact congrArg (fun v => { v with regs := t.regs }) fields
  case inl.inr =>
    rw [ht, hz] at same
    cases same
  case inr.inl =>
    rw [hi, hu] at same
    cases same
  case inr.inr =>
    rw [hi, hz]
    exact ⟨fun t h => (nomatch h), fun r => Iff.rfl, fun f h => (nomatch h)⟩

end Sys2Proof.Machine
end

section
/-! PROOF. Device registers: what loads, stores and CLAIM see and change, and which data accesses are refused. -/

namespace Sys2Proof.Machine

/-! ### Register values (spec/60_exceptions.md R423 to R429, R433) -/

theorem extractLsb'_low_eq (x : DWord) : x.extractLsb' 0 32 = BitVec.ofNat 32 x.toNat := rfl

theorem extractLsb'_high_eq (x : DWord) : x.extractLsb' 32 32 = BitVec.ofNat 32 (x.toNat / 2 ^ 32) := by
  rw [BitVec.extractLsb', Nat.shiftRight_eq_div_pow]

theorem DevState.afterRead_of_ne_claim (d : DevState) {r : DevReg} (h : r ≠ .claim) : d.afterRead r = d := by
  cases r with
  | claim => exact absurd rfl h
  | _ => rfl

/-- Settles O24: the 64-bit timer registers are read in halves, the others as they are. -/
theorem deviceReadValues : Obligations.DeviceReadValues := fun d =>
  ⟨rfl, extractLsb'_low_eq _, extractLsb'_high_eq _, extractLsb'_low_eq _, extractLsb'_high_eq _, rfl, rfl, rfl, rfl,
    fun _ => d.afterRead_of_ne_claim⟩

/-! ### Stores to a register (spec/60_exceptions.md R422, R430, R433) -/

/-- A store merges its bytes into the value of the register, a half of a 64-bit one included. -/
theorem DevState.value_write_self (d : DevState) (cfg : Config) {r : DevReg} (k n : Nat) (v : Word) (hc : r ≠ .claim)
    (hu : r ≠ .uartThr) : (d.write cfg r k n v).value r = mergeBytes (d.value r) k n v := by
  cases r with
  | claim => exact absurd rfl hc
  | uartThr => exact absurd rfl hu
  | mtimecmpLo | mtimeLo => exact BitVec.extractLsb'_append_eq_right
  | mtimecmpHi | mtimeHi => exact BitVec.extractLsb'_append_eq_left
  | msip | pending | enable | threshold => rfl

/-- A store to one half of a 64-bit register keeps the other half. -/
theorem DevState.value_write_of_ne (d : DevState) (cfg : Config) {r q : DevReg} (k n : Nat) (v : Word)
    (hu : r ≠ .uartThr) (hq : q ≠ r) (hc : q ≠ .claim) : (d.write cfg r k n v).value q = d.value q := by
  cases r with
  | uartThr => exact absurd rfl hu
  | mtimecmpLo =>
    cases q with
    | mtimecmpHi => exact BitVec.extractLsb'_append_eq_left
    | mtimecmpLo => exact absurd rfl hq
    | _ => rfl
  | mtimecmpHi =>
    cases q with
    | mtimecmpLo => exact BitVec.extractLsb'_append_eq_right
    | mtimecmpHi => exact absurd rfl hq
    | _ => rfl
  | mtimeLo =>
    cases q with
    | mtimeHi => exact BitVec.extractLsb'_append_eq_left
    | mtimeLo => exact absurd rfl hq
    | _ => rfl
  | mtimeHi =>
    cases q with
    | mtimeLo => exact BitVec.extractLsb'_append_eq_right
    | mtimeHi => exact absurd rfl hq
    | _ => rfl
  | msip | pending | enable | threshold | claim => cases q <;> simp_all [DevState.write, DevState.value]

/-- Only a store to the UART register appends to the terminal output. -/
theorem DevState.uartOut_write_of_ne (d : DevState) (cfg : Config) {r : DevReg} (k n : Nat) (v : Word)
    (hu : r ≠ .uartThr) : (d.write cfg r k n v).uartOut = d.uartOut := by
  cases r with
  | uartThr => exact absurd rfl hu
  | _ => rfl

/-- Settles O25: the merge bit by bit for the registers that keep what is written, then CLAIM and the UART. -/
theorem deviceWritesMerge : Obligations.DeviceWritesMerge := by
  intro d cfg r k n v _
  refine ⟨fun hc hu => ⟨fun i hi => ?_, fun q hq hqc => ?_, ?_⟩, rfl, ?_, fun i hi => ?_, rfl⟩
  · rw [d.value_write_self cfg k n v hc hu, getLsbD_mergeBytes _ _ _ _ _ hi]
  · exact d.value_write_of_ne cfg k n v hu hq hqc
  · exact d.uartOut_write_of_ne cfg k n v hu
  · have byte : byteOfWord v 0 = BitVec.ofNat 8 v.toNat := by simp [byteOfWord_eq_ofNat]
    rw [← byte]
    rfl
  · have pending : (d.write cfg .uartThr k n v).plicPending = setBit d.plicPending cfg.uartIrq.toNat true := rfl
    rw [pending, getLsbD_setBit _ _ _ _ hi]
    split <;> simp [*]

/-! ### CLAIM (spec/60_exceptions.md R428) -/

theorem claimSource_eq_some {pending enable : Word} {i : Nat} (hpos : 1 ≤ i) (hlt : i < 32)
    (hp : pending.getLsbD i = true) (he : enable.getLsbD i = true)
    (lowest : ∀ j, 1 ≤ j → j < i → ¬ (pending.getLsbD j = true ∧ enable.getLsbD j = true)) :
    claimSource pending enable = some i := by
  rw [claimSource, List.find?_range'_eq_some]
  refine ⟨by rw [hp, he, Bool.and_true], by rw [List.mem_range'_1]; omega, fun j hj hji => ?_⟩
  simpa [imp_iff_not_or] using lowest j hj hji

theorem claimSource_eq_none {pending enable : Word}
    (noSource : ∀ j, 1 ≤ j → j < 32 → ¬ (pending.getLsbD j = true ∧ enable.getLsbD j = true)) :
    claimSource pending enable = none := by
  rw [claimSource, List.find?_range'_eq_none]
  intro j hj hlt
  simpa [imp_iff_not_or] using noSource j hj hlt

/-- Settles O26: the source found is the lowest one, and its pending bit is the one cleared. -/
theorem claimTakesLowestSource : Obligations.ClaimTakesLowestSource := by
  intro d
  refine ⟨fun i hpos hlt hp he lowest => ?found, fun noSource => ?empty⟩
  case found =>
    have found := claimSource_eq_some hpos hlt hp he lowest
    have after : d.afterRead .claim = { d with plicPending := setBit d.plicPending i false } := by
      rw [d.afterRead_claim, found]
      rfl
    rw [after, DevState.value, found]
    refine ⟨rfl, fun j hj => ?_, rfl⟩
    rw [getLsbD_setBit _ _ _ _ hj]
    split <;> simp [*]
  case empty =>
    have empty := claimSource_eq_none noSource
    rw [d.afterRead_claim, DevState.value, empty]
    exact ⟨rfl, rfl⟩

/-! ### Loads and stores at a device (spec/60_exceptions.md R421, R422; own choice D21) -/

/-- A load from a device register: `value` says what the extension makes of the covered bytes. -/
theorem loadCompletes_device {i : Instr} {n : Width} {ext : Word → Word} {rd rs1 : Reg} {imm : BitVec 12} {s : State}
    {r : DevReg} {value : Nat → Word} (load : exec i s = loadOp n ext rd rs1 imm s)
    (extension : ∀ w : Word, w.toNat < 2 ^ (8 * n.bytes) → ext w = value w.toNat)
    (device : devAt s.cfg (effectiveAddress s rs1 imm) = some r)
    (aligned : (effectiveAddress s rs1 imm).toNat % n.bytes = 0) :
    LoadCompletes i s rd
      (value ((s.dev.value r).toNat / 2 ^ (8 * (effectiveAddress s rs1 imm - r.address s.cfg).toNat) % 2 ^ (8 * n.bytes)))
      s.dcache (s.dev.afterRead r) := by
  rw [← toNat_takeBytes _ _ n.bytes_le_four, ← extension _ (toNat_takeBytes_lt _ _ n.bytes_le_four)]
  exact loadCompletes_of_memRead load (memRead_device aligned device)

/-- Settles O22: each load takes the bytes of the register's value that it covers, and extends them as R264 says. -/
theorem loadsFromDevices : Obligations.LoadsFromDevices := by
  intro rd rs1 imm s r device
  have unsigned (n : Nat) (w : Word) (_ : w.toNat < n) : w = BitVec.ofNat 32 w.toNat := by
    rw [BitVec.ofNat_toNat, BitVec.setWidth_eq]
  refine ⟨?_, ?_, fun aligned => ⟨?_, ?_⟩, fun aligned => ?_⟩
  · exact loadCompletes_device (n := .byte) rfl sext8_eq_signExtended device (Nat.mod_one _)
  · exact loadCompletes_device (n := .byte) rfl (unsigned _) device (Nat.mod_one _)
  · exact loadCompletes_device (n := .half) rfl sext16_eq_signExtended device aligned
  · exact loadCompletes_device (n := .half) rfl (unsigned _) device aligned
  · exact loadCompletes_device (n := .word) rfl (unsigned _) device aligned

theorem storeCompletes_device {i : Instr} {n : Width} {rs1 rs2 : Reg} {imm : BitVec 12} {s : State} {r : DevReg}
    (store : exec i s = storeOp n rs1 rs2 imm s) (device : devAt s.cfg (effectiveAddress s rs1 imm) = some r)
    (aligned : (effectiveAddress s rs1 imm).toNat % n.bytes = 0) :
    StoreCompletes i s (Memory.read s.mem) s.dcache
      (s.dev.write s.cfg r (effectiveAddress s rs1 imm - r.address s.cfg).toNat n.bytes (s.reg rs2)) :=
  storeCompletes_of_memWrite store (memWrite_device aligned device)

/-- Settles O23: each store is the register's write of its width, past both caches and memory. -/
theorem storesToDevices : Obligations.StoresToDevices := by
  intro rs1 rs2 imm s r device
  exact ⟨storeCompletes_device (n := .byte) rfl device (Nat.mod_one _),
    storeCompletes_device (n := .half) rfl device, storeCompletes_device (n := .word) rfl device⟩

/-! ### Misaligned accesses (spec/20_memory.md R99; own choice D7) -/

/-- An aligned load is done or takes LoadFault, wherever it goes. -/
theorem loadOp_refused_iff (n : Width) (ext : Word → Word) (rd rs1 : Reg) (imm : BitVec 12) (s : State) :
    loadOp n ext rd rs1 imm s = .refused .misalignedData ↔ (effectiveAddress s rs1 imm).toNat % n.bytes ≠ 0 := by
  unfold loadOp
  obtain misaligned | ⟨aligned, r, device⟩ | ram | unmapped := access_cases s (effectiveAddress s rs1 imm) n.bytes
  · simp [memRead_misaligned misaligned, misaligned]
  · simp [memRead_device aligned device, aligned, writeResult]
  · simp [memRead_ram ram, ram.1, writeResult]
  · simp [memRead_unmapped unmapped, unmapped.1]

theorem storeOp_refused_iff (n : Width) (rs1 rs2 : Reg) (imm : BitVec 12) (s : State) :
    storeOp n rs1 rs2 imm s = .refused .misalignedData ↔ (effectiveAddress s rs1 imm).toNat % n.bytes ≠ 0 := by
  unfold storeOp
  obtain misaligned | ⟨aligned, r, device⟩ | ram | unmapped := access_cases s (effectiveAddress s rs1 imm) n.bytes
  · simp [memWrite_misaligned misaligned, misaligned]
  · simp [memWrite_device aligned device, aligned]
  · simp [memWrite_ram ram, ram.1]
  · simp [memWrite_unmapped unmapped, unmapped.1]

/-- Settles O28: a load or store is refused exactly where it is misaligned, which one of a byte never is. -/
theorem misalignedDataIsRefused : Obligations.MisalignedDataIsRefused := by
  intro rd rs1 rs2 imm s
  have byteLoad (ext : Word → Word) : loadOp .byte ext rd rs1 imm s ≠ .refused .misalignedData :=
    fun h => (loadOp_refused_iff ..).mp h (Nat.mod_one _)
  exact ⟨(loadOp_refused_iff .half ..).symm, (loadOp_refused_iff .half ..).symm, (loadOp_refused_iff .word ..).symm,
    (storeOp_refused_iff .half ..).symm, (storeOp_refused_iff .word ..).symm, byteLoad _, byteLoad _,
    fun h => (storeOp_refused_iff .byte ..).mp h (Nat.mod_one _)⟩

end Sys2Proof.Machine
end

section
/-! PROOF. System instructions and the start of a cycle: ECALL, MRET, the CSR file and who changes it, the timer and mip. -/

namespace Sys2Proof.Machine

/-! ### ECALL, MRET and the CSR numbers (spec/46_system.md R330, R332; spec/10_state.md R52) -/

/-- Settles O14: ECALL is the trap entry of its cause, whatever the state. -/
theorem ecallTraps : Obligations.EcallTraps := fun s => ⟨_, rfl, takeTrap_entered .environmentCall 0#32 s⟩

/-- Settles O16: the trap return, with mstatus bit by bit. -/
theorem mretReturns : Obligations.MretReturns := by
  intro s
  refine ⟨_, rfl, rfl, rfl, fun i hi => ?status, rfl, fun _ => rfl, rfl, rfl, fun _ => rfl, rfl, rfl, rfl, rfl, rfl, rfl⟩
  refine (getLsbD_returnStatus s.csr.mstatus hi).trans ?_
  by_cases three : i = 3
  · simp [three]
  · simp only [three, if_false]

theorem CsrFile.read_of_unknown (c : CsrFile) {n : CsrNum} (h : n ∉ 0x344#12 :: writableCsrs) : c.read n = 0#32 := by
  unfold CsrFile.read
  split
  case h_8 => rfl
  all_goals exact absurd (by decide) h

/-- Settles O18: the seven numbers by computation, every other as one that the CSR file does not know. -/
theorem csrReadValues : Obligations.CsrReadValues := fun s _ =>
  ⟨rfl, rfl, rfl, rfl, rfl, rfl, rfl, s.csr.read_of_unknown⟩

/-! ### Who changes which CSR (spec/10_state.md R54 to R60) -/

/-- The ways an instruction can leave the CSR file: as it was, as a CSR instruction wrote it, as MRET or as a trap entry
leaves it. Only the last of them adds a trap record. -/
inductive CsrEffect (i : Instr) (s t : State) : Prop where
  | none (csr : t.csr = s.csr) (traps : t.traps = s.traps) (kind : i.accessesCsr = false)
  | access (traps : t.traps = s.traps) (kind : i.accessesCsr = true)
  | mret (csr : t.csr = { s.csr with mstatus := returnStatus s.csr.mstatus }) (traps : t.traps = s.traps) (kind : i = .mret)
  | trap (c : Cause) (tval : Word) (after : t = takeTrap c tval s) (kind : i.accessesCsr = false)

theorem loadOp_csrEffect {i : Instr} {n : Width} {ext : Word → Word} {rd rs1 : Reg} {imm : BitVec 12} {s t : State}
    (kind : i.accessesCsr = false) (h : loadOp n ext rd rs1 imm s = .next t) : CsrEffect i s t := by
  obtain ⟨-, rfl⟩ | ⟨v, u, hm, rfl⟩ := loadOp_next h
  · exact .trap _ _ rfl kind
  · obtain ⟨r, -, -, -, rfl⟩ | ⟨-, -, rfl⟩ := memRead_done hm <;> exact .none rfl rfl kind

theorem storeOp_csrEffect {i : Instr} {n : Width} {rs1 rs2 : Reg} {imm : BitVec 12} {s t : State}
    (kind : i.accessesCsr = false) (h : storeOp n rs1 rs2 imm s = .next t) : CsrEffect i s t := by
  obtain ⟨-, rfl⟩ | ⟨u, hm, rfl⟩ := storeOp_next h
  · exact .trap _ _ rfl kind
  · obtain ⟨r, -, -, rfl⟩ | ⟨-, rfl⟩ := memWrite_done hm <;> exact .none rfl rfl kind

theorem exec_csrEffect {i : Instr} {s t : State} (h : exec i s = .next t) : CsrEffect i s t := by
  cases i with
  | lb | lh | lw | lbu | lhu => exact loadOp_csrEffect rfl h
  | sb | sh | sw => exact storeOp_csrEffect rfl h
  | beq | bne | blt | bge | bltu | bgeu =>
    simp only [exec, execBeq, execBne, execBlt, execBge, execBltu, execBgeu, branchOp_eq] at h
    cases h
    exact .none rfl rfl rfl
  | csrrw | csrrs | csrrc | csrrwi | csrrsi | csrrci =>
    cases h
    exact .access rfl rfl
  | mret =>
    cases h
    exact .mret rfl rfl rfl
  | ecall =>
    cases h
    exact .trap _ _ rfl rfl
  | _ =>
    cases h
    exact .none rfl rfl rfl

/-- Settles O43, along the ways the CSR file can change. -/
theorem whichEventChangesWhichCsr : Obligations.WhichEventChangesWhichCsr := by
  intro i s t h
  obtain ⟨-, -, mip, -⟩ := exec_effect h
  refine ⟨mip, ?_⟩
  cases exec_csrEffect h with
  | none csr traps kind => simp [csr, traps]
  | access traps kind => simp [kind, traps]
  | mret csr traps kind => simp [csr, traps, kind]
  | trap c tval after kind =>
    subst after
    simp [kind]

/-! ### The start of a cycle (spec/60_exceptions.md R380, R381) -/

theorem getLsbD_mipWord : ∀ meip mtip msip : Bool, ∀ i < 32, (mipWord meip mtip msip).getLsbD i =
    if i = 3 then msip else if i = 7 then mtip else if i = 11 then meip else false := by decide

theorem getLsbD_sourceMask : ∀ i < 32, (0xFFFFFFFE#32 : Word).getLsbD i = decide (1 ≤ i) := by decide

theorem ne_zero_iff_getLsbD (w : Word) : w ≠ 0#32 ↔ ∃ k < 32, w.getLsbD k = true := by
  refine ⟨fun h => ?_, fun ⟨k, _, bit⟩ zero => by simp [zero] at bit⟩
  by_contra noBit
  refine h (BitVec.eq_of_getLsbD_eq fun k hk => ?_)
  rw [BitVec.getLsbD_zero]
  exact Bool.eq_false_iff.mpr fun bit => noBit ⟨k, hk, bit⟩

/-- Source 0 does not count (own choice D23). -/
theorem pendingSource_iff (pending enable : Word) :
    pending &&& enable &&& 0xFFFFFFFE#32 ≠ 0#32
      ↔ ∃ k, 1 ≤ k ∧ k < 32 ∧ pending.getLsbD k = true ∧ enable.getLsbD k = true := by
  rw [ne_zero_iff_getLsbD]
  refine exists_congr fun k => ?_
  by_cases hk : k < 32
  · simp only [BitVec.getLsbD_and, getLsbD_sourceMask k hk, hk, Bool.and_eq_true, decide_eq_true_eq]
    tauto
  · simp [hk]

/-- Settles O37: mip is the word of three bits that the devices give once the timer has advanced. -/
theorem cycleStartsWithTimerAndMip : Obligations.CycleStartsWithTimerAndMip := by
  intro s b
  have bits (i : Nat) (hi : i < 32) : b.csr.mip.getLsbD i = _ := getLsbD_mipWord _ _ _ i hi
  have time : b.dev.mtime.toNat = (s.dev.mtime.toNat + Config.timerDraw s.draws) % 2 ^ 64 := by
    simp [b, DevState.advanceTimer, BitVec.toNat_add]
  refine ⟨time, ?msip, ?mtip, ?meip, fun i hi h3 h7 h11 => ?others, rfl, rfl, rfl⟩
  case msip =>
    rw [bits 3 (by decide)]
    exact bne_iff_ne
  case mtip =>
    rw [bits 7 (by decide)]
    exact decide_eq_true_iff
  case meip =>
    rw [bits 11 (by decide), ← pendingSource_iff]
    exact bne_iff_ne
  case others => rw [bits i hi, if_neg h3, if_neg h7, if_neg h11]

end Sys2Proof.Machine
end
